-- ==== Sys2Proof/Word.lean ====
section
/-! DEFINITION. The words of IBC: 32-bit registers (00_scope.md R8, 10_state.md R21) and 8-bit bytes of MEM (20_memory.md R60). -/

namespace Sys2Proof

/-- A register, control register or command word (XLEN = 32, R8). -/
abbrev Word := BitVec 32

/-- A byte of MEM (R60), and a colour channel of a palette ("a model may store each channel in 8 bits", R31). -/
abbrev Byte := BitVec 8

end Sys2Proof
end

