-- ==== Sys2Proof/Syntax.lean ====
section
/-! DEFINITION. The instructions of IBC: one constructor per row of 30_encoding.md R96, operands in the order R96 writes them. -/

namespace Sys2Proof

/-- A register number, a 4-bit field: "every instruction may name any register in any register field" (R23). -/
abbrev Reg := BitVec 4

/-- A slot number field, 0 to 15; the slots 4 to 15 decode but do not exist (R95). -/
abbrev SlotNo := BitVec 4

/-- The 35 instructions of R96. -/
inductive Instr where
  /-- `NOP` (R121) -/
  | nop
  /-- `LI rd, imm20` (R122) -/
  | li (rd : Reg) (imm20 : BitVec 20)
  /-- `LIH rd, imm12` (R123) -/
  | lih (rd : Reg) (imm12 : BitVec 12)
  /-- `CRR rd, cr` (R124) -/
  | crr (rd : Reg) (cr : BitVec 8)
  /-- `RESET` (R125) -/
  | reset
  /-- `PAL.NEW p, ra, rb` (R141) -/
  | palNew (p : SlotNo) (ra rb : Reg)
  /-- `PAL.SET p, ra, rb, rc, rd, re` (R142) -/
  | palSet (p : SlotNo) (ra rb rc rd re : Reg)
  /-- `PAL.SETRGB p, ra, rb, rc, rd` (R143) -/
  | palSetrgb (p : SlotNo) (ra rb rc rd : Reg)
  /-- `PAL.GET p, ra, rb, rc, rd, re` (R144) -/
  | palGet (p : SlotNo) (ra rb rc rd re : Reg)
  /-- `PAL.LEN rd, p` (R145) -/
  | palLen (rd : Reg) (p : SlotNo)
  /-- `PAL.BPC rd, p` (R146) -/
  | palBpc (rd : Reg) (p : SlotNo)
  /-- `PAL.PLANES rd, p` (R147) -/
  | palPlanes (rd : Reg) (p : SlotNo)
  /-- `PAL.CHKPLANES p, ra` (R148) -/
  | palChkplanes (p : SlotNo) (ra : Reg)
  /-- `PAL.RESAMPLE pd, ps, ra` (R149) -/
  | palResample (pd ps : SlotNo) (ra : Reg)
  /-- `PAL.TOVAL p, ra, rb, bits, alpha` (R151); `bits1` is the field q[2:0] = bits - 1, `alpha` is q[3] (R95) -/
  | palToval (p : SlotNo) (ra rb : Reg) (bits1 : BitVec 3) (alpha : Bool)
  /-- `PAL.FROMVAL p, ra, rb` (R152) -/
  | palFromval (p : SlotNo) (ra rb : Reg)
  /-- `PAL.FROMIMG p, ra, rb` (R153) -/
  | palFromimg (p : SlotNo) (ra rb : Reg)
  /-- `ATR.PARSE4 ra, rb, rc, rd` (R181) -/
  | atrParse4 (ra rb rc rd : Reg)
  /-- `ATR.PARSESTE ra, rb, rc, rd` (R182) -/
  | atrParseste (ra rb rc rd : Reg)
  /-- `ATR.MKPAL p, ra, rb, rc` (R184) -/
  | atrMkpal (p : SlotNo) (ra rb rc : Reg)
  /-- `ATR.WRPAL p, ra, rb` (R185) -/
  | atrWrpal (p : SlotNo) (ra rb : Reg)
  /-- `BPL.RAW ra` (R203), legal for ra ≤ 8 -/
  | bplRaw (ra : Reg)
  /-- `BPL.CONTIG ra, rb, rc, rd, re` (R205) -/
  | bplContig (ra rb rc rd re : Reg)
  /-- `BPL.LINE ra, rb, rc, rd` (R206) -/
  | bplLine (ra rb rc rd : Reg)
  /-- `BPL.WORD ra, rb, rc, rd` (R207) -/
  | bplWord (ra rb rc rd : Reg)
  /-- `BPL.READ rd` (R208) -/
  | bplRead (rd : Reg)
  /-- `BPL.WRITE ra` (R209) -/
  | bplWrite (ra : Reg)
  /-- `BPL.ADV ra` (R210) -/
  | bplAdv (ra : Reg)
  /-- `PKB.DEC ra, rb, rc, rd` (R242) -/
  | pkbDec (ra rb rc rd : Reg)
  /-- `PKB.ENC ra, rb, rc, rd, re` (R246) -/
  | pkbEnc (ra rb rc rd re : Reg)
  /-- `PIX.BIND p, ra, rb` (R261) -/
  | pixBind (p : SlotNo) (ra rb : Reg)
  /-- `PIX.READ rd` (R262) -/
  | pixRead (rd : Reg)
  /-- `PIX.WRITE ra` (R263) -/
  | pixWrite (ra : Reg)
  /-- `PIX.ADV ra` (R264) -/
  | pixAdv (ra : Reg)
  /-- `PIX.SETPAL p` (R265) -/
  | pixSetpal (p : SlotNo)
  deriving DecidableEq, Repr

end Sys2Proof
end

