-- ==== Sys2Proof/WellFormed.lean ====
section
/-! DEFINITION. Which instructions have an encoding. Every operand's width is in its type; the one further check is that of R97. -/

namespace Sys2Proof

/-- `BPL.RAW` names eight consecutive registers, which must not run past `x15`: ra ≤ 8 (R94, R97, R203). -/
def Instr.WellFormed : Instr → Bool
  | .bplRaw ra => decide (ra.toNat ≤ 8)
  | .nop | .li .. | .lih .. | .crr .. | .reset
  | .palNew .. | .palSet .. | .palSetrgb .. | .palGet .. | .palLen .. | .palBpc .. | .palPlanes .. | .palChkplanes ..
  | .palResample .. | .palToval .. | .palFromval .. | .palFromimg ..
  | .atrParse4 .. | .atrParseste .. | .atrMkpal .. | .atrWrpal ..
  | .bplContig .. | .bplLine .. | .bplWord .. | .bplRead .. | .bplWrite .. | .bplAdv ..
  | .pkbDec .. | .pkbEnc .. | .pixBind .. | .pixRead .. | .pixWrite .. | .pixAdv .. | .pixSetpal .. => true

end Sys2Proof
end

