-- ==== Sys2Proof/Decode.lean ====
section
/-! DEFINITION. The decoder of 30_encoding.md (R91, R92, R94 to R99), total on any 32-bit word and rejecting by name, and the encoder. -/

namespace Sys2Proof

/-- Why a word is illegal (R97): each of the three cases raises UsageError(ILLEGAL_ENCODING, w). -/
inductive Illegal where
  /-- an opcode byte that is not in the table -/
  | unassignedOpcode
  /-- a listed opcode with a non-zero bit in an unused field -/
  | unusedField
  /-- `BPL.RAW` with ra > 8 -/
  | rawPastLastRegister
  deriving DecidableEq, Repr

/-! The fields of formats R and I (R91, R92). -/

/-- bits 31:24, the opcode -/
def opField (w : Word) : BitVec 8 := w.extractLsb' 24 8
/-- bits 23:20: `ra` of format R, `rd` of format I -/
def raField (w : Word) : Reg := w.extractLsb' 20 4
/-- bits 19:16 -/
def rbField (w : Word) : Reg := w.extractLsb' 16 4
/-- bits 15:12 -/
def rcField (w : Word) : Reg := w.extractLsb' 12 4
/-- bits 11:8 -/
def rdField (w : Word) : Reg := w.extractLsb' 8 4
/-- bits 7:4: `re`, a second slot number, or the bits/alpha immediate -/
def qField (w : Word) : BitVec 4 := w.extractLsb' 4 4
/-- bits 3:0, the slot number -/
def pField (w : Word) : SlotNo := w.extractLsb' 0 4
/-- bits 19:0, the immediate of format I -/
def imm20Field (w : Word) : BitVec 20 := w.extractLsb' 0 20
/-- bits 11:0, the immediate of `LIH` (R95) -/
def imm12Field (w : Word) : BitVec 12 := w.extractLsb' 0 12
/-- bits 7:0, the control-register number of `CRR` (R95) -/
def crField (w : Word) : BitVec 8 := w.extractLsb' 0 8
/-- q[2:0], one less than the `bits` argument of `PAL.TOVAL` (R95) -/
def bitsField (w : Word) : BitVec 3 := w.extractLsb' 4 3
/-- q[3], the `alpha` argument of `PAL.TOVAL` (R95) -/
def alphaField (w : Word) : Bool := w.getLsbD 7

/-- A row of the table of R96: opcode, mnemonic, mask, match, and the fields the row uses. -/
structure OpRow where
  op : BitVec 8
  mnemonic : String
  mask : Word
  fixed : Word
  build : Word → Instr

/-- The system and PAL rows of R96. -/
def rowsSystemPal : List OpRow := [
  ⟨0x00#8, "NOP", 0xFFFFFFFF#32, 0x00000000#32, fun _ => .nop⟩,
  ⟨0x01#8, "LI", 0xFF000000#32, 0x01000000#32, fun w => .li (raField w) (imm20Field w)⟩,
  ⟨0x02#8, "LIH", 0xFF0FF000#32, 0x02000000#32, fun w => .lih (raField w) (imm12Field w)⟩,
  ⟨0x03#8, "CRR", 0xFF0FFF00#32, 0x03000000#32, fun w => .crr (raField w) (crField w)⟩,
  ⟨0x04#8, "RESET", 0xFFFFFFFF#32, 0x04000000#32, fun _ => .reset⟩,
  ⟨0x10#8, "PAL.NEW", 0xFF00FFF0#32, 0x10000000#32, fun w => .palNew (pField w) (raField w) (rbField w)⟩,
  ⟨0x11#8, "PAL.SET", 0xFF000000#32, 0x11000000#32,
    fun w => .palSet (pField w) (raField w) (rbField w) (rcField w) (rdField w) (qField w)⟩,
  ⟨0x12#8, "PAL.SETRGB", 0xFF0000F0#32, 0x12000000#32,
    fun w => .palSetrgb (pField w) (raField w) (rbField w) (rcField w) (rdField w)⟩,
  ⟨0x13#8, "PAL.GET", 0xFF000000#32, 0x13000000#32,
    fun w => .palGet (pField w) (raField w) (rbField w) (rcField w) (rdField w) (qField w)⟩,
  ⟨0x14#8, "PAL.LEN", 0xFFFFF0F0#32, 0x14000000#32, fun w => .palLen (rdField w) (pField w)⟩,
  ⟨0x15#8, "PAL.BPC", 0xFFFFF0F0#32, 0x15000000#32, fun w => .palBpc (rdField w) (pField w)⟩,
  ⟨0x16#8, "PAL.PLANES", 0xFFFFF0F0#32, 0x16000000#32, fun w => .palPlanes (rdField w) (pField w)⟩,
  ⟨0x17#8, "PAL.CHKPLANES", 0xFF0FFFF0#32, 0x17000000#32, fun w => .palChkplanes (pField w) (raField w)⟩,
  ⟨0x18#8, "PAL.RESAMPLE", 0xFF0FFF00#32, 0x18000000#32, fun w => .palResample (pField w) (qField w) (raField w)⟩,
  ⟨0x19#8, "PAL.TOVAL", 0xFF00FF00#32, 0x19000000#32,
    fun w => .palToval (pField w) (raField w) (rbField w) (bitsField w) (alphaField w)⟩,
  ⟨0x1A#8, "PAL.FROMVAL", 0xFF00FFF0#32, 0x1A000000#32, fun w => .palFromval (pField w) (raField w) (rbField w)⟩,
  ⟨0x1B#8, "PAL.FROMIMG", 0xFF00FFF0#32, 0x1B000000#32, fun w => .palFromimg (pField w) (raField w) (rbField w)⟩]

/-- The ATR, BPL, PKB and PIX rows of R96. -/
def rowsUnits : List OpRow := [
  ⟨0x20#8, "ATR.PARSE4", 0xFF0000FF#32, 0x20000000#32,
    fun w => .atrParse4 (raField w) (rbField w) (rcField w) (rdField w)⟩,
  ⟨0x21#8, "ATR.PARSESTE", 0xFF0000FF#32, 0x21000000#32,
    fun w => .atrParseste (raField w) (rbField w) (rcField w) (rdField w)⟩,
  ⟨0x22#8, "ATR.MKPAL", 0xFF000FF0#32, 0x22000000#32,
    fun w => .atrMkpal (pField w) (raField w) (rbField w) (rcField w)⟩,
  ⟨0x23#8, "ATR.WRPAL", 0xFF00FFF0#32, 0x23000000#32, fun w => .atrWrpal (pField w) (raField w) (rbField w)⟩,
  ⟨0x30#8, "BPL.RAW", 0xFF0FFFFF#32, 0x30000000#32, fun w => .bplRaw (raField w)⟩,
  ⟨0x31#8, "BPL.CONTIG", 0xFF00000F#32, 0x31000000#32,
    fun w => .bplContig (raField w) (rbField w) (rcField w) (rdField w) (qField w)⟩,
  ⟨0x32#8, "BPL.LINE", 0xFF0000FF#32, 0x32000000#32,
    fun w => .bplLine (raField w) (rbField w) (rcField w) (rdField w)⟩,
  ⟨0x33#8, "BPL.WORD", 0xFF0000FF#32, 0x33000000#32,
    fun w => .bplWord (raField w) (rbField w) (rcField w) (rdField w)⟩,
  ⟨0x34#8, "BPL.READ", 0xFFFFF0FF#32, 0x34000000#32, fun w => .bplRead (rdField w)⟩,
  ⟨0x35#8, "BPL.WRITE", 0xFF0FFFFF#32, 0x35000000#32, fun w => .bplWrite (raField w)⟩,
  ⟨0x36#8, "BPL.ADV", 0xFF0FFFFF#32, 0x36000000#32, fun w => .bplAdv (raField w)⟩,
  ⟨0x40#8, "PKB.DEC", 0xFF0000FF#32, 0x40000000#32,
    fun w => .pkbDec (raField w) (rbField w) (rcField w) (rdField w)⟩,
  ⟨0x41#8, "PKB.ENC", 0xFF00000F#32, 0x41000000#32,
    fun w => .pkbEnc (raField w) (rbField w) (rcField w) (rdField w) (qField w)⟩,
  ⟨0x50#8, "PIX.BIND", 0xFF00FFF0#32, 0x50000000#32, fun w => .pixBind (pField w) (raField w) (rbField w)⟩,
  ⟨0x51#8, "PIX.READ", 0xFFFFF0FF#32, 0x51000000#32, fun w => .pixRead (rdField w)⟩,
  ⟨0x52#8, "PIX.WRITE", 0xFF0FFFFF#32, 0x52000000#32, fun w => .pixWrite (raField w)⟩,
  ⟨0x53#8, "PIX.ADV", 0xFF0FFFFF#32, 0x53000000#32, fun w => .pixAdv (raField w)⟩,
  ⟨0x54#8, "PIX.SETPAL", 0xFFFFFFF0#32, 0x54000000#32, fun w => .pixSetpal (pField w)⟩]

/-- The complete instruction list (R96), 35 rows. -/
def opRows : List OpRow := rowsSystemPal ++ rowsUnits

/-- The decoding procedure of R99. -/
def decode (w : Word) : Except Illegal Instr :=
  match opRows.find? (fun row => row.op == opField w) with
  | none => .error .unassignedOpcode
  | some row =>
    if w &&& row.mask ≠ row.fixed then .error .unusedField
    else if (row.build w).WellFormed then .ok (row.build w)
    else .error .rawPastLastRegister

/-! The encoder: the same formats written with each field at its place. -/

/-- A word of format R (R91). -/
def formatR (op : BitVec 8) (ra rb rc rd q p : BitVec 4) : Word :=
  (op.setWidth 32 <<< 24) ||| (ra.setWidth 32 <<< 20) ||| (rb.setWidth 32 <<< 16) ||| (rc.setWidth 32 <<< 12) |||
    (rd.setWidth 32 <<< 8) ||| (q.setWidth 32 <<< 4) ||| p.setWidth 32

/-- A word of format I (R92). -/
def formatI (op : BitVec 8) (rd : BitVec 4) (imm20 : BitVec 20) : Word :=
  (op.setWidth 32 <<< 24) ||| (rd.setWidth 32 <<< 20) ||| imm20.setWidth 32

/-- The command word of an instruction (R91, R92, R95, R96, R101). -/
def encode : Instr → Word
  | .nop => formatR 0x00#8 0#4 0#4 0#4 0#4 0#4 0#4
  | .li rd imm20 => formatI 0x01#8 rd imm20
  | .lih rd imm12 => formatI 0x02#8 rd (imm12.setWidth 20)
  | .crr rd cr => formatI 0x03#8 rd (cr.setWidth 20)
  | .reset => formatR 0x04#8 0#4 0#4 0#4 0#4 0#4 0#4
  | .palNew p ra rb => formatR 0x10#8 ra rb 0#4 0#4 0#4 p
  | .palSet p ra rb rc rd re => formatR 0x11#8 ra rb rc rd re p
  | .palSetrgb p ra rb rc rd => formatR 0x12#8 ra rb rc rd 0#4 p
  | .palGet p ra rb rc rd re => formatR 0x13#8 ra rb rc rd re p
  | .palLen rd p => formatR 0x14#8 0#4 0#4 0#4 rd 0#4 p
  | .palBpc rd p => formatR 0x15#8 0#4 0#4 0#4 rd 0#4 p
  | .palPlanes rd p => formatR 0x16#8 0#4 0#4 0#4 rd 0#4 p
  | .palChkplanes p ra => formatR 0x17#8 ra 0#4 0#4 0#4 0#4 p
  | .palResample pd ps ra => formatR 0x18#8 ra 0#4 0#4 0#4 ps pd
  | .palToval p ra rb bits1 alpha => formatR 0x19#8 ra rb 0#4 0#4 ((if alpha then 8#4 else 0#4) ||| bits1.setWidth 4) p
  | .palFromval p ra rb => formatR 0x1A#8 ra rb 0#4 0#4 0#4 p
  | .palFromimg p ra rb => formatR 0x1B#8 ra rb 0#4 0#4 0#4 p
  | .atrParse4 ra rb rc rd => formatR 0x20#8 ra rb rc rd 0#4 0#4
  | .atrParseste ra rb rc rd => formatR 0x21#8 ra rb rc rd 0#4 0#4
  | .atrMkpal p ra rb rc => formatR 0x22#8 ra rb rc 0#4 0#4 p
  | .atrWrpal p ra rb => formatR 0x23#8 ra rb 0#4 0#4 0#4 p
  | .bplRaw ra => formatR 0x30#8 ra 0#4 0#4 0#4 0#4 0#4
  | .bplContig ra rb rc rd re => formatR 0x31#8 ra rb rc rd re 0#4
  | .bplLine ra rb rc rd => formatR 0x32#8 ra rb rc rd 0#4 0#4
  | .bplWord ra rb rc rd => formatR 0x33#8 ra rb rc rd 0#4 0#4
  | .bplRead rd => formatR 0x34#8 0#4 0#4 0#4 rd 0#4 0#4
  | .bplWrite ra => formatR 0x35#8 ra 0#4 0#4 0#4 0#4 0#4
  | .bplAdv ra => formatR 0x36#8 ra 0#4 0#4 0#4 0#4 0#4
  | .pkbDec ra rb rc rd => formatR 0x40#8 ra rb rc rd 0#4 0#4
  | .pkbEnc ra rb rc rd re => formatR 0x41#8 ra rb rc rd re 0#4
  | .pixBind p ra rb => formatR 0x50#8 ra rb 0#4 0#4 0#4 p
  | .pixRead rd => formatR 0x51#8 0#4 0#4 0#4 rd 0#4 0#4
  | .pixWrite ra => formatR 0x52#8 ra 0#4 0#4 0#4 0#4 0#4
  | .pixAdv ra => formatR 0x53#8 ra 0#4 0#4 0#4 0#4 0#4
  | .pixSetpal p => formatR 0x54#8 0#4 0#4 0#4 0#4 0#4 p

/-- The command word of a row's bits: a command is one 32-bit number that the host hands over, so no byte order
applies (R90), and the bits above `nbits` are 0. -/
def tableWord (nbits w : Nat) : Word := BitVec.ofNat 32 (w % 2 ^ nbits)

/-- The instruction the decoder reads from a word numbered as spec/opcode_table.json numbers it. -/
def decodeTableWord (nbits w : Nat) : Option Instr :=
  match decode (tableWord nbits w) with
  | .ok i => some i
  | .error _ => none

end Sys2Proof
end

