-- ==== Sys2Proof/Config.lean ====
section
/-! DEFINITION. What the spec leaves open (92_eei_decisions.md section 8, 93_implementation_defined.md U10 to U12): free constants with no body. -/

namespace Sys2Proof

/-- The highest address of MEM in the machine that State.reset describes: MEM_SIZE - 1, where MEM_SIZE is the open
parameter of R12 with 0 < MEM_SIZE ≤ 2^32, so that every word is a legal value (DESIGN CHOICE, log 1; safe: no value is chosen). -/
opaque Config.memTop : Word

/-- The open parameter PAL_INIT (R13) as a packed free value `r<<24 | g<<16 | b<<8 | a`, before its channels are
brought into the depth's range by `Machine.palInit` (DESIGN CHOICE, log 3; safe: no value is chosen). -/
opaque Config.palInitBits : Nat → BitVec 32

/-- The byte that address `a` holds after the `k`-th power-on: "each byte holds an arbitrary value, possibly different
at each reset" (R310; DESIGN CHOICE, log 4; safe: no value is chosen). -/
opaque Config.powerOnByte : (k : Nat) → (a : Nat) → Byte

end Sys2Proof
end

