-- ==== Sys2Proof/Machine/State.lean ====
section
/-! DEFINITION. The architectural state of IBC (10_state.md) as plain data, the outcomes' reasons, and the state after hardware reset (R41, R310). -/

namespace Sys2Proof.Machine

/-- A Color: four integer channels (R18, R31), each held in 8 bits. -/
structure Color where
  r : Byte
  g : Byte
  b : Byte
  a : Byte
  deriving DecidableEq, Repr

/-- An IndexedPalette (R18, R30): its depth `bitsPerChannel` (1 to 8) and its entries, numbered from 0. Its `length`
(0 to 256) is the number of entries. -/
structure Palette where
  bpc : Nat
  ents : List Color
  deriving DecidableEq, Repr

/-- The engine's configuration (R26, R33): the buffer window and the six constructor parameters. -/
structure BplConfig where
  base : Word
  len : Word
  bytesPerBlock : Word
  blockStride : Word
  blocksPerLine : Word
  lineStride : Word
  planeCount : Word
  planeStride : Word
  deriving DecidableEq, Repr

/-- The engine's cursor (R34). -/
structure Cursor where
  byteInBlock : Word
  blockIndex : Word
  lineIndex : Word
  bitIndex : BitVec 3
  deriving DecidableEq, Repr

/-- The bitplane engine (R33 to R35): the flag STATUS.BPL_CFG, the configuration, the cursor and the pixel cache. -/
structure Bitplane where
  cfg : Bool
  conf : BplConfig
  cur : Cursor
  cacheValid : Bool
  cache : Vector Byte 8
  deriving DecidableEq, Repr

/-- The pixel adapter (R36, R37): the flag STATUS.PIX_BOUND, the pixel window, the position, the slot last bound, and
the lookup table, whose length is PIX_LUTLEN. -/
structure Adapter where
  bound : Bool
  base : Word
  len : Word
  pos : Word
  pal : BitVec 2
  lut : List Word
  deriving DecidableEq, Repr

/-- The contents MEM started with. "A model should treat power-on MEM as an unconstrained input" (R314): either no
rule fixes them (the free contents of power-on number `k`), or the run is given memory filled with one byte, as the
test vectors of 95_test_vectors.md take it (DESIGN CHOICE, log 4). -/
inductive PowerOn where
  /-- unspecified: address `a` holds the free value `Config.powerOnByte k a` (R310) -/
  | unspecified (k : Nat)
  /-- a given input: every byte holds `b` -/
  | filled (b : Byte)
  deriving DecidableEq, Repr

/-- MEM (R39, R60): the power-on contents and the bytes that differ from them, in the one canonical form that
`Memory.wf` states. -/
structure Memory where
  powerOn : PowerOn
  cells : List Host.Cell
  deriving DecidableEq, Repr

/-- What the host or the platform does between two commands (R20, R70, R310). -/
inductive HostAction where
  /-- the host issues a command word (R24, R90) -/
  | command (w : Word)
  /-- the host writes byte `b` at address `a` of MEM (R70) -/
  | store (a : Nat) (b : Byte)
  /-- power-on or the platform's reset input (R310) -/
  | hardwareReset
  deriving DecidableEq, Repr

/-- The whole state of IBC, and beside it three fields of the model's own that the spec calls parameters or inputs
(R40): `memTop`, `mem.powerOn` and `pending`. -/
structure State where
  /-- the general registers `x0` to `x15` (R21); `x0` is hard-wired by `State.reg` and `State.setReg` (R22) -/
  regs : Vector Word 16
  /-- the count of completed commands (R24) -/
  seq : Word
  /-- STATUS.HALT (R27) -/
  halt : Bool
  /-- ERRCODE (R28) -/
  errcode : Word
  /-- ERRVAL (R28) -/
  errval : Word
  /-- the palette slots `p0` to `p3`, `none` when empty (R30) -/
  slots : Vector (Option Palette) 4
  /-- the bitplane engine (R33 to R35) -/
  bpl : Bitplane
  /-- the pixel adapter (R36, R37) -/
  pix : Adapter
  /-- MEM (R39) -/
  mem : Memory
  /-- the parameter MEM_SIZE, less 1 (R12; log 1); no step changes it -/
  memTop : Word
  /-- what the host and the platform do, oldest first (R20, R24, R40; log 5) -/
  pending : List HostAction
  deriving DecidableEq, Repr

/-- Why a step can stop. An error of the spec (R280) is no stop of the model: error entry (R290) is a next state. -/
inductive Fault where
  /-- The host stores to address `a`, which is not below MEM_SIZE and so does not exist (R60, R70). Raised by the
  host's store only, by no instruction. Safe: the model stops where the spec gives no behaviour (log 9). -/
  | hostStoreOutsideMem (a : Nat)
  deriving DecidableEq, Repr

/-- Why an instruction can be refused. -/
inductive Refusal where
  /-- The instruction has no meaning in the model. Raised by no arm: all 35 instructions have their meaning. Safe. -/
  | notModelled (mnemonic : String)
  deriving DecidableEq, Repr

/-- The engine after reset (R41): unconfigured, every parameter and the cursor 0, cache invalid. The eight cache
entries are "unspecified and never read while cacheValid = 0": 0 here (DESIGN CHOICE, log 7; unsafe only for a claim
about the entries of an invalid cache). -/
def Bitplane.reset : Bitplane where
  cfg := false
  conf := ⟨0#32, 0#32, 0#32, 0#32, 0#32, 0#32, 0#32, 0#32⟩
  cur := ⟨0#32, 0#32, 0#32, 0#3⟩
  cacheValid := false
  cache := Vector.replicate 8 0#8

/-- The pixel adapter after reset (R41): unbound, all zero, empty LUT. -/
def Adapter.reset : Adapter := ⟨false, 0#32, 0#32, 0#32, 0#2, []⟩

/-- The machine right after hardware reset (R41, R310): MEM unspecified, and nothing issued yet (R312). -/
def State.reset : State where
  regs := Vector.replicate 16 0#32
  seq := 0#32
  halt := false
  errcode := 0#32
  errval := 0#32
  slots := Vector.replicate 4 none
  bpl := Bitplane.reset
  pix := Adapter.reset
  mem := ⟨.unspecified 0, []⟩
  memTop := Config.memTop
  pending := []

end Sys2Proof.Machine
end

