-- ==== Sys2Proof/Machine/Errors.lean ====
section
/-! DEFINITION. The error classes, causes and codes of 60_exceptions.md (R281 to R285). -/

namespace Sys2Proof.Machine

/-- The error classes (R281). -/
inductive ErrorClass where
  | bounds
  | paletteLookup
  | range
  /-- reserved: no instruction raises it (R5, R281) -/
  | format
  | usage
  deriving DecidableEq, Repr

/-- The class codes, held in ERRCODE[7:0] (R281). -/
def ErrorClass.code : ErrorClass → Nat
  | .bounds => 1
  | .paletteLookup => 2
  | .range => 3
  | .format => 4
  | .usage => 5

/-- The causes: the sub-causes of R282 to R285 under their names. -/
inductive Cause where
  | window | bplAddr | bplLineOvf | srcUnderflow | dstOverrun | pixAddr | pixPosOvf | srcShort
  | noMatch
  | notPow2 | tooManyColors | badBpcAtari | badBpc | badLength | badIndex | badGeometry
  | illegalEncoding | badSlot | slotEmpty | bplUnconfigured | pixUnbound | badCr | overlap
  deriving DecidableEq, Repr

/-- The class a cause belongs to (R282 to R285). -/
def Cause.cls : Cause → ErrorClass
  | .window | .bplAddr | .bplLineOvf | .srcUnderflow | .dstOverrun | .pixAddr | .pixPosOvf | .srcShort => .bounds
  | .noMatch => .paletteLookup
  | .notPow2 | .tooManyColors | .badBpcAtari | .badBpc | .badLength | .badIndex | .badGeometry => .range
  | .illegalEncoding | .badSlot | .slotEmpty | .bplUnconfigured | .pixUnbound | .badCr | .overlap => .usage

/-- The sub-cause number, held in ERRCODE[15:8] (R282 to R285). -/
def Cause.sub : Cause → Nat
  | .window => 1
  | .bplAddr => 2
  | .bplLineOvf => 3
  | .srcUnderflow => 4
  | .dstOverrun => 5
  | .pixAddr => 6
  | .pixPosOvf => 7
  | .srcShort => 8
  | .noMatch => 0
  | .notPow2 => 1
  | .tooManyColors => 2
  | .badBpcAtari => 3
  | .badBpc => 4
  | .badLength => 5
  | .badIndex => 6
  | .badGeometry => 7
  | .illegalEncoding => 1
  | .badSlot => 2
  | .slotEmpty => 3
  | .bplUnconfigured => 4
  | .pixUnbound => 5
  | .badCr => 6
  | .overlap => 7

/-- The value ERRCODE takes: `(sub << 8) | class` (R290). -/
def Cause.errcode (c : Cause) : Word := BitVec.ofNat 32 ((c.sub <<< 8) ||| c.cls.code)

/-- A `raise Class(SUB, val)` of an instruction's pseudocode (R15). -/
structure Err where
  cause : Cause
  val : Nat
  deriving DecidableEq, Repr

end Sys2Proof.Machine
end

