-- ==== Sys2Proof/Machine/Ops.lean ====
section
/-! DEFINITION. The shared operations: registers (R15, R22), bytes of MEM (R15, R60 to R66), slots, error entry (R290), completion (R16, R24) and reset (R125, R310). -/

namespace Sys2Proof.Machine

/-! ### General registers -/

/-- `x[i]`: "`x0` reads as 0 always" (R15, R22). -/
def State.reg (s : State) (i : Reg) : Word :=
  if i = 0#4 then 0#32 else s.regs[i.toNat]'i.isLt

/-- `x[i] <- v`: a write to `x0` is discarded (R15, R22). -/
def State.setReg (s : State) (i : Reg) (v : Word) : State :=
  if i = 0#4 then s else { s with regs := s.regs.set i.toNat v i.isLt }

/-! ### MEM -/

/-- MEM_SIZE, the number of bytes of MEM (R12). -/
def State.memSize (s : State) : Nat := s.memTop.toNat + 1

/-- What an address reads as that no cell lists: its power-on byte (R310). -/
def Memory.unlisted (m : Memory) (a : Nat) : Byte :=
  match m.powerOn with
  | .unspecified k => Config.powerOnByte k a
  | .filled b => b

/-- The byte listed for an address, if any. -/
def cellAt : List Host.Cell → Nat → Option Byte
  | [], _ => none
  | (c, v) :: rest, a => if c = a then some v else cellAt rest a

/-- `MEM[a]` (R15): "every byte holds the last value written to it" (R72). -/
def Memory.read (m : Memory) (a : Nat) : Byte :=
  (cellAt m.cells a).getD (m.unlisted a)

/-- The cells without address `a`. -/
def eraseCell (cells : List Host.Cell) (a : Nat) : List Host.Cell :=
  cells.filter (fun c => c.1 ≠ a)

/-- A cell put in its place among cells of rising addresses. -/
def insertCell : List Host.Cell → Nat → Byte → List Host.Cell
  | [], a, b => [(a, b)]
  | (c, v) :: rest, a, b => if a < c then (a, b) :: (c, v) :: rest else (c, v) :: insertCell rest a b

/-- `MEM[a] <- b` (R15): the listed cells stay in canonical form, so the value an unlisted address reads as is not listed. -/
def Memory.write (m : Memory) (a : Nat) (b : Byte) : Memory :=
  { m with cells := if b = m.unlisted a then eraseCell m.cells a else insertCell (eraseCell m.cells a) a b }

/-- The canonical form: addresses strictly rising, and no cell that holds what its address reads as unlisted. -/
def Memory.wf (m : Memory) : Bool :=
  decide (m.cells.Pairwise (fun c d => c.1 < d.1)) && m.cells.all (fun c => c.2 != m.unlisted c.1)

/-- `MEM[a .. a+n−1]` in address order. -/
def Memory.readBytes (m : Memory) (a n : Nat) : List Byte :=
  (List.range n).map fun j => m.read (a + j)

/-- `MEM[a+j] <- bs[j]` for each `j`, in address order. -/
def Memory.writeBytes (m : Memory) (a : Nat) : List Byte → Memory
  | [] => m
  | b :: bs => (m.write a b).writeBytes (a + 1) bs

/-- `MemRead(a, 2)`: big-endian (R15, R64). -/
def Memory.read16 (m : Memory) (a : Nat) : BitVec 16 :=
  ((m.read a).setWidth 16 <<< 8) ||| (m.read (a + 1)).setWidth 16

/-- `MemRead(a, 4)`: big-endian (R15, R65, R66). -/
def Memory.read32 (m : Memory) (a : Nat) : Word :=
  ((m.read a).setWidth 32 <<< 24) ||| ((m.read (a + 1)).setWidth 32 <<< 16) ||| ((m.read (a + 2)).setWidth 32 <<< 8) |||
    (m.read (a + 3)).setWidth 32

/-- The words `MemRead(a + 4·i, 4)` for `0 ≤ i < n`. -/
def Memory.read32s (m : Memory) (a n : Nat) : List Word :=
  (List.range n).map fun i => m.read32 (a + 4 * i)

/-- The words `MemRead(a + 2·i, 2)` for `0 ≤ i < n` (R64). -/
def Memory.read16s (m : Memory) (a n : Nat) : List (BitVec 16) :=
  (List.range n).map fun i => m.read16 (a + 2 * i)

/-- The two bytes `MemWrite(a, 2, v)` stores, in address order: big-endian (R15, R64). -/
def bytes16 (v : BitVec 16) : List Byte := [v.extractLsb' 8 8, v.extractLsb' 0 8]

/-- The four bytes `MemWrite(a, 4, v)` stores, in address order: big-endian (R15, R66). -/
def bytes32 (v : Word) : List Byte :=
  [v.extractLsb' 24 8, v.extractLsb' 16 8, v.extractLsb' 8 8, v.extractLsb' 0 8]

/-! ### Palette slots -/

/-- `PAL[k] <- P`: the slot's palette is replaced whole (R30, R140). -/
def State.setSlot (s : State) (k : Fin 4) (P : Palette) : State :=
  { s with slots := s.slots.set k.val (some P) k.isLt }

/-- The palette in slot `k`, if it is occupied (R30). -/
def State.slot (s : State) (k : Fin 4) : Option Palette := s.slots[k.val]'k.isLt

/-! ### Completion, error entry, and the way out of the halted state -/

/-- A command that completes: `SEQ <- (SEQ + 1) mod 2^32` as its last action (R16, R24). -/
def State.complete (s : State) : State := { s with seq := s.seq + 1#32 }

/-- Error entry (R290): ERRCODE, ERRVAL and HALT are written; SEQ and everything else stay as before the command. -/
def State.raise (s : State) (e : Err) : State :=
  { s with halt := true, errcode := e.cause.errcode, errval := BitVec.ofNat 32 e.val }

/-- The end of a command that started in `s` (R120, R291): its result is committed and SEQ steps, or, if a `raise`
was reached, error entry is taken from `s` and nothing the pseudocode assigned is kept. -/
def commit (s : State) (result : Except Err State) : Host.Outcome State Fault Refusal :=
  match result with
  | .ok t => .next t.complete
  | .error e => .next (s.raise e)

/-- One check of an instruction's pseudocode: `if not ok: raise e`. -/
def require (ok : Prop) [Decidable ok] (e : Err) : Except Err Unit :=
  if ok then .ok () else .error e

/-- Every piece of state at its reset value (R41), but for MEM, which keeps its content (R125, R311). It is the only
way out of the halted state but hardware reset (R293). -/
def State.clear (s : State) : State :=
  { State.reset with mem := s.mem, memTop := s.memTop, pending := s.pending }

/-- The contents of MEM at the next power-on: unspecified anew, "possibly different at each reset" (R310). -/
def PowerOn.next : PowerOn → PowerOn
  | .unspecified k => .unspecified (k + 1)
  | .filled _ => .unspecified 0

/-- Hardware reset (R310): as `State.clear`, and MEM is unspecified again. -/
def State.hardwareReset (s : State) : State :=
  { s.clear with mem := ⟨s.mem.powerOn.next, []⟩ }

/-- The host writes a byte of MEM between two commands (R70), also while the core is halted (R292); an address
outside MEM does not exist (R60; log 9). -/
def State.hostStore (s : State) (a : Nat) (b : Byte) : Host.Outcome State Fault Refusal :=
  if a < s.memSize then .next { s with mem := s.mem.write a b } else .fault (.hostStoreOutsideMem a)

end Sys2Proof.Machine
end

