-- ==== Sys2Proof/Machine/Operands.lean ====
section
/-! DEFINITION. The operand forms: windows (R62), slot numbers and slot contents (R140), signed channels (R142), overlapping windows (R79). -/

namespace Sys2Proof.Machine

/-- The window check (R62): `base + len ≤ MEM_SIZE` in unbounded integers, else BoundsError(WINDOW, base). -/
def State.checkWindow (s : State) (base : Word) (len : Nat) : Except Err Unit :=
  require (base.toNat + len ≤ s.memSize) ⟨.window, base.toNat⟩

/-- The slot-number check (R140): a number of NPAL = 4 or more raises UsageError(BAD_SLOT, number). -/
def checkSlot (p : SlotNo) : Except Err (Fin 4) :=
  if h : p.toNat < 4 then .ok ⟨p.toNat, h⟩ else .error ⟨.badSlot, p.toNat⟩

/-- The slot-contents check (R140): reading an empty slot raises UsageError(SLOT_EMPTY, number). -/
def State.readSlot (s : State) (k : Fin 4) : Except Err Palette :=
  match s.slot k with
  | some P => .ok P
  | none => .error ⟨.slotEmpty, k.val⟩

/-- `clamp(v, lo, hi)` (R14). -/
def clamp (v lo hi : Int) : Int := if v < lo then lo else if hi < v then hi else v

/-- The largest channel value of a depth, `max(b) = 2^b − 1`. -/
def maxChannel (b : Nat) : Nat := 2 ^ b - 1

/-- A channel operand of `PAL.SET` and `PAL.SETRGB`: read as signed and clamped into the depth's range (R142). -/
def channelOperand (bpc : Nat) (v : Word) : Byte :=
  BitVec.ofNat 8 (clamp v.toInt 0 (maxChannel bpc)).toNat

/-- Two windows that are both non-empty and share a byte (R79, R242, R246). -/
abbrev Overlapping (src sl dst dl : Nat) : Prop := 0 < sl ∧ 0 < dl ∧ src < dst + dl ∧ dst < src + sl

/-- The overlap check of the packbits instructions: UsageError(OVERLAP, 0) (R79). -/
def checkDisjoint (src sl dst dl : Nat) : Except Err Unit :=
  require (¬ Overlapping src sl dst dl) ⟨.overlap, 0⟩

end Sys2Proof.Machine
end

