-- ==== Sys2Proof/Machine/Palette.lean ====
section
/-! DEFINITION. The palette unit (41_palette.md R140 to R153). -/

namespace Sys2Proof.Machine

/-! ### Palette values -/

/-- `length` (R30). -/
def Palette.length (P : Palette) : Nat := P.ents.length

/-- The entry numbered `i`, if `i < length` (R30). -/
def Palette.entry (P : Palette) (i : Nat) : Option Color := P.ents[i]?

/-- PAL_INIT (R13): the colour of every entry after `PAL.NEW`, an open function from the depth to a colour whose
channels lie in [0, 2^b − 1] (log 3). -/
def palInit (b : Nat) : Color :=
  let v := Config.palInitBits b
  let channel (c : Byte) : Byte := BitVec.ofNat 8 (c.toNat % 2 ^ b)
  ⟨channel (v.extractLsb' 24 8), channel (v.extractLsb' 16 8), channel (v.extractLsb' 8 8), channel (v.extractLsb' 0 8)⟩

/-- The scaling function `rs(c, ob, nb)`: round half up (R150). -/
def rs (c ob nb : Nat) : Nat := (2 * c * maxChannel nb + maxChannel ob) / (2 * maxChannel ob)

/-- All four channels, alpha included, scaled from depth `ob` to depth `nb` (R149). -/
def Color.rescale (c : Color) (ob nb : Nat) : Color :=
  let scale (x : Byte) : Byte := BitVec.ofNat 8 (rs x.toNat ob nb)
  ⟨scale c.r, scale c.g, scale c.b, scale c.a⟩

/-- `resample(newBits)` (R149). -/
def Palette.resample (P : Palette) (nb : Nat) : Palette :=
  ⟨nb, P.ents.map (·.rescale P.bpc nb)⟩

/-- A colour packed with R most significant, each channel `bits` wide, with or without alpha (R151). -/
def Color.pack (c : Color) (bits : Nat) (alpha : Bool) : Word :=
  let z (x : Byte) : Word := x.setWidth 32
  if alpha then (z c.r <<< (3 * bits)) ||| (z c.g <<< (2 * bits)) ||| (z c.b <<< bits) ||| z c.a
  else (z c.r <<< (2 * bits)) ||| (z c.g <<< bits) ||| z c.b

/-- A 32-bit word unpacked as R(bits 31–24) G(23–16) B(15–8) A(7–0) (R152). -/
def Color.ofPacked (v : Word) : Color :=
  ⟨v.extractLsb' 24 8, v.extractLsb' 16 8, v.extractLsb' 8 8, v.extractLsb' 0 8⟩

/-- The words of `toValueArray(bits, alpha)`: the palette at depth `bits`, packed (R151). -/
def Palette.toValues (P : Palette) (bits : Nat) (alpha : Bool) : List Word :=
  (P.resample bits).ents.map (·.pack bits alpha)

/-- The palette that `fromValueArray` makes of packed words: always 8 bits per channel (R152). -/
def Palette.ofValues (vs : List Word) : Palette := ⟨8, vs.map Color.ofPacked⟩

/-- The distinct values of a pixel list in first-seen order, after `seen` and counting pixels from `j`; the pixel that
holds the 257th distinct value raises TOO_MANY_COLORS with its number (R153). -/
def distinctPixels : List Word → (j : Nat) → (seen : List Word) → Except Err (List Word)
  | [], _, seen => .ok seen
  | v :: vs, j, seen =>
    if v ∈ seen then distinctPixels vs (j + 1) seen
    else if seen.length = 256 then .error ⟨.tooManyColors, j⟩
    else distinctPixels vs (j + 1) (seen ++ [v])

/-! ### Instructions -/

/-- `PAL.NEW p, ra, rb` (R141). -/
def execPalNew (p : SlotNo) (ra rb : Reg) (s : State) : Host.Outcome State Fault Refusal :=
  commit s do
    let k ← checkSlot p
    let length := (s.reg ra).toNat
    let bpc := (s.reg rb).toNat
    require (1 ≤ bpc ∧ bpc ≤ 8) ⟨.badBpc, bpc⟩
    require (length ≤ 256) ⟨.badLength, length⟩
    .ok (s.setSlot k ⟨bpc, List.replicate length (palInit bpc)⟩)

/-- `PAL.SET p, ra, rb, rc, rd, re` (R142). -/
def execPalSet (p : SlotNo) (ra rb rc rd re : Reg) (s : State) : Host.Outcome State Fault Refusal :=
  commit s do
    let k ← checkSlot p
    let P ← s.readSlot k
    let i := (s.reg ra).toNat
    require (i < P.length) ⟨.badIndex, i⟩
    let c : Color := ⟨channelOperand P.bpc (s.reg rb), channelOperand P.bpc (s.reg rc),
      channelOperand P.bpc (s.reg rd), channelOperand P.bpc (s.reg re)⟩
    .ok (s.setSlot k ⟨P.bpc, P.ents.set i c⟩)

/-- `PAL.SETRGB p, ra, rb, rc, rd` (R143): alpha is the depth's maximum. -/
def execPalSetrgb (p : SlotNo) (ra rb rc rd : Reg) (s : State) : Host.Outcome State Fault Refusal :=
  commit s do
    let k ← checkSlot p
    let P ← s.readSlot k
    let i := (s.reg ra).toNat
    require (i < P.length) ⟨.badIndex, i⟩
    let c : Color := ⟨channelOperand P.bpc (s.reg rb), channelOperand P.bpc (s.reg rc),
      channelOperand P.bpc (s.reg rd), BitVec.ofNat 8 (maxChannel P.bpc)⟩
    .ok (s.setSlot k ⟨P.bpc, P.ents.set i c⟩)

/-- `PAL.GET p, ra, rb, rc, rd, re` (R144): the index is read first, the channels are written in the order r, g, b, a. -/
def execPalGet (p : SlotNo) (ra rb rc rd re : Reg) (s : State) : Host.Outcome State Fault Refusal :=
  commit s do
    let k ← checkSlot p
    let P ← s.readSlot k
    let i := (s.reg ra).toNat
    match P.entry i with
    | none => .error ⟨.badIndex, i⟩
    | some c =>
      .ok ((((s.setReg rb (c.r.setWidth 32)).setReg rc (c.g.setWidth 32)).setReg rd (c.b.setWidth 32)).setReg re
        (c.a.setWidth 32))

/-- `PAL.LEN rd, p` (R145). -/
def execPalLen (rd : Reg) (p : SlotNo) (s : State) : Host.Outcome State Fault Refusal :=
  commit s do
    let k ← checkSlot p
    let P ← s.readSlot k
    .ok (s.setReg rd (BitVec.ofNat 32 P.length))

/-- `PAL.BPC rd, p` (R146). -/
def execPalBpc (rd : Reg) (p : SlotNo) (s : State) : Host.Outcome State Fault Refusal :=
  commit s do
    let k ← checkSlot p
    let P ← s.readSlot k
    .ok (s.setReg rd (BitVec.ofNat 32 P.bpc))

/-- `PAL.PLANES rd, p` (R147). -/
def execPalPlanes (rd : Reg) (p : SlotNo) (s : State) : Host.Outcome State Fault Refusal :=
  commit s do
    let k ← checkSlot p
    let P ← s.readSlot k
    let L := P.length
    require (¬ (L = 0 ∨ L &&& (L - 1) ≠ 0)) ⟨.notPow2, L⟩
    .ok (s.setReg rd (BitVec.ofNat 32 (Nat.log2 L)))

/-- More than `2^n` colours, in unbounded integers (R148). The first conjunct follows from the second (`n < 2^n`); it
keeps the power small when `n` is a large register value. -/
abbrev TooManyColors (L n : Nat) : Prop := n < L ∧ 2 ^ n < L

/-- `PAL.CHKPLANES p, ra` (R148): it writes nothing. -/
def execPalChkplanes (p : SlotNo) (ra : Reg) (s : State) : Host.Outcome State Fault Refusal :=
  commit s do
    let k ← checkSlot p
    let P ← s.readSlot k
    require (¬ TooManyColors P.length (s.reg ra).toNat) ⟨.tooManyColors, P.length⟩
    .ok s

/-- `PAL.RESAMPLE pd, ps, ra` (R149): both slot numbers are checked before the source's contents, pd first. -/
def execPalResample (pd ps : SlotNo) (ra : Reg) (s : State) : Host.Outcome State Fault Refusal :=
  commit s do
    let kd ← checkSlot pd
    let ks ← checkSlot ps
    let P ← s.readSlot ks
    let nb := (s.reg ra).toNat
    require (1 ≤ nb ∧ nb ≤ 8) ⟨.badBpc, nb⟩
    .ok (s.setSlot kd (P.resample nb))

/-- `PAL.TOVAL p, ra, rb, bits, alpha` (R151); `bits = bits1 + 1` (R95). The slot itself is not changed. -/
def execPalToval (p : SlotNo) (ra rb : Reg) (bits1 : BitVec 3) (alpha : Bool) (s : State) :
    Host.Outcome State Fault Refusal :=
  commit s do
    let k ← checkSlot p
    let P ← s.readSlot k
    let dst := s.reg ra
    let cap := (s.reg rb).toNat
    s.checkWindow dst cap
    require (4 * P.length ≤ cap) ⟨.dstOverrun, 4 * P.length⟩
    .ok { s with mem := s.mem.writeBytes dst.toNat ((P.toValues (bits1.toNat + 1) alpha).flatMap bytes32) }

/-- `PAL.FROMVAL p, ra, rb` (R152). -/
def execPalFromval (p : SlotNo) (ra rb : Reg) (s : State) : Host.Outcome State Fault Refusal :=
  commit s do
    let k ← checkSlot p
    let src := s.reg ra
    let n := (s.reg rb).toNat
    require (n ≤ 256) ⟨.badLength, n⟩
    s.checkWindow src (4 * n)
    .ok (s.setSlot k (Palette.ofValues (s.mem.read32s src.toNat n)))

/-- `PAL.FROMIMG p, ra, rb` (R153). -/
def execPalFromimg (p : SlotNo) (ra rb : Reg) (s : State) : Host.Outcome State Fault Refusal :=
  commit s do
    let k ← checkSlot p
    let src := s.reg ra
    let len := (s.reg rb).toNat
    s.checkWindow src len
    require (len % 4 = 0) ⟨.srcShort, len⟩
    let seen ← distinctPixels (s.mem.read32s src.toNat (len / 4)) 0 []
    .ok (s.setSlot k (Palette.ofValues seen))

end Sys2Proof.Machine
end

