-- ==== Sys2Proof/Machine/Atari.lean ====
section
/-! DEFINITION. The Atari ST/STE colour codec (42_atari_color.md R180 to R185). -/

namespace Sys2Proof.Machine

/-- `rot(n)`: a nibble's bit 3 becomes its bit 0, and bits 2:0 move up (R180). -/
def rot (n : BitVec 4) : BitVec 4 := ((n &&& 8#4) >>> 3) ||| (n <<< 1)

/-- `inv(c)`, the inverse of `rot` (R180). -/
def inv (c : BitVec 4) : BitVec 4 := ((c <<< 3) &&& 8#4) ||| ((c >>> 1) &&& 7#4)

/-- The red nibble of a colour word, bits 11:8 (R181). -/
def redNibble {w : Nat} (v : BitVec w) : BitVec 4 := v.extractLsb' 8 4
/-- The green nibble, bits 7:4 (R181). -/
def greenNibble {w : Nat} (v : BitVec w) : BitVec 4 := v.extractLsb' 4 4
/-- The blue nibble, bits 3:0 (R181). -/
def blueNibble {w : Nat} (v : BitVec w) : BitVec 4 := v.extractLsb' 0 4

/-- ST-versus-STE detection over a whole buffer: some word has bit 3 of a colour nibble set (R183). -/
def steDetected (ws : List (BitVec 16)) : Bool := ws.any (fun w => w &&& 0x0888#16 ≠ 0#16)

/-- A word as a 3-bit ST colour, alpha at its maximum (R184). -/
def stColor (w : BitVec 16) : Color :=
  ⟨(redNibble w).setWidth 8, (greenNibble w).setWidth 8, (blueNibble w).setWidth 8, 7#8⟩

/-- A word as a 4-bit STE colour, alpha at its maximum (R184). -/
def steColor (w : BitVec 16) : Color :=
  ⟨(rot (redNibble w)).setWidth 8, (rot (greenNibble w)).setWidth 8, (rot (blueNibble w)).setWidth 8, 15#8⟩

/-- The palette of a buffer of colour words: one STE word makes every entry a 4-bit colour (R184). -/
def atariPalette (ws : List (BitVec 16)) : Palette :=
  if steDetected ws then ⟨4, ws.map steColor⟩ else ⟨3, ws.map stColor⟩

/-- The word of a 3-bit colour: direct pack, alpha not stored (R185). -/
def stWord (c : Color) : BitVec 16 :=
  (c.r.setWidth 16 <<< 8) ||| (c.g.setWidth 16 <<< 4) ||| c.b.setWidth 16

/-- The word of a 4-bit colour: inverse rotation of each channel, alpha not stored (R185). -/
def steWord (c : Color) : BitVec 16 :=
  ((inv (c.r.setWidth 4)).setWidth 16 <<< 8) ||| ((inv (c.g.setWidth 4)).setWidth 16 <<< 4) |||
    (inv (c.b.setWidth 4)).setWidth 16

/-- The colour words of a palette of depth 3 or 4 (R185). -/
def Palette.atariWords (P : Palette) : List (BitVec 16) :=
  P.ents.map (if P.bpc = 3 then stWord else steWord)

/-- `ATR.PARSE4 ra, rb, rc, rd` (R181): bits 31:12 of the word are ignored; r, g, b are written in this order. -/
def execAtrParse4 (ra rb rc rd : Reg) (s : State) : Host.Outcome State Fault Refusal :=
  let w := s.reg ra
  commit s (.ok (((s.setReg rb ((redNibble w).setWidth 32)).setReg rc ((greenNibble w).setWidth 32)).setReg rd
    ((blueNibble w).setWidth 32)))

/-- `ATR.PARSESTE ra, rb, rc, rd` (R182): as `ATR.PARSE4` with each nibble rotated. -/
def execAtrParseste (ra rb rc rd : Reg) (s : State) : Host.Outcome State Fault Refusal :=
  let w := s.reg ra
  commit s (.ok (((s.setReg rb ((rot (redNibble w)).setWidth 32)).setReg rc ((rot (greenNibble w)).setWidth 32)).setReg
    rd ((rot (blueNibble w)).setWidth 32)))

/-- `ATR.MKPAL p, ra, rb, rc` (R184). -/
def execAtrMkpal (p : SlotNo) (ra rb rc : Reg) (s : State) : Host.Outcome State Fault Refusal :=
  commit s do
    let k ← checkSlot p
    let base := s.reg ra
    let len := (s.reg rb).toNat
    let n := (s.reg rc).toNat
    require (n ≤ 256) ⟨.badLength, n⟩
    s.checkWindow base len
    require (2 * n ≤ len) ⟨.srcShort, 2 * n⟩
    .ok (s.setSlot k (atariPalette (s.mem.read16s base.toNat n)))

/-- `ATR.WRPAL p, ra, rb` (R185). -/
def execAtrWrpal (p : SlotNo) (ra rb : Reg) (s : State) : Host.Outcome State Fault Refusal :=
  commit s do
    let k ← checkSlot p
    let P ← s.readSlot k
    let base := s.reg ra
    let len := (s.reg rb).toNat
    require (P.bpc = 3 ∨ P.bpc = 4) ⟨.badBpcAtari, P.bpc⟩
    s.checkWindow base len
    require (2 * P.length ≤ len) ⟨.dstOverrun, 2 * P.length⟩
    .ok { s with mem := s.mem.writeBytes base.toNat (P.atariWords.flatMap bytes16) }

end Sys2Proof.Machine
end

