-- ==== Sys2Proof/Machine/Engine.lean ====
section
/-! DEFINITION. The bitplane addressing engine (43_bitplane.md R200 to R210). -/

namespace Sys2Proof.Machine

/-! ### Address generation and the cursor -/

/-- The offset `off(k)` of plane `k` into the window, in unbounded integers (R200). -/
def Bitplane.offset (e : Bitplane) (k : Nat) : Nat :=
  e.cur.byteInBlock.toNat + e.cur.blockIndex.toNat * e.conf.blockStride.toNat +
    e.cur.lineIndex.toNat * e.conf.lineStride.toNat + k * e.conf.planeStride.toNat

/-- The byte address of plane `k` at the cursor: `base + off(k)` (R200). -/
def Bitplane.address (e : Bitplane) (k : Nat) : Nat := e.conf.base.toNat + e.offset k

/-- `planeCount`. -/
def Bitplane.planes (e : Bitplane) : Nat := e.conf.planeCount.toNat

/-- The bounds check of every plane in ascending order: BoundsError(BPL_ADDR) for the lowest plane whose offset is
outside the window (R208, R209). -/
def Bitplane.checkPlanes (e : Bitplane) : Except Err Unit :=
  match (List.range e.planes).find? (fun k => e.conf.len.toNat ≤ e.offset k) with
  | none => .ok ()
  | some k => .error ⟨.bplAddr, min (e.offset k) (2 ^ 32 - 1)⟩

/-- One cursor-advance step, `step()` (R202). -/
def Bitplane.stepCursor (e : Bitplane) : Except Err Cursor :=
  let c := e.cur
  if c.bitIndex ≠ 7#3 then .ok { c with bitIndex := c.bitIndex + 1#3 }
  else if c.byteInBlock.toNat + 1 ≠ e.conf.bytesPerBlock.toNat then
    .ok { c with bitIndex := 0#3, byteInBlock := c.byteInBlock + 1#32 }
  else if c.blockIndex.toNat + 1 ≠ e.conf.blocksPerLine.toNat then
    .ok { c with bitIndex := 0#3, byteInBlock := 0#32, blockIndex := c.blockIndex + 1#32 }
  else if c.lineIndex.toNat = 2 ^ 32 - 1 then .error ⟨.bplLineOvf, 0⟩
  else .ok { bitIndex := 0#3, byteInBlock := 0#32, blockIndex := 0#32, lineIndex := c.lineIndex + 1#32 }

/-- The count `P` of pixels the cursor has passed since configuration (R202). -/
def Bitplane.pixelCount (e : Bitplane) : Nat :=
  ((e.cur.lineIndex.toNat * e.conf.blocksPerLine.toNat + e.cur.blockIndex.toNat) * e.conf.bytesPerBlock.toNat +
    e.cur.byteInBlock.toNat) * 8 + e.cur.bitIndex.toNat

/-- `n` steps of the cursor by the closed form of R202, which is what `BPL.ADV` is defined by (R210; log 8). -/
def Bitplane.advanceCursor (e : Bitplane) (n : Nat) : Except Err Cursor :=
  let P := e.pixelCount + n
  let bpb := e.conf.bytesPerBlock.toNat
  let bpln := e.conf.blocksPerLine.toNat
  let line := P / (8 * bpb * bpln)
  if 2 ^ 32 - 1 < line then .error ⟨.bplLineOvf, 0⟩
  else .ok {
    bitIndex := BitVec.ofNat 3 (P % 8)
    byteInBlock := BitVec.ofNat 32 ((P / 8) % bpb)
    blockIndex := BitVec.ofNat 32 ((P / (8 * bpb)) % bpln)
    lineIndex := BitVec.ofNat 32 line }

/-! ### Pixels -/

/-- Pixel `j` of the byte position whose plane bytes are `B 0, …, B (n−1)`: bit `7 − j` of plane `k` is bit `k` of the
index (R67, R208). -/
def pixelOf (n : Nat) (B : Nat → Byte) (j : Nat) : Nat :=
  ((List.range n).map fun k => (((B k).toNat >>> (7 - j)) % 2) <<< k).sum

/-- The eight indices decoded from the bytes at the cursor, one byte per plane (R208). -/
def Bitplane.decodeCache (e : Bitplane) (m : Memory) : Vector Byte 8 :=
  Vector.ofFn fun j => BitVec.ofNat 8 (pixelOf e.planes (fun k => m.read (e.address k)) j.val)

/-- The engine with its cache ready for the pixel at the cursor: refilled when `bitIndex = 0` or the cache is invalid,
after the bounds check of every plane (R208). -/
def Bitplane.fill (e : Bitplane) (m : Memory) : Except Err Bitplane :=
  if e.cur.bitIndex = 0#3 ∨ e.cacheValid = false then do
    e.checkPlanes
    .ok { e with cacheValid := true, cache := e.decodeCache m }
  else .ok e

/-- The index cached for the pixel at the cursor. -/
def Bitplane.cached (e : Bitplane) : Byte := e.cache[e.cur.bitIndex.toNat]'e.cur.bitIndex.isLt

/-- The stores of `BPL.WRITE`: for each of the first `n` planes in ascending order whose bit of `c` is 1, the pixel's
bit is ORed into the byte of that plane (R67, R209). -/
def Bitplane.orPixel (e : Bitplane) (c : Word) (n : Nat) (m : Memory) : Memory :=
  (List.range n).foldl (fun m k =>
    if c.getLsbD k then m.write (e.address k) (m.read (e.address k) ||| (0x80#8 >>> e.cur.bitIndex.toNat)) else m) m

/-! ### Configuration -/

/-- `configure(base, len, bpb, bstride, bpln, lstride, planes, pstride)`, every argument an unbounded integer (R204). -/
def State.configure (s : State) (base len : Word) (bpb bstride bpln lstride planes pstride : Nat) :
    Except Err State := do
  require (1 ≤ planes ∧ planes ≤ 8) ⟨.badGeometry, 0⟩
  require (bpb ≠ 0 ∧ bpln ≠ 0) ⟨.badGeometry, 0⟩
  require (bpb < 2 ^ 32 ∧ bstride < 2 ^ 32 ∧ bpln < 2 ^ 32 ∧ lstride < 2 ^ 32 ∧ pstride < 2 ^ 32) ⟨.badGeometry, 0⟩
  require (base.toNat + len.toNat ≤ s.memSize) ⟨.window, base.toNat⟩
  .ok { s with bpl := { s.bpl with
    cfg := true
    conf := {
      base := base
      len := len
      bytesPerBlock := BitVec.ofNat 32 bpb
      blockStride := BitVec.ofNat 32 bstride
      blocksPerLine := BitVec.ofNat 32 bpln
      lineStride := BitVec.ofNat 32 lstride
      planeCount := BitVec.ofNat 32 planes
      planeStride := BitVec.ofNat 32 pstride }
    cur := ⟨0#32, 0#32, 0#32, 0#3⟩
    cacheValid := false } }

/-- The operand checks of the three presets, planes before width: the width is a non-zero multiple of `unit` (R205 to R207). -/
def checkPreset (planes width unit : Nat) : Except Err Unit := do
  require (1 ≤ planes ∧ planes ≤ 8) ⟨.badGeometry, 0⟩
  require (width ≠ 0 ∧ width % unit = 0) ⟨.badGeometry, 0⟩

/-- `BPL.RAW ra` (R203): eight consecutive registers from `ra` (ra ≤ 8). -/
def execBplRaw (ra : Reg) (s : State) : Host.Outcome State Fault Refusal :=
  let x (j : Nat) : Word := s.reg (ra + BitVec.ofNat 4 j)
  commit s (s.configure (x 0) (x 1) (x 2).toNat (x 3).toNat (x 4).toNat (x 5).toNat (x 6).toNat (x 7).toNat)

/-- `BPL.CONTIG ra, rb, rc, rd, re` (R205). -/
def execBplContig (ra rb rc rd re : Reg) (s : State) : Host.Outcome State Fault Refusal :=
  let planes := (s.reg rc).toNat
  let width := (s.reg rd).toNat
  let height := (s.reg re).toNat
  commit s do
    checkPreset planes width 8
    let S := (width / 8) * height
    s.configure (s.reg ra) (s.reg rb) S 0 1 0 planes S

/-- `BPL.LINE ra, rb, rc, rd` (R206). -/
def execBplLine (ra rb rc rd : Reg) (s : State) : Host.Outcome State Fault Refusal :=
  let planes := (s.reg rc).toNat
  let width := (s.reg rd).toNat
  commit s do
    checkPreset planes width 16
    let B := width / 8
    s.configure (s.reg ra) (s.reg rb) B 0 1 (B * planes) planes B

/-- `BPL.WORD ra, rb, rc, rd` (R207): the width is checked and otherwise unused (C4). -/
def execBplWord (ra rb rc rd : Reg) (s : State) : Host.Outcome State Fault Refusal :=
  let planes := (s.reg rc).toNat
  let width := (s.reg rd).toNat
  commit s do
    checkPreset planes width 16
    s.configure (s.reg ra) (s.reg rb) 2 (planes * 2) 2 (planes * 4) planes 2

/-! ### Pixel access -/

/-- `UsageError(BPL_UNCONFIGURED, 0)` unless the engine has been configured (R208 to R210). -/
def Bitplane.checkConfigured (e : Bitplane) : Except Err Unit :=
  require (e.cfg = true) ⟨.bplUnconfigured, 0⟩

/-- `BPL.READ rd` (R208). -/
def execBplRead (rd : Reg) (s : State) : Host.Outcome State Fault Refusal :=
  commit s do
    s.bpl.checkConfigured
    let e ← s.bpl.fill s.mem
    let cur ← e.stepCursor
    .ok ({ s with bpl := { e with cur := cur } }.setReg rd (e.cached.setWidth 32))

/-- `BPL.WRITE ra` (R209): every check, that of the cursor step included, comes before the first store. -/
def execBplWrite (ra : Reg) (s : State) : Host.Outcome State Fault Refusal :=
  commit s do
    s.bpl.checkConfigured
    s.bpl.checkPlanes
    let cur ← s.bpl.stepCursor
    .ok { s with
      mem := s.bpl.orPixel (s.reg ra) s.bpl.planes s.mem
      bpl := { s.bpl with cacheValid := false, cur := cur } }

/-- `BPL.ADV ra` (R210): no memory access, no window check; a zero count changes nothing. -/
def execBplAdv (ra : Reg) (s : State) : Host.Outcome State Fault Refusal :=
  commit s do
    s.bpl.checkConfigured
    let n := (s.reg ra).toNat
    if n = 0 then .ok s
    else do
      let cur ← s.bpl.advanceCursor n
      .ok { s with bpl := { s.bpl with cacheValid := false, cur := cur } }

end Sys2Proof.Machine
end

