-- ==== Sys2Proof/Machine/Packbits.lean ====
section
/-! DEFINITION. The packbits run-length codec (44_packbits.md R240 to R246). -/

namespace Sys2Proof.Machine

/-- The decoding function `dec(S, N)` (R240, R241) from the rest `src` of the source, with `m` output bytes made
so far: the remaining output bytes, or the error with its count. One token is taken for each unit of `fuel`, and a
token takes at least one source byte, so `src.length + 1` units are always enough. -/
def unpackFrom : (fuel : Nat) → (src : List Byte) → (N m : Nat) → Except Err (List Byte)
  | 0, _, _, m => .error ⟨.srcUnderflow, m⟩
  | fuel + 1, src, N, m =>
    if N ≤ m then .ok []
    else
      match src with
      | [] => .error ⟨.srcUnderflow, m⟩
      | C :: rest =>
        if C.toInt = -128 then unpackFrom fuel rest N m
        else if C.toInt < 0 then
          match rest with
          | [] => .error ⟨.srcUnderflow, m⟩
          | v :: rest' =>
            let n := (1 - C.toInt).toNat
            if N < m + n then .error ⟨.dstOverrun, m⟩
            else do
              let out ← unpackFrom fuel rest' N (m + n)
              .ok (List.replicate n v ++ out)
        else
          let n := (1 + C.toInt).toNat
          if rest.length < n then .error ⟨.srcUnderflow, m⟩
          else if N < m + n then .error ⟨.dstOverrun, m⟩
          else do
            let out ← unpackFrom fuel (rest.drop n) N (m + n)
            .ok (rest.take n ++ out)

/-- `dec(S, N)` (R241). -/
def unpack (S : List Byte) (N : Nat) : Except Err (List Byte) := unpackFrom (S.length + 1) S N 0

/-- How many of the next bytes continue a run of `b`, at most `cap` (R244, the run case). -/
def runLength (b : Byte) : (cap : Nat) → List Byte → Nat
  | 0, _ => 0
  | _ + 1, [] => 0
  | cap + 1, c :: rest => if c = b then runLength b cap rest + 1 else 0

/-- How many of the next bytes continue a literal span, at most `cap`: the span ends before a pair of equal bytes
(R244, the literal case). -/
def spanLength : (cap : Nat) → List Byte → Nat
  | 0, _ => 0
  | _ + 1, [] => 0
  | _ + 1, [_] => 1
  | cap + 1, c :: d :: rest => if c = d then 0 else spanLength cap (d :: rest) + 1

/-- The encoding function `enc` (R244) of the rest of the source. One token is made for each unit of `fuel`, and a
token takes at least one source byte. -/
def packFrom : (fuel : Nat) → List Byte → List Byte
  | 0, _ => []
  | _ + 1, [] => []
  | _ + 1, [b] => [0x00#8, b]
  | fuel + 1, b :: c :: rest =>
    if b = c then
      let run := runLength b 126 rest + 2
      BitVec.ofInt 8 (1 - (run : Int)) :: b :: packFrom fuel ((b :: c :: rest).drop run)
    else
      let n := spanLength 127 (c :: rest) + 1
      BitVec.ofNat 8 (n - 1) :: ((b :: c :: rest).take n ++ packFrom fuel ((b :: c :: rest).drop n))

/-- `enc(S)` (R244). -/
def pack (S : List Byte) : List Byte := packFrom S.length S

/-- `PKB.DEC ra, rb, rc, rd` (R242): no register is written. -/
def execPkbDec (ra rb rc rd : Reg) (s : State) : Host.Outcome State Fault Refusal :=
  let src := s.reg ra
  let sl := (s.reg rb).toNat
  let dst := s.reg rc
  let N := (s.reg rd).toNat
  commit s do
    s.checkWindow src sl
    s.checkWindow dst N
    checkDisjoint src.toNat sl dst.toNat N
    let out ← unpack (s.mem.readBytes src.toNat sl) N
    .ok { s with mem := s.mem.writeBytes dst.toNat out }

/-- `PKB.ENC ra, rb, rc, rd, re` (R246). -/
def execPkbEnc (ra rb rc rd re : Reg) (s : State) : Host.Outcome State Fault Refusal :=
  let src := s.reg ra
  let sl := (s.reg rb).toNat
  let dst := s.reg rc
  let cap := (s.reg rd).toNat
  commit s do
    s.checkWindow src sl
    s.checkWindow dst cap
    checkDisjoint src.toNat sl dst.toNat cap
    let E := pack (s.mem.readBytes src.toNat sl)
    require (E.length ≤ cap) ⟨.dstOverrun, E.length⟩
    .ok ({ s with mem := s.mem.writeBytes dst.toNat E }.setReg re (BitVec.ofNat 32 E.length))

end Sys2Proof.Machine
end

