-- ==== Sys2Proof/Machine/Pixel.lean ====
section
/-! DEFINITION. The pixel adapter (45_pixel_adapters.md R260 to R265). -/

namespace Sys2Proof.Machine

/-- `buildLUT(P)`: the palette's colours at 8 bits per channel, packed with alpha (R260). -/
def Palette.buildLut (P : Palette) : List Word := P.toValues 8 true

/-- `UsageError(PIX_UNBOUND, 0)` unless the adapter has been bound (R262 to R265). -/
def Adapter.checkBound (x : Adapter) : Except Err Unit :=
  require (x.bound = true) ⟨.pixUnbound, 0⟩

/-- The address of the next pixel, `base + 4·pos` (R36). -/
def Adapter.address (x : Adapter) : Nat := x.base.toNat + 4 * x.pos.toNat

/-- The check that the next pixel lies in the window: `4·pos + 4 ≤ len`, else BoundsError(PIX_ADDR, pos) (R262, R263). -/
def Adapter.checkPixel (x : Adapter) : Except Err Unit :=
  require (4 * x.pos.toNat + 4 ≤ x.len.toNat) ⟨.pixAddr, x.pos.toNat⟩

/-- The smallest `i` with `lut[i] = v` (R262). -/
def lookup (lut : List Word) (v : Word) : Option Nat := lut.findIdx? (· == v)

/-- `PIX.BIND p, ra, rb` (R261): MEM is not accessed. -/
def execPixBind (p : SlotNo) (ra rb : Reg) (s : State) : Host.Outcome State Fault Refusal :=
  commit s do
    let k ← checkSlot p
    let P ← s.readSlot k
    s.checkWindow (s.reg ra) (s.reg rb).toNat
    .ok { s with pix := {
      bound := true
      base := s.reg ra
      len := s.reg rb
      pos := 0#32
      pal := BitVec.ofNat 2 k.val
      lut := P.buildLut } }

/-- `PIX.READ rd` (R262). -/
def execPixRead (rd : Reg) (s : State) : Host.Outcome State Fault Refusal :=
  commit s do
    s.pix.checkBound
    s.pix.checkPixel
    let v := s.mem.read32 s.pix.address
    match lookup s.pix.lut v with
    | none => .error ⟨.noMatch, v.toNat⟩
    | some i => .ok ({ s with pix := { s.pix with pos := s.pix.pos + 1#32 } }.setReg rd (BitVec.ofNat 32 i))

/-- `PIX.WRITE ra` (R263): the index is checked before the position. -/
def execPixWrite (ra : Reg) (s : State) : Host.Outcome State Fault Refusal :=
  commit s do
    s.pix.checkBound
    let i := (s.reg ra).toNat
    match s.pix.lut[i]? with
    | none => .error ⟨.badIndex, i⟩
    | some v => do
      s.pix.checkPixel
      .ok { s with
        mem := s.mem.writeBytes s.pix.address (bytes32 v)
        pix := { s.pix with pos := s.pix.pos + 1#32 } }

/-- `PIX.ADV ra` (R264): no memory access and no comparison with the window. -/
def execPixAdv (ra : Reg) (s : State) : Host.Outcome State Fault Refusal :=
  commit s do
    s.pix.checkBound
    require (s.pix.pos.toNat + (s.reg ra).toNat ≤ 2 ^ 32 - 1) ⟨.pixPosOvf, s.pix.pos.toNat⟩
    .ok { s with pix := { s.pix with pos := s.pix.pos + s.reg ra } }

/-- `PIX.SETPAL p` (R265): the window and the position keep their values. -/
def execPixSetpal (p : SlotNo) (s : State) : Host.Outcome State Fault Refusal :=
  commit s do
    s.pix.checkBound
    let k ← checkSlot p
    let P ← s.readSlot k
    .ok { s with pix := { s.pix with pal := BitVec.ofNat 2 k.val, lut := P.buildLut } }

end Sys2Proof.Machine
end

