-- ==== Sys2Proof/Machine/Flags.lean ====
section
/-! DEFINITION. The control registers as views of the state (R25 to R29). IBC has no flags: its only status bits are the fields of STATUS (R25, R27). -/

namespace Sys2Proof.Machine

/-- A flag at bit `k` of a word. -/
def flagBit (b : Bool) (k : Nat) : Word := if b then 1#32 <<< k else 0#32

/-- STATUS (R27): bit 0 HALT, bit 1 BPL_CFG, bit 2 PIX_BOUND, bit 3 zero, bits 7:4 PAL_ALLOC, the rest zero. -/
def State.status (s : State) : Word :=
  flagBit s.halt 0 ||| flagBit s.bpl.cfg 1 ||| flagBit s.pix.bound 2 ||| flagBit (s.slot 0).isSome 4 |||
    flagBit (s.slot 1).isSome 5 ||| flagBit (s.slot 2).isSome 6 ||| flagBit (s.slot 3).isSome 7

/-- The value of a control register by its number, `none` for a number that R26 does not list. -/
def State.controlRegister (s : State) (cr : BitVec 8) : Option Word :=
  match cr.toNat with
  | 0x00 => some s.status
  | 0x01 => some s.errcode
  | 0x02 => some s.errval
  | 0x03 => some s.seq
  | 0x10 => some s.bpl.conf.base
  | 0x11 => some s.bpl.conf.len
  | 0x12 => some s.bpl.conf.bytesPerBlock
  | 0x13 => some s.bpl.conf.blockStride
  | 0x14 => some s.bpl.conf.blocksPerLine
  | 0x15 => some s.bpl.conf.lineStride
  | 0x16 => some s.bpl.conf.planeCount
  | 0x17 => some s.bpl.conf.planeStride
  | 0x18 => some s.bpl.cur.byteInBlock
  | 0x19 => some s.bpl.cur.blockIndex
  | 0x1A => some s.bpl.cur.lineIndex
  | 0x1B => some (s.bpl.cur.bitIndex.setWidth 32)
  | 0x20 => some s.pix.base
  | 0x21 => some s.pix.len
  | 0x22 => some s.pix.pos
  | 0x23 => some (s.pix.pal.setWidth 32)
  | 0x24 => some (BitVec.ofNat 32 s.pix.lut.length)
  | _ => none

end Sys2Proof.Machine
end

