-- ==== Sys2Proof/Machine/System.lean ====
section
/-! DEFINITION. The system instructions (40_system.md R121 to R125). -/

namespace Sys2Proof.Machine

/-- `NOP` (R121): nothing but the step of SEQ. -/
def execNop (s : State) : Host.Outcome State Fault Refusal :=
  commit s (.ok s)

/-- `LI rd, imm20` (R122). -/
def execLi (rd : Reg) (imm20 : BitVec 20) (s : State) : Host.Outcome State Fault Refusal :=
  commit s (.ok (s.setReg rd (imm20.setWidth 32)))

/-- `LIH rd, imm12` (R123): bits 31:20 are replaced, bits 19:0 kept. -/
def execLih (rd : Reg) (imm12 : BitVec 12) (s : State) : Host.Outcome State Fault Refusal :=
  commit s (.ok (s.setReg rd ((imm12.setWidth 32 <<< 20) ||| (s.reg rd &&& 0x000FFFFF#32))))

/-- `CRR rd, cr` (R124): the value is the one before this instruction completes. -/
def execCrr (rd : Reg) (cr : BitVec 8) (s : State) : Host.Outcome State Fault Refusal :=
  commit s <|
    match s.controlRegister cr with
    | some v => .ok (s.setReg rd v)
    | none => .error ⟨.badCr, cr.toNat⟩

/-- `RESET` (R125, R311): it does not count itself, so SEQ is 0 afterwards. -/
def execReset (s : State) : Host.Outcome State Fault Refusal :=
  .next s.clear

end Sys2Proof.Machine
end

