-- ==== Sys2Proof/Machine/Dispatch.lean ====
section
/-! DEFINITION. One arm per instruction of R96. -/

namespace Sys2Proof.Machine

def exec (i : Instr) (s : State) : Host.Outcome State Fault Refusal :=
  match i with
  -- system (40_system.md)
  | .nop => Sys2Proof.Machine.execNop s
  | .li rd imm20 => Sys2Proof.Machine.execLi rd imm20 s
  | .lih rd imm12 => Sys2Proof.Machine.execLih rd imm12 s
  | .crr rd cr => Sys2Proof.Machine.execCrr rd cr s
  | .reset => Sys2Proof.Machine.execReset s
  -- palette unit (41_palette.md)
  | .palNew p ra rb => Sys2Proof.Machine.execPalNew p ra rb s
  | .palSet p ra rb rc rd re => Sys2Proof.Machine.execPalSet p ra rb rc rd re s
  | .palSetrgb p ra rb rc rd => Sys2Proof.Machine.execPalSetrgb p ra rb rc rd s
  | .palGet p ra rb rc rd re => Sys2Proof.Machine.execPalGet p ra rb rc rd re s
  | .palLen rd p => Sys2Proof.Machine.execPalLen rd p s
  | .palBpc rd p => Sys2Proof.Machine.execPalBpc rd p s
  | .palPlanes rd p => Sys2Proof.Machine.execPalPlanes rd p s
  | .palChkplanes p ra => Sys2Proof.Machine.execPalChkplanes p ra s
  | .palResample pd ps ra => Sys2Proof.Machine.execPalResample pd ps ra s
  | .palToval p ra rb bits1 alpha => Sys2Proof.Machine.execPalToval p ra rb bits1 alpha s
  | .palFromval p ra rb => Sys2Proof.Machine.execPalFromval p ra rb s
  | .palFromimg p ra rb => Sys2Proof.Machine.execPalFromimg p ra rb s
  -- Atari colour codec (42_atari_color.md)
  | .atrParse4 ra rb rc rd => Sys2Proof.Machine.execAtrParse4 ra rb rc rd s
  | .atrParseste ra rb rc rd => Sys2Proof.Machine.execAtrParseste ra rb rc rd s
  | .atrMkpal p ra rb rc => Sys2Proof.Machine.execAtrMkpal p ra rb rc s
  | .atrWrpal p ra rb => Sys2Proof.Machine.execAtrWrpal p ra rb s
  -- bitplane engine (43_bitplane.md)
  | .bplRaw ra => Sys2Proof.Machine.execBplRaw ra s
  | .bplContig ra rb rc rd re => Sys2Proof.Machine.execBplContig ra rb rc rd re s
  | .bplLine ra rb rc rd => Sys2Proof.Machine.execBplLine ra rb rc rd s
  | .bplWord ra rb rc rd => Sys2Proof.Machine.execBplWord ra rb rc rd s
  | .bplRead rd => Sys2Proof.Machine.execBplRead rd s
  | .bplWrite ra => Sys2Proof.Machine.execBplWrite ra s
  | .bplAdv ra => Sys2Proof.Machine.execBplAdv ra s
  -- packbits codec (44_packbits.md)
  | .pkbDec ra rb rc rd => Sys2Proof.Machine.execPkbDec ra rb rc rd s
  | .pkbEnc ra rb rc rd re => Sys2Proof.Machine.execPkbEnc ra rb rc rd re s
  -- pixel adapter (45_pixel_adapters.md)
  | .pixBind p ra rb => Sys2Proof.Machine.execPixBind p ra rb s
  | .pixRead rd => Sys2Proof.Machine.execPixRead rd s
  | .pixWrite ra => Sys2Proof.Machine.execPixWrite ra s
  | .pixAdv ra => Sys2Proof.Machine.execPixAdv ra s
  | .pixSetpal p => Sys2Proof.Machine.execPixSetpal p s

end Sys2Proof.Machine
end

