-- ==== Sys2Proof/Machine/Command.lean ====
section
/-! DEFINITION. The common execution step of a command word (40_system.md R120) and of the host's other actions (R70, R310). -/

namespace Sys2Proof.Machine

/-- A command word given by the host (R120): while halted every word but exactly `0x04000000` is discarded with no
state change (R292); an illegal word raises UsageError(ILLEGAL_ENCODING, w) (R97); any other word runs its instruction. -/
def runCommand (w : Word) (s : State) : Host.Outcome State Fault Refusal :=
  if s.halt = true then
    if w = 0x04000000#32 then exec .reset s else .next s
  else
    match decode w with
    | .ok i => exec i s
    | .error _ => .next (s.raise ⟨.illegalEncoding, w.toNat⟩)

/-- What one action of the host or the platform does to the state (R20, R70, R310). -/
def runAction (action : HostAction) (s : State) : Host.Outcome State Fault Refusal :=
  match action with
  | .command w => runCommand w s
  | .store a b => s.hostStore a b
  | .hardwareReset => .next s.hardwareReset

end Sys2Proof.Machine
end

