-- ==== Sys2Proof/Machine/Step.lean ====
section
/-! DEFINITION. One step: the oldest action that is pending. IBC has no program counter; the host's list stands in for a program (R24). -/

namespace Sys2Proof.Machine

/-- One step takes the oldest pending action; with none pending the core is idle and nothing changes (R312; log 6). -/
def step (s : State) : Host.Outcome State Fault Refusal :=
  match s.pending with
  | [] => .next s
  | action :: rest => runAction action { s with pending := rest }

/-- `s` with the command word of a row's bits issued so that it is the next one taken (log 5). -/
def State.withFetchWord (s : State) (nbits w : Nat) : State :=
  { s with pending := .command (tableWord nbits w) :: s.pending }

end Sys2Proof.Machine
end

