-- ==== Sys2Proof/Safety.lean ====
section
/-! DEFINITION. The terms in which claims are stated: how a command ends, what it leaves unchanged, and the invariant of the reachable states. -/

namespace Sys2Proof.Machine

/-! ### How a command ends -/

/-- The instruction enters the error state with this ERRCODE and ERRVAL and changes nothing else, SEQ included (R290, R291). -/
def Raises (i : Instr) (s : State) (code : Word) (val : Nat) : Prop :=
  exec i s = .next { s with halt := true, errcode := code, errval := BitVec.ofNat 32 val }

/-- The instruction completes: it answers a next state in which SEQ has stepped by 1 (R24), of which `post` holds. -/
def Completes (i : Instr) (s : State) (post : State → Prop) : Prop :=
  ∃ t, exec i s = .next t ∧ t.seq = s.seq + 1#32 ∧ post t

/-! ### Frames: what a command leaves unchanged -/

/-- Only the registers in `dests` and SEQ differ; every byte of MEM reads as before. -/
def OnlyRegs (s t : State) (dests : List Reg) : Prop :=
  (∀ r, r ∉ dests → t.reg r = s.reg r) ∧ (∀ a, t.mem.read a = s.mem.read a) ∧
    t = { s with regs := t.regs, seq := t.seq }

/-- Only the slot numbered `p` and SEQ differ; every byte of MEM reads as before. -/
def OnlySlot (s t : State) (p : SlotNo) : Prop :=
  (∀ k : Fin 4, k.val ≠ p.toNat → t.slot k = s.slot k) ∧ (∀ a, t.mem.read a = s.mem.read a) ∧
    t = { s with slots := t.slots, seq := t.seq }

/-- Only the `n` bytes of MEM from `lo` on, and SEQ, differ. -/
def OnlyBytes (s t : State) (lo n : Nat) : Prop :=
  (∀ a, a < lo ∨ lo + n ≤ a → t.mem.read a = s.mem.read a) ∧ t = { s with mem := t.mem, seq := t.seq }

/-- Only the bitplane engine, the registers in `dests` and SEQ differ; every byte of MEM reads as before, and the
engine's configuration stays. -/
def OnlyCursorAndRegs (s t : State) (dests : List Reg) : Prop :=
  (∀ r, r ∉ dests → t.reg r = s.reg r) ∧ (∀ a, t.mem.read a = s.mem.read a) ∧
    t.bpl.cfg = s.bpl.cfg ∧ t.bpl.conf = s.bpl.conf ∧
    t = { s with regs := t.regs, bpl := t.bpl, seq := t.seq }

/-- The palette in the slot that a slot field names, if the slot exists and is occupied (R30, R95). -/
def State.slotAt (s : State) (p : SlotNo) : Option Palette :=
  if h : p.toNat < 4 then s.slot ⟨p.toNat, h⟩ else none

/-! ### The engine's cursor -/

/-- The engine with its cursor at `c`. -/
def Bitplane.atCursor (e : Bitplane) (c : Cursor) : Bitplane := { e with cur := c }

/-- The cursor step overflows exactly at the last pixel of the last line (R202). -/
def Bitplane.AtLastPixel (e : Bitplane) : Prop :=
  e.cur.bitIndex = 7#3 ∧ e.cur.byteInBlock.toNat + 1 = e.conf.bytesPerBlock.toNat ∧
    e.cur.blockIndex.toNat + 1 = e.conf.blocksPerLine.toNat ∧ e.cur.lineIndex.toNat = 2 ^ 32 - 1

/-- The cursor is inside its block and its line (R34). -/
def Bitplane.CursorOk (e : Bitplane) : Prop :=
  e.cur.byteInBlock.toNat < e.conf.bytesPerBlock.toNat ∧ e.cur.blockIndex.toNat < e.conf.blocksPerLine.toNat

/-- `n` executions of the cursor-advance step, one after another (R202, R210). -/
def Bitplane.steps : Nat → Bitplane → Except Err Cursor
  | 0, e => .ok e.cur
  | n + 1, e => do
    let c ← e.stepCursor
    Bitplane.steps n (e.atCursor c)

/-- The next read decodes the bytes at the cursor: `bitIndex = 0` or the cache is invalid (R208). -/
def Bitplane.NeedsFill (e : Bitplane) : Prop := e.cur.bitIndex = 0#3 ∨ e.cacheValid = false

/-! ### The invariant -/

/-- Every channel lies in [0, 2^bpc − 1] (R31). -/
def Color.Ok (bpc : Nat) (c : Color) : Prop :=
  c.r.toNat ≤ 2 ^ bpc - 1 ∧ c.g.toNat ≤ 2 ^ bpc - 1 ∧ c.b.toNat ≤ 2 ^ bpc - 1 ∧ c.a.toNat ≤ 2 ^ bpc - 1

/-- Length 0 to 256, depth 1 to 8, channels in range (R10, R11, R30, R31). -/
def Palette.Ok (P : Palette) : Prop :=
  P.ents.length ≤ 256 ∧ 1 ≤ P.bpc ∧ P.bpc ≤ 8 ∧ ∀ c ∈ P.ents, c.Ok P.bpc

/-- The engine: all zero while unconfigured (R41); once configured, legal geometry, a window inside MEM, the cursor
inside its block and line, and cached indices of `planeCount` bits (R33 to R35). -/
def Bitplane.Ok (memSize : Nat) (e : Bitplane) : Prop :=
  (e.cfg = false → e.conf = Bitplane.reset.conf ∧ e.cur = Bitplane.reset.cur ∧ e.cacheValid = false) ∧
  (e.cfg = true →
    1 ≤ e.conf.bytesPerBlock.toNat ∧ 1 ≤ e.conf.blocksPerLine.toNat ∧
    1 ≤ e.conf.planeCount.toNat ∧ e.conf.planeCount.toNat ≤ 8 ∧
    e.conf.base.toNat + e.conf.len.toNat ≤ memSize ∧ e.CursorOk ∧
    (e.cacheValid = true → ∀ j, (h : j < 8) → (e.cache[j]).toNat < 2 ^ e.conf.planeCount.toNat))

/-- The adapter: all zero while unbound (R41); once bound, a window inside MEM and a LUT of at most 256 entries (R36, R37). -/
def Adapter.Ok (memSize : Nat) (x : Adapter) : Prop :=
  (x.bound = false → x = Adapter.reset) ∧
  (x.bound = true → x.base.toNat + x.len.toNat ≤ memSize ∧ x.lut.length ≤ 256)

/-- MEM is in canonical form and lists no address outside MEM (R60). -/
def Memory.Ok (memSize : Nat) (m : Memory) : Prop :=
  m.wf = true ∧ ∀ c ∈ m.cells, c.1 < memSize

/-- ERRCODE and ERRVAL are 0 while not halted (R28); while halted ERRCODE is the code of a tabled cause (R281 to R285). -/
def State.ErrorOk (s : State) : Prop :=
  (s.halt = false → s.errcode = 0#32 ∧ s.errval = 0#32) ∧ (s.halt = true → ∃ c : Cause, s.errcode = c.errcode)

/-- What holds of every state the machine reaches. -/
def State.Inv (s : State) : Prop :=
  s.ErrorOk ∧ s.mem.Ok s.memSize ∧ s.bpl.Ok s.memSize ∧ s.pix.Ok s.memSize ∧
    (∀ k P, s.slot k = some P → P.Ok)

end Sys2Proof.Machine
end

