-- ==== Sys2Proof/Certificates/Slice0/Obligations.lean ====
section
/-! DEFINITION. The statements for the provers, from the numbered rules of spec/. -/

namespace Sys2Proof.Machine

/-! ### The rules' own formulas, in numbers -/

/-- What register `r` holds after writes in listed order, the later one winning and `x0` discarding (R22, R23). -/
def State.regAfter (s : State) (writes : List (Reg × Word)) (r : Reg) : Word :=
  if r = 0#4 then 0#32 else ((writes.reverse.find? (fun w => w.1 = r)).map (·.2)).getD (s.reg r)

/-- `rs(c, ob, nb)` as R150 writes it. -/
def rescaled (c ob nb : Nat) : Nat := (2 * c * (2 ^ nb - 1) + (2 ^ ob - 1)) / (2 * (2 ^ ob - 1))

/-- The packed value of four channels (R151). -/
def packedValue (bits : Nat) (alpha : Bool) (r g b a : Nat) : Nat :=
  if alpha then r * 2 ^ (3 * bits) + g * 2 ^ (2 * bits) + b * 2 ^ bits + a
  else r * 2 ^ (2 * bits) + g * 2 ^ bits + b

/-- A colour as R152 unpacks it from four bytes in address order. -/
def colorAt (m : Memory) (a : Nat) : Color := ⟨m.read a, m.read (a + 1), m.read (a + 2), m.read (a + 3)⟩

/-- The packed 32-bit value of the pixel whose four bytes start at `a`: `R<<24 | G<<16 | B<<8 | A` (R65). -/
def pixelValue (m : Memory) (a : Nat) : Nat :=
  (m.read a).toNat * 2 ^ 24 + (m.read (a + 1)).toNat * 2 ^ 16 + (m.read (a + 2)).toNat * 2 ^ 8 + (m.read (a + 3)).toNat

/-- The big-endian 16-bit value at `a` (R64). -/
def wordValue (m : Memory) (a : Nat) : Nat := (m.read a).toNat * 256 + (m.read (a + 1)).toNat

/-- The red, green and blue nibbles of a colour word, at bit offsets 8, 4, 0 (R181). -/
def redOf (w : Nat) : Nat := w / 256 % 16
def greenOf (w : Nat) : Nat := w / 16 % 16
def blueOf (w : Nat) : Nat := w % 16

/-- `rot` and `inv` of R180 in numbers: bit 3 of a nibble goes to bit 0, and back. -/
def rotated (n : Nat) : Nat := 2 * (n % 8) + n / 8
def unrotated (c : Nat) : Nat := 8 * (c % 2) + c / 2

/-- Some colour nibble of the word has bit 3 set (R183). -/
def hasSteBit (w : Nat) : Prop := 8 ≤ redOf w ∨ 8 ≤ greenOf w ∨ 8 ≤ blueOf w

/-- Bit `7 − bitIndex` of plane `k`'s byte at the cursor, summed over the planes as `Σ_k bit << k` (R67, R208). -/
def pixelAt (e : Bitplane) (m : Memory) : Nat :=
  ((List.range e.planes).map fun k =>
    if (m.read (e.address k)).getLsbD (7 - e.cur.bitIndex.toNat) then 2 ^ k else 0).sum

/-- The registers, the slots, the engine, the adapter and MEM are as in the reset state, MEM apart (R41). -/
def State.AtResetButMem (t : State) : Prop :=
  (∀ r, t.reg r = 0#32) ∧ t.seq = 0#32 ∧ t.halt = false ∧ t.errcode = 0#32 ∧ t.errval = 0#32 ∧
  (∀ k, t.slot k = none) ∧ t.bpl.cfg = false ∧ t.bpl.cacheValid = false ∧ t.pix.bound = false ∧ t.pix.lut = [] ∧
  (∀ n v, t.controlRegister n = some v → v = 0#32)

/-! ### Configuration of the engine -/

/-- R204 for one instruction: BAD_GEOMETRY, then WINDOW, else the configuration is written, the cursor is at zero and
the cache invalid, and nothing but the engine changes. -/
def ConfiguresAs (i : Instr) (s : State) (base len : Word) (bpb bstride bpln lstride planes pstride : Nat) : Prop :=
  if planes < 1 ∨ 8 < planes ∨ bpb = 0 ∨ bpln = 0 ∨ 2 ^ 32 ≤ bpb ∨ 2 ^ 32 ≤ bstride ∨ 2 ^ 32 ≤ bpln ∨
      2 ^ 32 ≤ lstride ∨ 2 ^ 32 ≤ pstride then Raises i s 0x0703#32 0
  else if s.memSize < base.toNat + len.toNat then Raises i s 0x0101#32 base.toNat
  else Completes i s fun t =>
    t.bpl.cfg = true ∧ t.bpl.conf.base = base ∧ t.bpl.conf.len = len ∧
    t.bpl.conf.bytesPerBlock.toNat = bpb ∧ t.bpl.conf.blockStride.toNat = bstride ∧
    t.bpl.conf.blocksPerLine.toNat = bpln ∧ t.bpl.conf.lineStride.toNat = lstride ∧
    t.bpl.conf.planeCount.toNat = planes ∧ t.bpl.conf.planeStride.toNat = pstride ∧
    t.bpl.cur = ⟨0#32, 0#32, 0#32, 0#3⟩ ∧ t.bpl.cacheValid = false ∧
    (∀ a, t.mem.read a = s.mem.read a) ∧ t = { s with bpl := t.bpl, seq := t.seq }

/-! ### Which instructions write what -/

/-- The instructions that write general registers (R23). -/
def Writes.registers : Instr → Bool
  | .li .. | .lih .. | .crr .. | .palGet .. | .palLen .. | .palBpc .. | .palPlanes .. | .atrParse4 .. | .atrParseste ..
  | .bplRead .. | .pkbEnc .. | .pixRead .. => true
  | _ => false

/-- The instructions that write MEM (R61). -/
def Writes.memory : Instr → Bool
  | .palToval .. | .atrWrpal .. | .bplWrite .. | .pkbDec .. | .pkbEnc .. | .pixWrite .. => true
  | _ => false

/-- The instructions that replace a slot's whole palette (R30). -/
def Writes.wholePalette : Instr → Bool
  | .palNew .. | .palResample .. | .palFromval .. | .palFromimg .. | .atrMkpal .. => true
  | _ => false

/-- The instructions that change one entry of a palette (R30): the slot they name and the register that holds the
entry's index (R142, R143). -/
def Writes.oneEntry : Instr → Option (SlotNo × Reg)
  | .palSet p ra .. | .palSetrgb p ra .. => some (p, ra)
  | _ => none

/-- The four configuration instructions (R33). -/
def Writes.configuration : Instr → Bool
  | .bplRaw .. | .bplContig .. | .bplLine .. | .bplWord .. => true
  | _ => false

/-- The instructions that move the cursor by steps (R34). -/
def Writes.cursor : Instr → Bool
  | .bplRead .. | .bplWrite .. | .bplAdv .. => true
  | _ => false

/-! ### Packbits in terms of whole tokens -/

/-- `n` more output bytes before the rest of a decode: they come first in the output, and an error's count includes
them (R241). -/
def afterBytes (n : Nat) (out : List Byte) : Except Err (List Byte) → Except Err (List Byte)
  | .ok rest => .ok (out ++ rest)
  | .error e => .error ⟨e.cause, n + e.val⟩

/-- No two neighbours in the list are equal. -/
abbrev NoEqualNeighbours (l : List Byte) : Prop := ∀ i < l.length - 1, l[i]? ≠ l[i + 1]?

end Sys2Proof.Machine

open Sys2Proof Sys2Proof.Machine

/-! ## Encoding and the step -/

/-- Every bit of an encoding is read back: decoding the encoding of a well-formed instruction gives that instruction
(R91, R92, R95, R96, R99). -/
def Obligations.DecodeOfEncode : Prop :=
  ∀ i : Instr, i.WellFormed = true → decode (encode i) = .ok i

/-- Each word has one meaning: a word that decodes is the encoding of what it decodes to, which is well-formed (R99). -/
def Obligations.EncodeOfDecoded : Prop :=
  ∀ (w : Word) (i : Instr), decode w = .ok i → encode i = w ∧ i.WellFormed = true

/-- R97: executing a word that matches no row of R96, or `BPL.RAW` with ra > 8, enters the error state with
ILLEGAL_ENCODING and the word in ERRVAL, and changes nothing else. -/
def Obligations.IllegalWordRaises : Prop :=
  ∀ (w : Word) (s : State), s.halt = false →
    ((∀ row ∈ opRows, w &&& row.mask ≠ row.fixed) ∨ (w &&& 0xFF000000#32 = 0x30000000#32 ∧ 8 < (raField w).toNat)) →
    runCommand w s = .next { s with halt := true, errcode := 0x0105#32, errval := w }

/-- A step runs the decoded instruction: when the oldest pending action is a command word, the step executes that word
on the state with the action taken; and when the core is not halted and the word decodes to `i`, that is `exec i`. That
the host's commands stand in a list is the model's form of R24 (log 5). -/
def Obligations.StepRunsDecodedInstruction : Prop :=
  ∀ (w : Word) (rest : List HostAction) (s : State), s.pending = .command w :: rest →
    step s = runCommand w { s with pending := rest } ∧
    (∀ i, s.halt = false → decode w = .ok i → step s = exec i { s with pending := rest })

/-- Words of 95_test_vectors.md decode to the instructions they stand for. -/
def Obligations.SampleWordsDecode : Prop :=
  decode 0x02100ABC#32 = .ok (.lih 1 0xABC) ∧
  decode 0x11034560#32 = .ok (.palSet 0 0 3 4 5 6) ∧
  decode 0x19120020#32 = .ok (.palToval 0 1 2 2 false) ∧
  decode 0x18100012#32 = .ok (.palResample 2 1 1) ∧
  decode 0x20123400#32 = .ok (.atrParse4 1 2 3 4) ∧
  decode 0x31123450#32 = .ok (.bplContig 1 2 3 4 5) ∧
  decode 0x41123450#32 = .ok (.pkbEnc 1 2 3 4 5) ∧
  decode 0x509A0000#32 = .ok (.pixBind 0 9 10)

/-- R292: while halted every word other than exactly `0x04000000` is discarded with no state change at all; only the
host's list, which is the model's (log 5), moves on. -/
def Obligations.HaltedDiscardsCommands : Prop :=
  ∀ (w : Word) (rest : List HostAction) (s : State), s.halt = true → w ≠ 0x04000000#32 →
    s.pending = .command w :: rest → step s = .next { s with pending := rest }

/-- R125, R311: RESET, halted or not, puts every piece of state at its reset value, keeps MEM and does not count itself.
The host's list and its next entry are the model's (log 5). -/
def Obligations.ResetInstruction : Prop :=
  (∀ s : State, ∃ t, exec .reset s = .next t ∧ t.AtResetButMem ∧ t.mem = s.mem ∧ t.memTop = s.memTop) ∧
  (∀ (rest : List HostAction) (s : State), s.pending = .command 0x04000000#32 :: rest →
    ∃ t, step s = .next t ∧ t.AtResetButMem ∧ t.mem = s.mem ∧ t.pending = rest)

/-- R41, R310: the state right after hardware reset, and a hardware reset from any state, which also makes MEM
unspecified anew: the canonical contents of the next power-on, with nothing listed (the model's form of "unspecified",
log 4). That the reset is an entry of the host's list, lands between two commands and keeps MEM_SIZE and the actions
behind it in the list is the model's (logs 5 and 13). -/
def Obligations.HardwareResetState : Prop :=
  State.reset.AtResetButMem ∧ State.reset.mem.cells = [] ∧
  ∀ (rest : List HostAction) (s : State), s.pending = .hardwareReset :: rest →
    ∃ t, step s = .next t ∧ t.AtResetButMem ∧ t.mem = ⟨s.mem.powerOn.next, []⟩ ∧ t.pending = rest ∧ t.memTop = s.memTop

/-- R70, R292: between two commands, halted or not, the host writes any byte of MEM, and only that byte changes. The host's
list, from which the store is taken, is the model's (log 5). -/
def Obligations.HostWritesOneByte : Prop :=
  ∀ (a : Nat) (b : Byte) (rest : List HostAction) (s : State), s.pending = .store a b :: rest → a < s.memSize →
    ∃ t, step s = .next t ∧ t.mem.read a = b ∧ (∀ c, c ≠ a → t.mem.read c = s.mem.read c) ∧
      t = { s with mem := t.mem, pending := rest }

/-! ## System instructions -/

/-- R121, R122, R123: NOP, LI and LIH complete in every state; LI replaces the register by the zero-extended
immediate, LIH its bits 31:20, and `x0` discards; nothing else changes. -/
def Obligations.NopLiLihComplete : Prop :=
  ∀ s : State,
    Completes .nop s (fun t => OnlyRegs s t []) ∧
    (∀ rd imm20, Completes (.li rd imm20) s fun t =>
      (t.reg rd).toNat = (if rd = 0#4 then 0 else imm20.toNat) ∧ OnlyRegs s t [rd]) ∧
    (∀ rd imm12, Completes (.lih rd imm12) s fun t =>
      (t.reg rd).toNat = (if rd = 0#4 then 0 else imm12.toNat * 2 ^ 20 + (s.reg rd).toNat % 2 ^ 20) ∧
        OnlyRegs s t [rd])

/-- R26, R27, R124: CRR reads the control register of each number R26 lists, as it is before the instruction completes,
and raises BAD_CR for every other number; the bits of STATUS are those R27 names, and zero elsewhere. -/
def Obligations.CrrReadsControlRegisters : Prop :=
  ∀ (rd : Reg) (cr : BitVec 8) (s : State),
    let table : List (BitVec 8 × Word) := [
      (0x00, s.status), (0x01, s.errcode), (0x02, s.errval), (0x03, s.seq),
      (0x10, s.bpl.conf.base), (0x11, s.bpl.conf.len), (0x12, s.bpl.conf.bytesPerBlock), (0x13, s.bpl.conf.blockStride),
      (0x14, s.bpl.conf.blocksPerLine), (0x15, s.bpl.conf.lineStride), (0x16, s.bpl.conf.planeCount),
      (0x17, s.bpl.conf.planeStride), (0x18, s.bpl.cur.byteInBlock), (0x19, s.bpl.cur.blockIndex),
      (0x1A, s.bpl.cur.lineIndex), (0x1B, s.bpl.cur.bitIndex.setWidth 32),
      (0x20, s.pix.base), (0x21, s.pix.len), (0x22, s.pix.pos), (0x23, s.pix.pal.setWidth 32),
      (0x24, BitVec.ofNat 32 s.pix.lut.length)]
    (∀ v, (cr, v) ∈ table → Completes (.crr rd cr) s fun t =>
      t.reg rd = (if rd = 0#4 then 0#32 else v) ∧ OnlyRegs s t [rd]) ∧
    ((∀ v, (cr, v) ∉ table) → Raises (.crr rd cr) s 0x0605#32 cr.toNat) ∧
    (∀ n, s.status.getLsbD n =
      if n = 0 then s.halt else if n = 1 then s.bpl.cfg else if n = 2 then s.pix.bound
      else if h : 4 ≤ n ∧ n < 8 then (s.slot ⟨n - 4, by omega⟩).isSome else false)

/-! ## Palette unit -/

/-- R140: the slot checks of every instruction that names a slot. A number of 4 or more raises BAD_SLOT; reading an
empty slot raises SLOT_EMPTY; of two slot numbers the destination's is checked first. R265: PIX.SETPAL checks first
that the adapter is bound, so an unbound one raises PIX_UNBOUND whatever the slot number and the slot. -/
def Obligations.SlotChecksRaise : Prop :=
  ∀ (s : State) (p : SlotNo) (ra rb rc rd re : Reg) (bits1 : BitVec 3) (alpha : Bool),
    (4 ≤ p.toNat →
      (∀ i ∈ [Instr.palNew p ra rb, .palSet p ra rb rc rd re, .palSetrgb p ra rb rc rd, .palGet p ra rb rc rd re,
          .palLen rd p, .palBpc rd p, .palPlanes rd p, .palChkplanes p ra, .palToval p ra rb bits1 alpha,
          .palFromval p ra rb, .palFromimg p ra rb, .atrMkpal p ra rb rc, .atrWrpal p ra rb, .pixBind p ra rb],
        Raises i s 0x0205#32 p.toNat) ∧
      (∀ ps, Raises (.palResample p ps ra) s 0x0205#32 p.toNat) ∧
      (∀ pd : SlotNo, pd.toNat < 4 → Raises (.palResample pd p ra) s 0x0205#32 p.toNat) ∧
      (s.pix.bound = true → Raises (.pixSetpal p) s 0x0205#32 p.toNat)) ∧
    (p.toNat < 4 → s.slotAt p = none →
      (∀ i ∈ [Instr.palSet p ra rb rc rd re, .palSetrgb p ra rb rc rd, .palGet p ra rb rc rd re,
          .palLen rd p, .palBpc rd p, .palPlanes rd p, .palChkplanes p ra, .palToval p ra rb bits1 alpha,
          .atrWrpal p ra rb, .pixBind p ra rb],
        Raises i s 0x0305#32 p.toNat) ∧
      (∀ pd : SlotNo, pd.toNat < 4 → Raises (.palResample pd p ra) s 0x0305#32 p.toNat) ∧
      (s.pix.bound = true → Raises (.pixSetpal p) s 0x0305#32 p.toNat)) ∧
    (s.pix.bound = false → Raises (.pixSetpal p) s 0x0505#32 0)

/-- R141: PAL.NEW checks the depth, then the length, and makes a palette of that length and depth whose entries are
all the one colour PAL_INIT gives for the depth, which is in the depth's range (R13) and is otherwise free (log 3). -/
def Obligations.PalNewOutcome : Prop :=
  ∀ (p : SlotNo) (ra rb : Reg) (s : State), p.toNat < 4 →
    let length := (s.reg ra).toNat
    let bpc := (s.reg rb).toNat
    if bpc < 1 ∨ 8 < bpc then Raises (.palNew p ra rb) s 0x0403#32 bpc
    else if 256 < length then Raises (.palNew p ra rb) s 0x0503#32 length
    else Completes (.palNew p ra rb) s fun t =>
      t.slotAt p = some ⟨bpc, List.replicate length (palInit bpc)⟩ ∧ (palInit bpc).Ok bpc ∧ OnlySlot s t p

/-- R142, R143: PAL.SET and PAL.SETRGB raise BAD_INDEX at or past the length; else they store the signed operands
clamped into the depth's range in entry `i`, PAL.SETRGB with alpha at the maximum, and change nothing else. -/
def Obligations.PalSetOutcome : Prop :=
  ∀ (p : SlotNo) (ra rb rc rd re : Reg) (s : State) (P : Palette), s.slotAt p = some P → P.bpc ≤ 8 →
    let i := (s.reg ra).toNat
    let top : Int := 2 ^ P.bpc - 1
    if P.ents.length ≤ i then
      Raises (.palSet p ra rb rc rd re) s 0x0603#32 i ∧ Raises (.palSetrgb p ra rb rc rd) s 0x0603#32 i
    else
      ∃ c : Color, (c.r.toNat : Int) = max 0 (min (s.reg rb).toInt top) ∧
        (c.g.toNat : Int) = max 0 (min (s.reg rc).toInt top) ∧ (c.b.toNat : Int) = max 0 (min (s.reg rd).toInt top) ∧
        (c.a.toNat : Int) = max 0 (min (s.reg re).toInt top) ∧
        Completes (.palSet p ra rb rc rd re) s (fun t =>
          t.slotAt p = some ⟨P.bpc, P.ents.set i c⟩ ∧ OnlySlot s t p) ∧
        Completes (.palSetrgb p ra rb rc rd) s (fun t =>
          t.slotAt p = some ⟨P.bpc, P.ents.set i { c with a := BitVec.ofNat 8 (2 ^ P.bpc - 1) }⟩ ∧ OnlySlot s t p)

/-- R144: PAL.GET raises BAD_INDEX at or past the length; else r, g, b, a go to the four destinations in this order,
the index having been read first. -/
def Obligations.PalGetOutcome : Prop :=
  ∀ (p : SlotNo) (ra rb rc rd re : Reg) (s : State) (P : Palette), s.slotAt p = some P →
    let i := (s.reg ra).toNat
    (P.ents.length ≤ i → Raises (.palGet p ra rb rc rd re) s 0x0603#32 i) ∧
    (∀ c, P.ents[i]? = some c → Completes (.palGet p ra rb rc rd re) s fun t =>
      (∀ r, t.reg r = s.regAfter [(rb, c.r.setWidth 32), (rc, c.g.setWidth 32), (rd, c.b.setWidth 32),
        (re, c.a.setWidth 32)] r) ∧ OnlyRegs s t [rb, rc, rd, re])

/-- R145, R146: PAL.LEN and PAL.BPC return the length and the depth of an occupied slot. -/
def Obligations.PalLenBpcOutcome : Prop :=
  ∀ (p : SlotNo) (rd : Reg) (s : State) (P : Palette), s.slotAt p = some P →
    Completes (.palLen rd p) s (fun t =>
      t.reg rd = (if rd = 0#4 then 0#32 else BitVec.ofNat 32 P.ents.length) ∧ OnlyRegs s t [rd]) ∧
    Completes (.palBpc rd p) s (fun t =>
      t.reg rd = (if rd = 0#4 then 0#32 else BitVec.ofNat 32 P.bpc) ∧ OnlyRegs s t [rd])

/-- R147: PAL.PLANES returns the `n` with `2^n = length`, and raises NOT_POW2 when there is none. -/
def Obligations.PalPlanesOutcome : Prop :=
  ∀ (p : SlotNo) (rd : Reg) (s : State) (P : Palette), s.slotAt p = some P →
    (∀ n, P.ents.length = 2 ^ n → Completes (.palPlanes rd p) s fun t =>
      t.reg rd = (if rd = 0#4 then 0#32 else BitVec.ofNat 32 n) ∧ OnlyRegs s t [rd]) ∧
    ((∀ n, P.ents.length ≠ 2 ^ n) → Raises (.palPlanes rd p) s 0x0103#32 P.ents.length)

/-- R148: PAL.CHKPLANES raises TOO_MANY_COLORS when the length is more than 2 to the plane count, in unbounded
integers, and else writes nothing. -/
def Obligations.PalChkplanesOutcome : Prop :=
  ∀ (p : SlotNo) (ra : Reg) (s : State) (P : Palette), s.slotAt p = some P →
    (2 ^ (s.reg ra).toNat < P.ents.length → Raises (.palChkplanes p ra) s 0x0203#32 P.ents.length) ∧
    (P.ents.length ≤ 2 ^ (s.reg ra).toNat → Completes (.palChkplanes p ra) s fun t => OnlyRegs s t [])

/-- R149: PAL.RESAMPLE raises BAD_BPC outside 1 to 8; else the destination slot holds a palette of the same length at
the new depth, every channel of every entry scaled by the formula of R150; a source in another slot is unchanged, and
`pd = ps` replaces it. -/
def Obligations.PalResampleOutcome : Prop :=
  ∀ (pd ps : SlotNo) (ra : Reg) (s : State) (P : Palette), pd.toNat < 4 → s.slotAt ps = some P → P.Ok →
    let nb := (s.reg ra).toNat
    if nb < 1 ∨ 8 < nb then Raises (.palResample pd ps ra) s 0x0403#32 nb
    else Completes (.palResample pd ps ra) s fun t =>
      ∃ Q : Palette, t.slotAt pd = some Q ∧ Q.bpc = nb ∧ Q.ents.length = P.ents.length ∧ Q.Ok ∧
        (∀ (i : Nat) (c d : Color), P.ents[i]? = some c → Q.ents[i]? = some d →
          d.r.toNat = rescaled c.r.toNat P.bpc nb ∧ d.g.toNat = rescaled c.g.toNat P.bpc nb ∧
          d.b.toNat = rescaled c.b.toNat P.bpc nb ∧ d.a.toNat = rescaled c.a.toNat P.bpc nb) ∧
        OnlySlot s t pd

/-- R150: the scaling formula; its value is `c·max(nb)/max(ob)` rounded to the nearest integer, a tie rounding up, and
it is in the new range, so that the clamp never acts. -/
def Obligations.RescaleRoundsHalfUp : Prop :=
  ∀ c ob nb : Nat, 1 ≤ ob → 1 ≤ nb → c ≤ 2 ^ ob - 1 →
    let x := 2 * (c * (2 ^ nb - 1))
    let y := 2 * (rs c ob nb * (2 ^ ob - 1))
    rs c ob nb = rescaled c ob nb ∧ y ≤ x + (2 ^ ob - 1) ∧ x < y + (2 ^ ob - 1) ∧ rs c ob nb ≤ 2 ^ nb - 1

/-- R155: resampling up and back down is the identity: on every channel, and so on every palette. Down and back up it
is not. -/
def Obligations.ResampleUpAndDown : Prop :=
  (∀ ob nb c : Nat, 1 ≤ ob → ob ≤ nb → nb ≤ 8 → c ≤ 2 ^ ob - 1 → rs (rs c ob nb) nb ob = c) ∧
  (∀ (P : Palette) (nb : Nat), P.Ok → P.bpc ≤ nb → nb ≤ 8 → (P.resample nb).resample P.bpc = P) ∧
  (∃ ob nb c : Nat, 1 ≤ nb ∧ nb < ob ∧ ob ≤ 8 ∧ c ≤ 2 ^ ob - 1 ∧ rs (rs c ob nb) nb ob ≠ c)

/-- R151: PAL.TOVAL checks the window, then the capacity; else word `i` of the destination, big-endian, is entry `i`
brought to depth `bits` and packed, the bytes past `4·length` are not written, and the slot does not change. -/
def Obligations.PalTovalOutcome : Prop :=
  ∀ (p : SlotNo) (ra rb : Reg) (bits1 : BitVec 3) (alpha : Bool) (s : State) (P : Palette),
    s.slotAt p = some P → P.Ok →
    let dst := (s.reg ra).toNat
    let cap := (s.reg rb).toNat
    let bits := bits1.toNat + 1
    if s.memSize < dst + cap then Raises (.palToval p ra rb bits1 alpha) s 0x0101#32 dst
    else if cap < 4 * P.ents.length then Raises (.palToval p ra rb bits1 alpha) s 0x0501#32 (4 * P.ents.length)
    else Completes (.palToval p ra rb bits1 alpha) s fun t =>
      (∀ i c, P.ents[i]? = some c → pixelValue t.mem (dst + 4 * i) =
        packedValue bits alpha (rescaled c.r.toNat P.bpc bits) (rescaled c.g.toNat P.bpc bits)
          (rescaled c.b.toNat P.bpc bits) (rescaled c.a.toNat P.bpc bits)) ∧
      OnlyBytes s t dst (4 * P.ents.length)

/-- R152: PAL.FROMVAL checks the count, then the window; else the slot holds an 8-bit palette whose entry `i` is the
big-endian word `i` unpacked as R, G, B, A. -/
def Obligations.PalFromvalOutcome : Prop :=
  ∀ (p : SlotNo) (ra rb : Reg) (s : State), p.toNat < 4 →
    let src := (s.reg ra).toNat
    let n := (s.reg rb).toNat
    if 256 < n then Raises (.palFromval p ra rb) s 0x0503#32 n
    else if s.memSize < src + 4 * n then Raises (.palFromval p ra rb) s 0x0101#32 src
    else Completes (.palFromval p ra rb) s fun t =>
      t.slotAt p = some ⟨8, (List.range n).map fun i => colorAt s.mem (src + 4 * i)⟩ ∧ OnlySlot s t p

/-- R153: PAL.FROMIMG checks the window, then that the length is a multiple of 4; then the slot holds an 8-bit palette
of the distinct pixels in first-seen order, or, if there are more than 256, TOO_MANY_COLORS is raised with the number
of the pixel that holds the 257th. -/
def Obligations.PalFromimgOutcome : Prop :=
  ∀ (p : SlotNo) (ra rb : Reg) (s : State), p.toNat < 4 →
    let src := (s.reg ra).toNat
    let len := (s.reg rb).toNat
    let pixels := (List.range (len / 4)).map fun j => colorAt s.mem (src + 4 * j)
    if s.memSize < src + len then Raises (.palFromimg p ra rb) s 0x0101#32 src
    else if len % 4 ≠ 0 then Raises (.palFromimg p ra rb) s 0x0801#32 len
    else if pixels.eraseDups.length ≤ 256 then
      Completes (.palFromimg p ra rb) s fun t => t.slotAt p = some ⟨8, pixels.eraseDups⟩ ∧ OnlySlot s t p
    else ∃ j, (pixels.take j).eraseDups.length = 256 ∧ (pixels.take (j + 1)).eraseDups.length = 257 ∧
      Raises (.palFromimg p ra rb) s 0x0203#32 j

/-- R154: for an 8-bit palette, PAL.TOVAL at 8 bits with alpha followed by PAL.FROMVAL of its length from the same
address makes the other slot hold the same palette, entry for entry. -/
def Obligations.ValueArrayRoundTrip : Prop :=
  ∀ (p p2 : SlotNo) (ra rb xn : Reg) (s t : State) (P : Palette), s.slotAt p = some P → P.Ok → P.bpc = 8 →
    p2.toNat < 4 → (s.reg xn).toNat = P.ents.length → 4 * P.ents.length ≤ (s.reg rb).toNat →
    (s.reg ra).toNat + (s.reg rb).toNat ≤ s.memSize →
    exec (.palToval p ra rb 7#3 true) s = .next t →
    Completes (.palFromval p2 ra xn) t fun u => u.slotAt p2 = some P ∧ OnlySlot t u p2

/-! ## Atari colour codec -/

/-- R181, R182: ATR.PARSE4 and ATR.PARSESTE complete in every state: the nibbles at bit offsets 8, 4, 0 of the word,
plain or rotated, go to the three destinations in this order. -/
def Obligations.AtrParseComplete : Prop :=
  ∀ (ra rb rc rd : Reg) (s : State),
    let w := (s.reg ra).toNat
    Completes (.atrParse4 ra rb rc rd) s (fun t =>
      (∀ r, t.reg r = s.regAfter [(rb, BitVec.ofNat 32 (redOf w)), (rc, BitVec.ofNat 32 (greenOf w)),
        (rd, BitVec.ofNat 32 (blueOf w))] r) ∧ OnlyRegs s t [rb, rc, rd]) ∧
    Completes (.atrParseste ra rb rc rd) s (fun t =>
      (∀ r, t.reg r = s.regAfter [(rb, BitVec.ofNat 32 (rotated (redOf w))),
        (rc, BitVec.ofNat 32 (rotated (greenOf w))), (rd, BitVec.ofNat 32 (rotated (blueOf w)))] r) ∧
      OnlyRegs s t [rb, rc, rd])

/-- R183, R184: ATR.MKPAL checks the count, the window and the source length; then, by whether any of the `n` words has
bit 3 of a colour nibble set, the slot holds a 4-bit palette of rotated nibbles with alpha 15, or a 3-bit palette of
plain nibbles with alpha 7. -/
def Obligations.AtrMkpalOutcome : Prop :=
  ∀ (p : SlotNo) (ra rb rc : Reg) (s : State), p.toNat < 4 →
    let base := (s.reg ra).toNat
    let len := (s.reg rb).toNat
    let n := (s.reg rc).toNat
    let w (i : Nat) := wordValue s.mem (base + 2 * i)
    if 256 < n then Raises (.atrMkpal p ra rb rc) s 0x0503#32 n
    else if s.memSize < base + len then Raises (.atrMkpal p ra rb rc) s 0x0101#32 base
    else if len < 2 * n then Raises (.atrMkpal p ra rb rc) s 0x0801#32 (2 * n)
    else Completes (.atrMkpal p ra rb rc) s fun t =>
      ∃ Q : Palette, t.slotAt p = some Q ∧ Q.ents.length = n ∧ OnlySlot s t p ∧
        ((∃ i < n, hasSteBit (w i)) → Q.bpc = 4 ∧ ∀ i c, Q.ents[i]? = some c →
          c.r.toNat = rotated (redOf (w i)) ∧ c.g.toNat = rotated (greenOf (w i)) ∧
          c.b.toNat = rotated (blueOf (w i)) ∧ c.a.toNat = 15) ∧
        ((∀ i < n, ¬ hasSteBit (w i)) → Q.bpc = 3 ∧ ∀ i c, Q.ents[i]? = some c →
          c.r.toNat = redOf (w i) ∧ c.g.toNat = greenOf (w i) ∧ c.b.toNat = blueOf (w i) ∧ c.a.toNat = 7)

/-- R185: ATR.WRPAL checks the depth, the window and the capacity; else word `i` of the destination, big-endian, is
entry `i` packed, its channels inverse-rotated at depth 4; alpha is not stored, bits 15:12 are 0 and the bytes past
`2·length` are not written. -/
def Obligations.AtrWrpalOutcome : Prop :=
  ∀ (p : SlotNo) (ra rb : Reg) (s : State) (P : Palette), s.slotAt p = some P → P.Ok →
    let base := (s.reg ra).toNat
    let len := (s.reg rb).toNat
    if P.bpc ≠ 3 ∧ P.bpc ≠ 4 then Raises (.atrWrpal p ra rb) s 0x0303#32 P.bpc
    else if s.memSize < base + len then Raises (.atrWrpal p ra rb) s 0x0101#32 base
    else if len < 2 * P.ents.length then Raises (.atrWrpal p ra rb) s 0x0501#32 (2 * P.ents.length)
    else Completes (.atrWrpal p ra rb) s fun t =>
      (∀ i c, P.ents[i]? = some c → wordValue t.mem (base + 2 * i) =
        if P.bpc = 3 then c.r.toNat * 256 + c.g.toNat * 16 + c.b.toNat
        else unrotated c.r.toNat * 256 + unrotated c.g.toNat * 16 + unrotated c.b.toNat) ∧
      OnlyBytes s t base (2 * P.ents.length)

/-- R186: a palette written by ATR.WRPAL and read back by ATR.MKPAL with `colors = length`. A 3-bit palette, and a
4-bit palette with some odd r, g or b channel, comes back with the same depth, r, g, b and alpha at the maximum; a
4-bit palette whose r, g, b channels are all even comes back as a 3-bit palette with every channel halved. -/
def Obligations.AtariRoundTrip : Prop :=
  ∀ (p p2 : SlotNo) (ra rb rc : Reg) (s t : State) (P : Palette), s.slotAt p = some P → P.Ok →
    (P.bpc = 3 ∨ P.bpc = 4) → p2.toNat < 4 → (s.reg rc).toNat = P.ents.length →
    2 * P.ents.length ≤ (s.reg rb).toNat → (s.reg ra).toNat + (s.reg rb).toNat ≤ s.memSize →
    exec (.atrWrpal p ra rb) s = .next t →
    let odd := ∃ c ∈ P.ents, c.r.toNat % 2 = 1 ∨ c.g.toNat % 2 = 1 ∨ c.b.toNat % 2 = 1
    (P.bpc = 3 → Completes (.atrMkpal p2 ra rb rc) t fun u =>
      u.slotAt p2 = some ⟨3, P.ents.map fun c => { c with a := 7#8 }⟩) ∧
    (P.bpc = 4 → odd → Completes (.atrMkpal p2 ra rb rc) t fun u =>
      u.slotAt p2 = some ⟨4, P.ents.map fun c => { c with a := 15#8 }⟩) ∧
    (P.bpc = 4 → ¬ odd → Completes (.atrMkpal p2 ra rb rc) t fun u =>
      u.slotAt p2 = some ⟨3, P.ents.map fun c =>
        ⟨BitVec.ofNat 8 (c.r.toNat / 2), BitVec.ofNat 8 (c.g.toNat / 2), BitVec.ofNat 8 (c.b.toNat / 2), 7#8⟩⟩)

/-! ## Bitplane engine -/

/-- R203, R204: BPL.RAW configures from eight consecutive registers (ra ≤ 8, which is what an encoding admits). -/
def Obligations.BplRawConfigures : Prop :=
  ∀ (ra : Reg) (s : State), ra.toNat ≤ 8 →
    let x (j : Nat) := s.reg (BitVec.ofNat 4 (ra.toNat + j))
    ConfiguresAs (.bplRaw ra) s (x 0) (x 1) (x 2).toNat (x 3).toNat (x 4).toNat (x 5).toNat (x 6).toNat (x 7).toNat

/-- R205, R206, R207: the three presets check planes, then width, and then configure with the parameters of the preset
table. -/
def Obligations.PresetsConfigure : Prop :=
  ∀ (ra rb rc rd re : Reg) (s : State),
    let base := s.reg ra
    let len := s.reg rb
    let planes := (s.reg rc).toNat
    let width := (s.reg rd).toNat
    let S := (width / 8) * (s.reg re).toNat
    let B := width / 8
    (if planes < 1 ∨ 8 < planes ∨ width = 0 ∨ width % 8 ≠ 0 then Raises (.bplContig ra rb rc rd re) s 0x0703#32 0
      else ConfiguresAs (.bplContig ra rb rc rd re) s base len S 0 1 0 planes S) ∧
    (if planes < 1 ∨ 8 < planes ∨ width = 0 ∨ width % 16 ≠ 0 then
      Raises (.bplLine ra rb rc rd) s 0x0703#32 0 ∧ Raises (.bplWord ra rb rc rd) s 0x0703#32 0
    else
      ConfiguresAs (.bplLine ra rb rc rd) s base len B 0 1 (B * planes) planes B ∧
      ConfiguresAs (.bplWord ra rb rc rd) s base len 2 (planes * 2) 2 (planes * 4) planes 2)

/-- R205, R206, R207: where pixel number `n` of plane `k` lies after a preset has configured the engine and the cursor
has advanced by `n`: the offset, and the bit, in the three layouts. -/
def Obligations.PresetAddressing : Prop :=
  ∀ (ra rb rc rd re : Reg) (s t : State) (n : Nat) (c : Cursor) (k : Nat), t.halt = false →
    t.bpl.advanceCursor n = .ok c →
    let planes := (s.reg rc).toNat
    let width := (s.reg rd).toNat
    let S := (width / 8) * (s.reg re).toNat
    let off := (t.bpl.atCursor c).offset k
    (exec (.bplContig ra rb rc rd re) s = .next t → n < 8 * S → off = k * S + n / 8 ∧ c.bitIndex.toNat = n % 8) ∧
    (exec (.bplLine ra rb rc rd) s = .next t →
      off = n / width * (width / 8 * planes) + k * (width / 8) + n % width / 8 ∧ c.bitIndex.toNat = n % width % 8) ∧
    (exec (.bplWord ra rb rc rd) s = .next t →
      off = n / 16 * (2 * planes) + 2 * k + n / 8 % 2 ∧ c.bitIndex.toNat = n % 8)

/-- R202: the closed form is `n` single steps: from a cursor inside its block and line, advancing by `n` gives the
cursor of `n` executions of the step one after another, and fails exactly when one of them does. -/
def Obligations.AdvanceIsRepeatedStep : Prop :=
  ∀ (n : Nat) (e : Bitplane), e.CursorOk → e.advanceCursor n = Bitplane.steps n e

/-- R202: the cursor-advance step, wrap by wrap. -/
def Obligations.CursorStepRule : Prop :=
  ∀ e : Bitplane, e.CursorOk →
    let c := e.cur
    if c.bitIndex.toNat < 7 then
      ∃ d, e.stepCursor = .ok d ∧ d = { c with bitIndex := d.bitIndex } ∧ d.bitIndex.toNat = c.bitIndex.toNat + 1
    else if c.byteInBlock.toNat + 1 < e.conf.bytesPerBlock.toNat then
      ∃ d, e.stepCursor = .ok d ∧ d = { c with bitIndex := 0#3, byteInBlock := d.byteInBlock } ∧
        d.byteInBlock.toNat = c.byteInBlock.toNat + 1
    else if c.blockIndex.toNat + 1 < e.conf.blocksPerLine.toNat then
      ∃ d, e.stepCursor = .ok d ∧ d = { c with bitIndex := 0#3, byteInBlock := 0#32, blockIndex := d.blockIndex } ∧
        d.blockIndex.toNat = c.blockIndex.toNat + 1
    else if c.lineIndex.toNat < 2 ^ 32 - 1 then
      ∃ d, e.stepCursor = .ok d ∧ d = ⟨0#32, 0#32, d.lineIndex, 0#3⟩ ∧ d.lineIndex.toNat = c.lineIndex.toNat + 1
    else e.stepCursor = .error ⟨.bplLineOvf, 0⟩

/-- R208: BPL.READ. Unconfigured it raises; when it must fill, the lowest plane whose offset is outside the window
raises BPL_ADDR; the step past the last line raises; else it returns the pixel at the cursor (decoded from MEM when it
fills, from the cache when it does not), steps the cursor and leaves a valid cache. -/
def Obligations.BplReadOutcome : Prop :=
  ∀ (rd : Reg) (s : State),
    let e := s.bpl
    let i := Instr.bplRead rd
    (e.cfg = false → Raises i s 0x0405#32 0) ∧
    (e.cfg = true → e.NeedsFill → ∀ k < e.planes, e.conf.len.toNat ≤ e.offset k →
      (∀ j < k, e.offset j < e.conf.len.toNat) → Raises i s 0x0201#32 (min (e.offset k) (2 ^ 32 - 1))) ∧
    (e.cfg = true → (e.NeedsFill → ∀ k < e.planes, e.offset k < e.conf.len.toNat) →
      (e.AtLastPixel → Raises i s 0x0301#32 0) ∧
      (¬ e.AtLastPixel → e.planes ≤ 8 → Completes i s fun t =>
        (t.reg rd).toNat = (if rd = 0#4 then 0 else if e.cur.bitIndex = 0#3 ∨ e.cacheValid = false then pixelAt e s.mem
          else e.cached.toNat) ∧
        t.bpl.cacheValid = true ∧ e.stepCursor = .ok t.bpl.cur ∧
        (e.NeedsFill → ∀ b : BitVec 3,
          ((t.bpl.atCursor { e.cur with bitIndex := b }).cached).toNat =
            pixelAt (e.atCursor { e.cur with bitIndex := b }) s.mem) ∧
        (¬ e.NeedsFill → t.bpl.cache = e.cache) ∧ OnlyCursorAndRegs s t [rd]))

/-- R209: BPL.WRITE. Unconfigured it raises; every plane's offset is checked; the step past the last line raises; else
bit `7 − bitIndex` of plane `k`'s byte is ORed with bit `k` of the index, no other bit and no other byte changes, the
cursor steps and the cache is invalid. -/
def Obligations.BplWriteOutcome : Prop :=
  ∀ (ra : Reg) (s : State),
    let e := s.bpl
    let i := Instr.bplWrite ra
    let c := s.reg ra
    (e.cfg = false → Raises i s 0x0405#32 0) ∧
    (e.cfg = true → ∀ k < e.planes, e.conf.len.toNat ≤ e.offset k →
      (∀ j < k, e.offset j < e.conf.len.toNat) → Raises i s 0x0201#32 (min (e.offset k) (2 ^ 32 - 1))) ∧
    (e.cfg = true → (∀ k < e.planes, e.offset k < e.conf.len.toNat) →
      (e.AtLastPixel → Raises i s 0x0301#32 0) ∧
      (¬ e.AtLastPixel → Completes i s fun t =>
        (∀ a b, b < 8 → ((t.mem.read a).getLsbD b = true ↔ (s.mem.read a).getLsbD b = true ∨
          (b = 7 - e.cur.bitIndex.toNat ∧ ∃ k < e.planes, a = e.address k ∧ c.getLsbD k = true))) ∧
        (∀ a, (∀ k < e.planes, a ≠ e.address k) → t.mem.read a = s.mem.read a) ∧
        t.bpl.cacheValid = false ∧ e.stepCursor = .ok t.bpl.cur ∧ t.bpl.cfg = e.cfg ∧ t.bpl.conf = e.conf ∧
        t = { s with mem := t.mem, bpl := t.bpl, seq := t.seq }))

/-- R210: BPL.ADV. Unconfigured it raises; a zero count changes nothing, the cache stays valid; else the cursor takes
`n` steps, or BPL_LINE_OVF is raised when one of them would overflow, and the cache is invalid. -/
def Obligations.BplAdvOutcome : Prop :=
  ∀ (ra : Reg) (s : State),
    let e := s.bpl
    let n := (s.reg ra).toNat
    let i := Instr.bplAdv ra
    (e.cfg = false → Raises i s 0x0405#32 0) ∧
    (e.cfg = true → n = 0 → Completes i s fun t => t.bpl = e ∧ OnlyCursorAndRegs s t []) ∧
    (e.cfg = true → e.CursorOk → 0 < n →
      (∀ x, Bitplane.steps n e = .error x → Raises i s 0x0301#32 0) ∧
      (∀ c, Bitplane.steps n e = .ok c → Completes i s fun t =>
        t.bpl.cur = c ∧ t.bpl.cacheValid = false ∧ OnlyCursorAndRegs s t []))

/-- R211 for one pixel: into zero bits, at plane bytes that are inside the window and pairwise distinct, BPL.WRITE of an
index and then BPL.READ with the cursor put back returns the index, as wide as the plane count. -/
def Obligations.WriteThenReadPixel : Prop :=
  ∀ (ra rd : Reg) (s t : State), s.bpl.cfg = true → s.bpl.planes ≤ 8 → ¬ s.bpl.AtLastPixel →
    (∀ k < s.bpl.planes, s.bpl.offset k < s.bpl.conf.len.toNat) →
    (∀ j k, j < k → k < s.bpl.planes → s.bpl.address j ≠ s.bpl.address k) →
    (∀ k < s.bpl.planes, (s.mem.read (s.bpl.address k)).getLsbD (7 - s.bpl.cur.bitIndex.toNat) = false) →
    rd ≠ 0#4 → exec (.bplWrite ra) s = .next t →
    Completes (.bplRead rd) { t with bpl := t.bpl.atCursor s.bpl.cur } fun u =>
      (u.reg rd).toNat = (s.reg ra).toNat % 2 ^ s.bpl.planes

/-! ## Packbits -/

/-- R242: PKB.DEC checks the source window, the destination window and the overlap; then, if the stream decodes, the
outSize bytes are in the destination and nothing else changes; if not, SRC_UNDERFLOW or DST_OVERRUN is raised with the
count of bytes produced before the failing token, and nothing is written. -/
def Obligations.PkbDecOutcome : Prop :=
  ∀ (ra rb rc rd : Reg) (s : State),
    let src := (s.reg ra).toNat
    let sl := (s.reg rb).toNat
    let dst := (s.reg rc).toNat
    let N := (s.reg rd).toNat
    let i := Instr.pkbDec ra rb rc rd
    let S := (List.range sl).map fun j => s.mem.read (src + j)
    if s.memSize < src + sl then Raises i s 0x0101#32 src
    else if s.memSize < dst + N then Raises i s 0x0101#32 dst
    else if 0 < sl ∧ 0 < N ∧ src < dst + N ∧ dst < src + sl then Raises i s 0x0705#32 0
    else
      (∀ x, unpack S N = .error x →
        (x.cause = .srcUnderflow ∧ Raises i s 0x0401#32 x.val) ∨ (x.cause = .dstOverrun ∧ Raises i s 0x0501#32 x.val)) ∧
      (∀ out, unpack S N = .ok out → out.length = N ∧ Completes i s fun t =>
        (∀ j b, out[j]? = some b → t.mem.read (dst + j) = b) ∧ OnlyBytes s t dst N)

/-- R246: PKB.ENC checks the source window, the destination window, the overlap and the capacity; else the encoded
stream is in the destination, its length in the result register, and nothing else changes. -/
def Obligations.PkbEncOutcome : Prop :=
  ∀ (ra rb rc rd re : Reg) (s : State),
    let src := (s.reg ra).toNat
    let sl := (s.reg rb).toNat
    let dst := (s.reg rc).toNat
    let cap := (s.reg rd).toNat
    let i := Instr.pkbEnc ra rb rc rd re
    let E := pack ((List.range sl).map fun j => s.mem.read (src + j))
    if s.memSize < src + sl then Raises i s 0x0101#32 src
    else if s.memSize < dst + cap then Raises i s 0x0101#32 dst
    else if 0 < sl ∧ 0 < cap ∧ src < dst + cap ∧ dst < src + sl then Raises i s 0x0705#32 0
    else if cap < E.length then Raises i s 0x0501#32 E.length
    else Completes i s fun t =>
      t.reg re = (if re = 0#4 then 0#32 else BitVec.ofNat 32 E.length) ∧ (∀ r, r ≠ re → t.reg r = s.reg r) ∧
      (∀ j b, E[j]? = some b → t.mem.read (dst + j) = b) ∧
      (∀ a, a < dst ∨ dst + E.length ≤ a → t.mem.read a = s.mem.read a) ∧
      t = { s with regs := t.regs, mem := t.mem, seq := t.seq }

/-- R240, R241: decoding token by token. -/
def Obligations.UnpackTokens : Prop :=
  (∀ S, unpack S 0 = .ok []) ∧
  (∀ N, 0 < N → unpack [] N = .error ⟨.srcUnderflow, 0⟩) ∧
  (∀ S N, 0 < N → unpack (0x80#8 :: S) N = unpack S N) ∧
  (∀ (C : Byte) S N, 0 < N → 0x81 ≤ C.toNat →
    let n := 257 - C.toNat
    (S = [] → unpack (C :: S) N = .error ⟨.srcUnderflow, 0⟩) ∧
    (∀ v rest, S = v :: rest → N < n → unpack (C :: S) N = .error ⟨.dstOverrun, 0⟩) ∧
    (∀ v rest, S = v :: rest → n ≤ N → unpack (C :: S) N = afterBytes n (List.replicate n v) (unpack rest (N - n)))) ∧
  (∀ (C : Byte) S N, 0 < N → C.toNat ≤ 0x7F →
    let n := C.toNat + 1
    (S.length < n → unpack (C :: S) N = .error ⟨.srcUnderflow, 0⟩) ∧
    (n ≤ S.length → N < n → unpack (C :: S) N = .error ⟨.dstOverrun, 0⟩) ∧
    (n ≤ S.length → n ≤ N → unpack (C :: S) N = afterBytes n (S.take n) (unpack (S.drop n) (N - n))))

/-- R244: encoding token by token: a final single byte; a run, maximal but at most 128 bytes; a literal span, ended by
its 128th byte, by the end of the input or by a pair of equal bytes. -/
def Obligations.PackTokens : Prop :=
  pack [] = [] ∧
  (∀ b, pack [b] = [0x00#8, b]) ∧
  (∀ (b : Byte) (n : Nat) (rest : List Byte), 2 ≤ n → n ≤ 128 → (n = 128 ∨ rest.head? ≠ some b) →
    pack (List.replicate n b ++ rest) = BitVec.ofNat 8 (257 - n) :: b :: pack rest) ∧
  (∀ lit rest : List Byte, 1 ≤ lit.length → lit.length ≤ 128 → NoEqualNeighbours (lit ++ rest.take 1) →
    (lit.length = 128 ∨ rest = [] ∨ ∃ b tail, rest = b :: b :: tail) →
    pack (lit ++ rest) = BitVec.ofNat 8 (lit.length - 1) :: (lit ++ pack rest))

/-- R245 (a): the round trip, for every byte sequence. -/
def Obligations.UnpackOfPack : Prop :=
  ∀ S : List Byte, unpack (pack S) S.length = .ok S

/-- R245 (c): the size of an encoded stream. -/
def Obligations.PackSize : Prop :=
  ∀ S : List Byte, (pack S).length ≤ 4 * S.length / 3 + 1 ∧ (pack S).length ≤ 2 * S.length

/-- R242, R245, R246: whatever PKB.ENC encoded from a source window, PKB.DEC decodes from the bytes it wrote, with the
length it returned, into any window that the encoded bytes do not touch: it then holds the source bytes. The
length register is none that the decode reads for another operand, and not `x0`, which would lose the length. -/
def Obligations.EncodeThenDecodeInMemory : Prop :=
  ∀ (ra rb rc rd re rx : Reg) (s t : State), re ∉ [rb, rc, rx] → re ≠ 0#4 →
    exec (.pkbEnc ra rb rc rd re) s = .next t → t.halt = false →
    let src := (s.reg ra).toNat
    let sl := (s.reg rb).toNat
    let dst := (s.reg rc).toNat
    let out := (s.reg rx).toNat
    out + sl ≤ s.memSize →
    (out + sl ≤ dst ∨ dst + (t.reg re).toNat ≤ out) →
    Completes (.pkbDec rc re rx rb) t fun u => ∀ j < sl, u.mem.read (out + j) = s.mem.read (src + j)

/-! ## Pixel adapter -/

/-- R260, R261, R265: PIX.BIND checks the window and binds at position 0; PIX.SETPAL needs a bound adapter and keeps
window and position; both rebuild the LUT as the slot's colours at 8 bits per channel, packed with alpha. -/
def Obligations.PixBindSetpalOutcome : Prop :=
  ∀ (p : SlotNo) (ra rb : Reg) (s : State) (P : Palette), s.slotAt p = some P → P.Ok →
    let lutOf (t : State) := t.pix.lut.length = P.ents.length ∧ ∀ (i : Nat) (c : Color) (v : Word), P.ents[i]? = some c → t.pix.lut[i]? = some v →
      v.toNat = packedValue 8 true (rescaled c.r.toNat P.bpc 8) (rescaled c.g.toNat P.bpc 8)
        (rescaled c.b.toNat P.bpc 8) (rescaled c.a.toNat P.bpc 8)
    let frame (t : State) := (∀ a, t.mem.read a = s.mem.read a) ∧ t = { s with pix := t.pix, seq := t.seq }
    (if s.memSize < (s.reg ra).toNat + (s.reg rb).toNat then Raises (.pixBind p ra rb) s 0x0101#32 (s.reg ra).toNat
      else Completes (.pixBind p ra rb) s fun t =>
        t.pix.bound = true ∧ t.pix.base = s.reg ra ∧ t.pix.len = s.reg rb ∧ t.pix.pos = 0#32 ∧
        t.pix.pal.toNat = p.toNat ∧ lutOf t ∧ frame t) ∧
    (if s.pix.bound = false then Raises (.pixSetpal p) s 0x0505#32 0
      else Completes (.pixSetpal p) s fun t =>
        t.pix.bound = true ∧ t.pix.base = s.pix.base ∧ t.pix.len = s.pix.len ∧ t.pix.pos = s.pix.pos ∧
        t.pix.pal.toNat = p.toNat ∧ lutOf t ∧ frame t)

/-- R262: PIX.READ. Unbound it raises; a pixel not wholly inside the window raises PIX_ADDR; a value in no LUT entry
raises NO_MATCH with the value; else it returns the smallest index that holds the value and the position steps. -/
def Obligations.PixReadOutcome : Prop :=
  ∀ (rd : Reg) (s : State),
    let x := s.pix
    let i := Instr.pixRead rd
    let v := pixelValue s.mem (x.base.toNat + 4 * x.pos.toNat)
    (x.bound = false → Raises i s 0x0505#32 0) ∧
    (x.bound = true → x.len.toNat < 4 * x.pos.toNat + 4 → Raises i s 0x0601#32 x.pos.toNat) ∧
    (x.bound = true → 4 * x.pos.toNat + 4 ≤ x.len.toNat →
      ((∀ w ∈ x.lut, w.toNat ≠ v) → Raises i s 0x0002#32 v) ∧
      (∀ n w, x.lut[n]? = some w → w.toNat = v → (∀ m w', m < n → x.lut[m]? = some w' → w'.toNat ≠ v) →
        Completes i s fun t =>
          t.reg rd = (if rd = 0#4 then 0#32 else BitVec.ofNat 32 n) ∧ (∀ r, r ≠ rd → t.reg r = s.reg r) ∧
          t.pix = { x with pos := t.pix.pos } ∧ t.pix.pos.toNat = x.pos.toNat + 1 ∧
          (∀ a, t.mem.read a = s.mem.read a) ∧ t = { s with regs := t.regs, pix := t.pix, seq := t.seq }))

/-- R263: PIX.WRITE. Unbound it raises; an index at or past the LUT's length raises BAD_INDEX, before a pixel outside
the window raises PIX_ADDR; else the four bytes of the pixel are the LUT entry, R first, and the position steps. -/
def Obligations.PixWriteOutcome : Prop :=
  ∀ (ra : Reg) (s : State),
    let x := s.pix
    let i := Instr.pixWrite ra
    let n := (s.reg ra).toNat
    let at0 := x.base.toNat + 4 * x.pos.toNat
    (x.bound = false → Raises i s 0x0505#32 0) ∧
    (x.bound = true → x.lut.length ≤ n → Raises i s 0x0603#32 n) ∧
    (x.bound = true → n < x.lut.length → x.len.toNat < 4 * x.pos.toNat + 4 → Raises i s 0x0601#32 x.pos.toNat) ∧
    (x.bound = true → 4 * x.pos.toNat + 4 ≤ x.len.toNat → ∀ v, x.lut[n]? = some v →
      Completes i s fun t =>
        pixelValue t.mem at0 = v.toNat ∧
        (∀ a, a < at0 ∨ at0 + 4 ≤ a → t.mem.read a = s.mem.read a) ∧
        t.pix = { x with pos := t.pix.pos } ∧ t.pix.pos.toNat = x.pos.toNat + 1 ∧
        t = { s with mem := t.mem, pix := t.pix, seq := t.seq })

/-- R264: PIX.ADV. Unbound it raises; a position past 2^32 − 1 raises PIX_POS_OVF; else only the position moves. -/
def Obligations.PixAdvOutcome : Prop :=
  ∀ (ra : Reg) (s : State),
    let x := s.pix
    let n := (s.reg ra).toNat
    if x.bound = false then Raises (.pixAdv ra) s 0x0505#32 0
    else if 2 ^ 32 - 1 < x.pos.toNat + n then Raises (.pixAdv ra) s 0x0701#32 x.pos.toNat
    else Completes (.pixAdv ra) s fun t =>
      t.pix = { x with pos := t.pix.pos } ∧ t.pix.pos.toNat = x.pos.toNat + n ∧
      (∀ a, t.mem.read a = s.mem.read a) ∧ t = { s with pix := t.pix, seq := t.seq }

/-- R266 at one position: where PIX.WRITE put index `i`, PIX.READ at the same position returns the lowest index that
holds the same colour, which is `i` when the LUT's entries are pairwise different. -/
def Obligations.PixWriteThenRead : Prop :=
  ∀ (ra rd : Reg) (s t : State), s.pix.bound = true → (s.reg ra).toNat < s.pix.lut.length →
    4 * s.pix.pos.toNat + 4 ≤ s.pix.len.toNat → rd ≠ 0#4 →
    exec (.pixWrite ra) s = .next t →
    Completes (.pixRead rd) { t with pix := s.pix } fun u =>
      s.pix.lut[(u.reg rd).toNat]? = s.pix.lut[(s.reg ra).toNat]? ∧
      (∀ m < (u.reg rd).toNat, s.pix.lut[m]? ≠ s.pix.lut[(s.reg ra).toNat]?) ∧
      (s.pix.lut.Nodup → u.reg rd = s.reg ra)

/-! ## The whole machine -/

/-- Every step keeps the invariant: MEM stays in canonical form and inside MEM_SIZE, every palette's channels stay in
range, the engine's geometry, window and cursor stay legal, the adapter's window stays inside MEM, and the error
registers agree with HALT (R28, R31, R33, R34, R36, R60). -/
def Obligations.StepKeepsInv : Prop :=
  ∀ s t : State, s.Inv → step s = .next t → t.Inv

/-- The invariant holds after hardware reset (R41). -/
def Obligations.ResetHasInv : Prop :=
  State.reset.Inv

/-- R290, R291: a command that enters the error state changes HALT, ERRCODE and ERRVAL and nothing else. -/
def Obligations.ErrorsLeaveNoTrace : Prop :=
  ∀ (i : Instr) (s t : State), s.halt = false → exec i s = .next t → t.halt = true →
    t = { s with halt := true, errcode := t.errcode, errval := t.errval } ∧ ∃ c : Cause, t.errcode = c.errcode

/-- R24: SEQ steps by exactly 1 when a command completes, stays when it raises, and is 0 after RESET. -/
def Obligations.SeqCountsCompletedCommands : Prop :=
  ∀ (i : Instr) (s t : State), s.halt = false → exec i s = .next t →
    (i = .reset → t.seq = 0#32) ∧ (i ≠ .reset → t.halt = false → t.seq.toNat = (s.seq.toNat + 1) % 2 ^ 32) ∧
    (t.halt = true → t.seq = s.seq)

/-- R297: every command terminates in a next state: no instruction faults or is refused in any state, and a step stops
only where the host stores outside MEM, which is the model's choice (log 9). -/
def Obligations.EveryCommandAnswers : Prop :=
  (∀ (i : Instr) (s : State), ∃ t, exec i s = .next t) ∧
  (∀ s : State, (∀ a b rest, s.pending = .store a b :: rest → a < s.memSize) → ∃ t, step s = .next t)

/-- R23: the twelve listed instructions write general registers; every other instruction but RESET only reads them. -/
def Obligations.RegisterWriters : Prop :=
  ∀ (i : Instr) (s t : State), i ≠ .reset → Writes.registers i = false → exec i s = .next t →
    ∀ r, t.reg r = s.reg r

/-- R61: only six instructions write MEM, and every other leaves every byte as it was. -/
def Obligations.MemoryWriters : Prop :=
  ∀ (i : Instr) (s t : State), Writes.memory i = false → exec i s = .next t → ∀ a, t.mem.read a = s.mem.read a

/-- R30: a slot's length and depth change only when an instruction replaces its whole palette; PAL.SET and PAL.SETRGB
change at most the entry that the index register numbers, of the slot they name; every other instruction but RESET
changes no slot. -/
def Obligations.SlotWriters : Prop :=
  ∀ (i : Instr) (s t : State), i ≠ .reset → Writes.wholePalette i = false → exec i s = .next t →
    (Writes.oneEntry i = none → ∀ k, t.slot k = s.slot k) ∧
    (∀ p ra, Writes.oneEntry i = some (p, ra) →
      (∀ k : Fin 4, k.val ≠ p.toNat → t.slot k = s.slot k) ∧
      (∀ k m, m ≠ (s.reg ra).toNat → (t.slot k).bind (·.ents[m]?) = (s.slot k).bind (·.ents[m]?))) ∧
    (∀ k, (t.slot k).map (fun P => (P.bpc, P.ents.length)) = (s.slot k).map (fun P => (P.bpc, P.ents.length)))

/-- R33, R34, R35, R78: the configuration is written only by the four configuration instructions; the cursor by these
and by BPL.READ, BPL.WRITE and BPL.ADV; the cache contents only by BPL.READ; and an instruction that leaves the cache
valid found it valid or was BPL.READ. R37, R78: the LUT, the pixel window and the bound slot are written only by
PIX.BIND and PIX.SETPAL, so a palette changed afterwards does not reach the LUT (RESET apart in all of these). -/
def Obligations.EngineAndAdapterWriters : Prop :=
  ∀ (i : Instr) (s t : State), i ≠ .reset → exec i s = .next t →
    (Writes.configuration i = false → t.bpl.cfg = s.bpl.cfg ∧ t.bpl.conf = s.bpl.conf) ∧
    (Writes.configuration i = false → Writes.cursor i = false → t.bpl = s.bpl) ∧
    ((∀ rd, i ≠ .bplRead rd) → t.bpl.cache = s.bpl.cache ∧ (t.bpl.cacheValid = true → s.bpl.cacheValid = true)) ∧
    (t.halt = false → Writes.configuration i = true → t.bpl.cacheValid = false ∧ t.bpl.cur = ⟨0#32, 0#32, 0#32, 0#3⟩) ∧
    ((∀ p ra rb, i ≠ .pixBind p ra rb) → t.pix.bound = s.pix.bound ∧ t.pix.base = s.pix.base ∧ t.pix.len = s.pix.len ∧
      ((∀ p, i ≠ .pixSetpal p) → t.pix.lut = s.pix.lut ∧ t.pix.pal = s.pix.pal))
end

