-- ==== Sys2Proof/Laws/Decode.lean ====
section
/-! SUPPORT. The fields of an encoded word read back, and how the fixed bits of a row are read from a word's fields. -/

namespace Sys2Proof

/-! ### Fields of a masked word -/

theorem opField_and (v w : Word) : opField (v &&& w) = opField v &&& opField w := by
  simp [opField, BitVec.extractLsb'_and]
theorem raField_and (v w : Word) : raField (v &&& w) = raField v &&& raField w := by
  simp [raField, BitVec.extractLsb'_and]
theorem rbField_and (v w : Word) : rbField (v &&& w) = rbField v &&& rbField w := by
  simp [rbField, BitVec.extractLsb'_and]
theorem rcField_and (v w : Word) : rcField (v &&& w) = rcField v &&& rcField w := by
  simp [rcField, BitVec.extractLsb'_and]
theorem rdField_and (v w : Word) : rdField (v &&& w) = rdField v &&& rdField w := by
  simp [rdField, BitVec.extractLsb'_and]
theorem qField_and (v w : Word) : qField (v &&& w) = qField v &&& qField w := by
  simp [qField, BitVec.extractLsb'_and]
theorem pField_and (v w : Word) : pField (v &&& w) = pField v &&& pField w := by
  simp [pField, BitVec.extractLsb'_and]
theorem imm20Field_and (v w : Word) : imm20Field (v &&& w) = imm20Field v &&& imm20Field w := by
  simp [imm20Field, BitVec.extractLsb'_and]

/-! ### Format R -/

section
variable (op : BitVec 8) (ra rb rc rd q p : BitVec 4)

@[simp] theorem opField_formatR : opField (formatR op ra rb rc rd q p) = op := by
  ext i hi; interval_cases i <;> simp [opField, formatR]
@[simp] theorem raField_formatR : raField (formatR op ra rb rc rd q p) = ra := by
  ext i hi; interval_cases i <;> simp [raField, formatR]
@[simp] theorem rbField_formatR : rbField (formatR op ra rb rc rd q p) = rb := by
  ext i hi; interval_cases i <;> simp [rbField, formatR]
@[simp] theorem rcField_formatR : rcField (formatR op ra rb rc rd q p) = rc := by
  ext i hi; interval_cases i <;> simp [rcField, formatR]
@[simp] theorem rdField_formatR : rdField (formatR op ra rb rc rd q p) = rd := by
  ext i hi; interval_cases i <;> simp [rdField, formatR]
@[simp] theorem qField_formatR : qField (formatR op ra rb rc rd q p) = q := by
  ext i hi; interval_cases i <;> simp [qField, formatR]
@[simp] theorem pField_formatR : pField (formatR op ra rb rc rd q p) = p := by
  ext i hi; interval_cases i <;> simp [pField, formatR]

end

/-- A word is the format R word of its fields. -/
theorem formatR_fields (w : Word) :
    formatR (opField w) (raField w) (rbField w) (rcField w) (rdField w) (qField w) (pField w) = w := by
  ext i hi
  interval_cases i <;> simp [formatR, opField, raField, rbField, rcField, rdField, qField, pField]

/-- The bitwise and of two words of format R, field by field. -/
theorem formatR_and (op op' : BitVec 8) (ra rb rc rd q p ra' rb' rc' rd' q' p' : BitVec 4) :
    formatR op ra rb rc rd q p &&& formatR op' ra' rb' rc' rd' q' p' =
      formatR (op &&& op') (ra &&& ra') (rb &&& rb') (rc &&& rc') (rd &&& rd') (q &&& q') (p &&& p') := by
  rw [← formatR_fields (_ &&& _)]
  simp only [opField_and, raField_and, rbField_and, rcField_and, rdField_and, qField_and, pField_and, opField_formatR,
    raField_formatR, rbField_formatR, rcField_formatR, rdField_formatR, qField_formatR, pField_formatR]

/-- A word of format R under a mask, field by field. -/
theorem formatR_and_mask (op : BitVec 8) (ra rb rc rd q p : BitVec 4) (m : Word) :
    formatR op ra rb rc rd q p &&& m =
      formatR (op &&& opField m) (ra &&& raField m) (rb &&& rbField m) (rc &&& rcField m) (rd &&& rdField m)
        (q &&& qField m) (p &&& pField m) := by
  conv_lhs => rw [← formatR_fields m]
  exact formatR_and ..

/-! ### Format I -/

section
variable (op : BitVec 8) (rd : BitVec 4) (imm20 : BitVec 20)

@[simp] theorem opField_formatI : opField (formatI op rd imm20) = op := by
  ext i hi; interval_cases i <;> simp [opField, formatI]
@[simp] theorem raField_formatI : raField (formatI op rd imm20) = rd := by
  ext i hi; interval_cases i <;> simp [raField, formatI]
@[simp] theorem imm20Field_formatI : imm20Field (formatI op rd imm20) = imm20 := by
  ext i hi; interval_cases i <;> simp [imm20Field, formatI]
@[simp] theorem imm12Field_formatI (imm12 : BitVec 12) : imm12Field (formatI op rd (imm12.setWidth 20)) = imm12 := by
  ext i hi; interval_cases i <;> simp [imm12Field, formatI]
@[simp] theorem crField_formatI (cr : BitVec 8) : crField (formatI op rd (cr.setWidth 20)) = cr := by
  ext i hi; interval_cases i <;> simp [crField, formatI]

end

/-- A word is the format I word of its fields. -/
theorem formatI_fields (w : Word) : formatI (opField w) (raField w) (imm20Field w) = w := by
  ext i hi
  interval_cases i <;> simp [formatI, opField, raField, imm20Field]

/-- The bitwise and of two words of format I, field by field. -/
theorem formatI_and (op op' : BitVec 8) (rd rd' : BitVec 4) (imm20 imm20' : BitVec 20) :
    formatI op rd imm20 &&& formatI op' rd' imm20' = formatI (op &&& op') (rd &&& rd') (imm20 &&& imm20') := by
  rw [← formatI_fields (_ &&& _)]
  simp only [opField_and, raField_and, imm20Field_and, opField_formatI, raField_formatI, imm20Field_formatI]

/-- A word of format I under a mask, field by field. -/
theorem formatI_and_mask (op : BitVec 8) (rd : BitVec 4) (imm20 : BitVec 20) (m : Word) :
    formatI op rd imm20 &&& m = formatI (op &&& opField m) (rd &&& raField m) (imm20 &&& imm20Field m) := by
  conv_lhs => rw [← formatI_fields m]
  exact formatI_and ..

/-! ### The bits/alpha immediate of PAL.TOVAL -/

theorem bitsField_eq (w : Word) : bitsField w = (qField w).extractLsb' 0 3 := by
  ext i hi
  interval_cases i <;> simp [bitsField, qField]

theorem alphaField_eq (w : Word) : alphaField w = (qField w).getLsbD 3 := by
  simp [alphaField, qField]

/-! ### The table -/

/-- 35 rows (R96). -/
theorem length_opRows : opRows.length = 35 := rfl

/-- A decoded word has a row of its opcode, meets its fixed bits, and is what the row builds (R99). -/
theorem decode_eq_ok {w : Word} {i : Instr} (h : decode w = .ok i) :
    ∃ row ∈ opRows, row.op = opField w ∧ w &&& row.mask = row.fixed ∧ i = row.build w ∧ i.WellFormed = true := by
  unfold decode at h
  split at h
  · cases h
  · rename_i row hr
    split at h
    · cases h
    · rename_i hm
      split at h
      · rename_i hw
        have hop := List.find?_some hr
        simp only [Except.ok.injEq] at h
        exact ⟨row, List.mem_of_find?_eq_some hr, by simpa using hop, by simpa using hm, h.symm, h ▸ hw⟩
      · cases h

/-- A word whose opcode selects a row, whose fixed bits are the row's and which builds a well-formed instruction
decodes to it (R99). -/
theorem decode_of_row {w : Word} {row : OpRow} (hr : opRows.find? (fun r => r.op == opField w) = some row)
    (hm : w &&& row.mask = row.fixed) (hw : (row.build w).WellFormed = true) : decode w = .ok (row.build w) := by
  unfold decode
  rw [hr]
  simp [hm, hw]

end Sys2Proof
end

