-- ==== Sys2Proof/Laws/Memory.lean ====
section
/-! SUPPORT. The laws of MEM: a read after a write (R72), the frame of a write, and the canonical form kept by every memory operation. -/

namespace Sys2Proof.Machine

/-! ### Cells -/

theorem cellAt_eraseCell (cells : List Host.Cell) (a b : Nat) :
    cellAt (eraseCell cells a) b = if b = a then none else cellAt cells b := by
  induction cells with
  | nil => simp [eraseCell, cellAt]
  | cons c rest ih =>
    obtain ⟨c, v⟩ := c
    simp only [eraseCell] at ih ⊢
    by_cases hc : c = a
    · subst hc
      simp only [List.filter_cons, ne_eq, not_true_eq_false, decide_false, Bool.false_eq_true, if_false, ih, cellAt]
      by_cases hb : b = c
      · simp [hb]
      · simp [hb, Ne.symm hb]
    · simp only [List.filter_cons, ne_eq, hc, not_false_eq_true, decide_true, if_true, cellAt, ih]
      by_cases hb : c = b
      · subst hb; simp [hc]
      · simp [hb]

theorem cellAt_insertCell (cells : List Host.Cell) (a b : Nat) (v : Byte) (h : cellAt cells a = none) :
    cellAt (insertCell cells a v) b = if b = a then some v else cellAt cells b := by
  induction cells with
  | nil => simp [insertCell, cellAt, eq_comm]
  | cons c rest ih =>
    obtain ⟨c, w⟩ := c
    simp only [cellAt] at h
    have hca : c ≠ a := by intro e; simp [e] at h
    simp only [hca, if_false] at h
    simp only [insertCell]
    split
    · simp only [cellAt]
      by_cases hb : a = b <;> simp [hb, eq_comm]
    · simp only [cellAt, ih h]
      by_cases hb : c = b
      · subst hb; simp [hca]
      · simp [hb]

theorem mem_insertCell (cells : List Host.Cell) (a : Nat) (v : Byte) (d : Host.Cell) :
    d ∈ insertCell cells a v ↔ d = (a, v) ∨ d ∈ cells := by
  induction cells with
  | nil => simp [insertCell]
  | cons c rest ih =>
    obtain ⟨c, w⟩ := c
    simp only [insertCell]
    split
    · simp
    · simp only [List.mem_cons, ih]; tauto

theorem mem_eraseCell (cells : List Host.Cell) (a : Nat) (d : Host.Cell) :
    d ∈ eraseCell cells a ↔ d ∈ cells ∧ d.1 ≠ a := by
  simp [eraseCell]

theorem pairwise_insertCell (cells : List Host.Cell) (a : Nat) (v : Byte)
    (h : cells.Pairwise (fun c d => c.1 < d.1)) (ha : ∀ c ∈ cells, c.1 ≠ a) :
    (insertCell cells a v).Pairwise (fun c d => c.1 < d.1) := by
  induction cells with
  | nil => simp [insertCell]
  | cons c rest ih =>
    obtain ⟨c, w⟩ := c
    rw [List.pairwise_cons] at h
    simp only [insertCell]
    split
    · rename_i hlt
      refine List.pairwise_cons.2 ⟨?_, List.pairwise_cons.2 h⟩
      intro d hd
      rcases List.mem_cons.1 hd with rfl | hd
      · exact hlt
      · exact lt_trans hlt (h.1 d hd)
    · rename_i hlt
      have hne := ha (c, w) (by simp)
      refine List.pairwise_cons.2 ⟨?_, ih h.2 fun d hd => ha d (by simp [hd])⟩
      intro d hd
      rcases (mem_insertCell _ _ _ _).1 hd with rfl | hd
      · simp only at hne ⊢; omega
      · exact h.1 d hd

/-! ### One byte -/

@[simp] theorem Memory.write_powerOn (m : Memory) (a : Nat) (b : Byte) : (m.write a b).powerOn = m.powerOn := rfl

@[simp] theorem Memory.unlisted_write (m : Memory) (a : Nat) (b : Byte) (c : Nat) :
    (m.write a b).unlisted c = m.unlisted c := rfl

/-- Everything a write of one byte does to the reads: the address holds the value written, every other address what it
held (R72). -/
theorem Memory.read_write (m : Memory) (a c : Nat) (b : Byte) :
    (m.write a b).read c = if c = a then b else m.read c := by
  simp only [Memory.read, Memory.unlisted_write]
  by_cases hb : b = m.unlisted a
  · simp only [Memory.write, hb, if_true, cellAt_eraseCell]
    by_cases hc : c = a <;> simp [hc]
  · have h : cellAt (eraseCell m.cells a) a = none := by simp [cellAt_eraseCell]
    simp only [Memory.write, hb, if_false, cellAt_insertCell _ _ _ _ h, cellAt_eraseCell]
    by_cases hc : c = a <;> simp [hc]

@[simp] theorem Memory.read_write_same (m : Memory) (a : Nat) (b : Byte) : (m.write a b).read a = b := by
  simp [Memory.read_write]

theorem Memory.read_write_of_ne (m : Memory) {a c : Nat} (b : Byte) (h : c ≠ a) : (m.write a b).read c = m.read c := by
  simp [Memory.read_write, h]

theorem Memory.wf_iff (m : Memory) :
    m.wf = true ↔ m.cells.Pairwise (fun c d => c.1 < d.1) ∧ ∀ c ∈ m.cells, c.2 ≠ m.unlisted c.1 := by
  simp [Memory.wf]

/-- A write keeps the canonical form. -/
theorem Memory.wf_write (m : Memory) (a : Nat) (b : Byte) (h : m.wf = true) : (m.write a b).wf = true := by
  rw [Memory.wf_iff] at h ⊢
  have hp : (eraseCell m.cells a).Pairwise (fun c d => c.1 < d.1) := h.1.filter _
  have hu : ∀ c ∈ eraseCell m.cells a, c.2 ≠ m.unlisted c.1 := fun c hc => h.2 c ((mem_eraseCell _ _ _).1 hc).1
  simp only [Memory.unlisted_write]
  by_cases hb : b = m.unlisted a
  · simp only [Memory.write, hb, if_true]
    exact ⟨hp, hu⟩
  · simp only [Memory.write, hb, if_false]
    refine ⟨pairwise_insertCell _ _ _ hp fun c hc => ((mem_eraseCell _ _ _).1 hc).2, fun c hc => ?_⟩
    rcases (mem_insertCell _ _ _ _).1 hc with rfl | hc
    · exact hb
    · exact hu c hc

/-- A write lists no address but its own and those already listed. -/
theorem Memory.mem_cells_write (m : Memory) (a : Nat) (b : Byte) (c : Host.Cell) (h : c ∈ (m.write a b).cells) :
    c.1 = a ∨ c ∈ m.cells := by
  simp only [Memory.write] at h
  split at h
  · exact .inr ((mem_eraseCell _ _ _).1 h).1
  · rcases (mem_insertCell _ _ _ _).1 h with rfl | h
    · exact .inl rfl
    · exact .inr ((mem_eraseCell _ _ _).1 h).1

/-! ### Several bytes -/

@[simp] theorem Memory.writeBytes_nil (m : Memory) (a : Nat) : m.writeBytes a [] = m := rfl

/-- Everything a store of several bytes does to the reads: inside, the byte of its place; outside, what was there. -/
theorem Memory.read_writeBytes (m : Memory) (a c : Nat) (bs : List Byte) :
    (m.writeBytes a bs).read c = if a ≤ c then (bs[c - a]?).getD (m.read c) else m.read c := by
  induction bs generalizing m a with
  | nil => simp [Memory.writeBytes]
  | cons b bs ih =>
    simp only [Memory.writeBytes, ih, Memory.read_write]
    rcases lt_trichotomy c a with h | h | h
    · simp [show ¬ a ≤ c by omega, show ¬ a + 1 ≤ c by omega, show c ≠ a by omega]
    · subst h; simp
    · have e : c - a = (c - (a + 1)) + 1 := by omega
      simp [show a ≤ c by omega, show a + 1 ≤ c by omega, show c ≠ a by omega, e]

/-- The frame of a store of several bytes. -/
theorem Memory.read_writeBytes_outside (m : Memory) (a c : Nat) (bs : List Byte) (h : c < a ∨ a + bs.length ≤ c) :
    (m.writeBytes a bs).read c = m.read c := by
  rw [Memory.read_writeBytes]
  split
  · rw [List.getElem?_eq_none (by omega)]; rfl
  · rfl

/-- The bytes stored read back. -/
theorem Memory.read_writeBytes_inside (m : Memory) (a j : Nat) (bs : List Byte) (h : j < bs.length) :
    (m.writeBytes a bs).read (a + j) = bs[j] := by
  simp [Memory.read_writeBytes, h]

theorem Memory.wf_writeBytes (m : Memory) (a : Nat) (bs : List Byte) (h : m.wf = true) : (m.writeBytes a bs).wf = true := by
  induction bs generalizing m a with
  | nil => exact h
  | cons b bs ih => exact ih _ _ (m.wf_write a b h)

@[simp] theorem Memory.writeBytes_powerOn (m : Memory) (a : Nat) (bs : List Byte) :
    (m.writeBytes a bs).powerOn = m.powerOn := by
  induction bs generalizing m a with
  | nil => rfl
  | cons b bs ih => simp [Memory.writeBytes, ih]

/-- A store of several bytes lists no address but its own and those already listed. -/
theorem Memory.mem_cells_writeBytes (m : Memory) (a : Nat) (bs : List Byte) (c : Host.Cell)
    (h : c ∈ (m.writeBytes a bs).cells) : (a ≤ c.1 ∧ c.1 < a + bs.length) ∨ c ∈ m.cells := by
  induction bs generalizing m a with
  | nil => exact .inr h
  | cons b bs ih =>
    rcases ih _ _ h with h | h
    · left; simp only [List.length_cons]; omega
    · rcases m.mem_cells_write a b c h with h | h
      · left; simp only [List.length_cons]; omega
      · exact .inr h

@[simp] theorem Memory.length_readBytes (m : Memory) (a n : Nat) : (m.readBytes a n).length = n := by
  simp [Memory.readBytes]

@[simp] theorem Memory.getElem_readBytes (m : Memory) (a n j : Nat) (h : j < (m.readBytes a n).length) :
    (m.readBytes a n)[j] = m.read (a + j) := by
  simp [Memory.readBytes]

@[simp] theorem length_bytes16 (v : BitVec 16) : (bytes16 v).length = 2 := rfl
@[simp] theorem length_bytes32 (v : Word) : (bytes32 v).length = 4 := rfl

end Sys2Proof.Machine
end

