-- ==== Sys2Proof/Laws/State.lean ====
section
/-! SUPPORT. One lemma per field per update of State, so that no later proof unfolds a record update. -/

namespace Sys2Proof.Machine

/-! ### A register write -/

@[simp] theorem State.setReg_seq (s : State) (i : Reg) (v : Word) : (s.setReg i v).seq = s.seq := by
  unfold State.setReg; split <;> rfl
@[simp] theorem State.setReg_halt (s : State) (i : Reg) (v : Word) : (s.setReg i v).halt = s.halt := by
  unfold State.setReg; split <;> rfl
@[simp] theorem State.setReg_errcode (s : State) (i : Reg) (v : Word) : (s.setReg i v).errcode = s.errcode := by
  unfold State.setReg; split <;> rfl
@[simp] theorem State.setReg_errval (s : State) (i : Reg) (v : Word) : (s.setReg i v).errval = s.errval := by
  unfold State.setReg; split <;> rfl
@[simp] theorem State.setReg_slots (s : State) (i : Reg) (v : Word) : (s.setReg i v).slots = s.slots := by
  unfold State.setReg; split <;> rfl
@[simp] theorem State.setReg_bpl (s : State) (i : Reg) (v : Word) : (s.setReg i v).bpl = s.bpl := by
  unfold State.setReg; split <;> rfl
@[simp] theorem State.setReg_pix (s : State) (i : Reg) (v : Word) : (s.setReg i v).pix = s.pix := by
  unfold State.setReg; split <;> rfl
@[simp] theorem State.setReg_mem (s : State) (i : Reg) (v : Word) : (s.setReg i v).mem = s.mem := by
  unfold State.setReg; split <;> rfl
@[simp] theorem State.setReg_memTop (s : State) (i : Reg) (v : Word) : (s.setReg i v).memTop = s.memTop := by
  unfold State.setReg; split <;> rfl
@[simp] theorem State.setReg_pending (s : State) (i : Reg) (v : Word) : (s.setReg i v).pending = s.pending := by
  unfold State.setReg; split <;> rfl
@[simp] theorem State.setReg_slot (s : State) (i : Reg) (v : Word) (k : Fin 4) : (s.setReg i v).slot k = s.slot k := by
  simp [State.slot]
@[simp] theorem State.setReg_memSize (s : State) (i : Reg) (v : Word) : (s.setReg i v).memSize = s.memSize := by
  simp [State.memSize]

/-- A register reads 0 if it is `x0`, the value just written if it is the destination, and its old value otherwise (R15, R22). -/
theorem State.reg_setReg (s : State) (i r : Reg) (v : Word) :
    (s.setReg i v).reg r = if r = 0#4 then 0#32 else if r = i then v else s.reg r := by
  unfold State.setReg State.reg
  by_cases hr : r = 0#4
  · simp [hr]
  · by_cases hi : i = 0#4
    · have : r ≠ i := fun h => hr (h.trans hi)
      simp [hr, hi]
    · by_cases hri : r = i
      · subst hri; simp [hr]
      · have hn : i.toNat ≠ r.toNat := fun h => hri (BitVec.eq_of_toNat_eq h.symm)
        simp [hr, hi, hri, hn]

@[simp] theorem State.reg_zero (s : State) : s.reg 0#4 = 0#32 := by simp [State.reg]

/-- The fields that `State.reg` reads decide it. -/
theorem State.reg_congr {s t : State} (h : t.regs = s.regs) (r : Reg) : t.reg r = s.reg r := by
  simp [State.reg, h]

/-- The fields that `State.slot` reads decide it. -/
theorem State.slot_congr {s t : State} (h : t.slots = s.slots) (k : Fin 4) : t.slot k = s.slot k := by
  simp [State.slot, h]

/-! ### A slot's palette replaced -/

@[simp] theorem State.setSlot_regs (s : State) (k : Fin 4) (P : Palette) : (s.setSlot k P).regs = s.regs := rfl
@[simp] theorem State.setSlot_seq (s : State) (k : Fin 4) (P : Palette) : (s.setSlot k P).seq = s.seq := rfl
@[simp] theorem State.setSlot_halt (s : State) (k : Fin 4) (P : Palette) : (s.setSlot k P).halt = s.halt := rfl
@[simp] theorem State.setSlot_errcode (s : State) (k : Fin 4) (P : Palette) : (s.setSlot k P).errcode = s.errcode := rfl
@[simp] theorem State.setSlot_errval (s : State) (k : Fin 4) (P : Palette) : (s.setSlot k P).errval = s.errval := rfl
@[simp] theorem State.setSlot_slots (s : State) (k : Fin 4) (P : Palette) : (s.setSlot k P).slots = s.slots.set k.val (some P) k.isLt := rfl
@[simp] theorem State.setSlot_bpl (s : State) (k : Fin 4) (P : Palette) : (s.setSlot k P).bpl = s.bpl := rfl
@[simp] theorem State.setSlot_pix (s : State) (k : Fin 4) (P : Palette) : (s.setSlot k P).pix = s.pix := rfl
@[simp] theorem State.setSlot_mem (s : State) (k : Fin 4) (P : Palette) : (s.setSlot k P).mem = s.mem := rfl
@[simp] theorem State.setSlot_memTop (s : State) (k : Fin 4) (P : Palette) : (s.setSlot k P).memTop = s.memTop := rfl
@[simp] theorem State.setSlot_pending (s : State) (k : Fin 4) (P : Palette) : (s.setSlot k P).pending = s.pending := rfl
@[simp] theorem State.setSlot_reg (s : State) (k : Fin 4) (P : Palette) (r : Reg) : (s.setSlot k P).reg r = s.reg r := rfl
@[simp] theorem State.setSlot_memSize (s : State) (k : Fin 4) (P : Palette) : (s.setSlot k P).memSize = s.memSize := rfl

/-- The slot just written holds its new palette, every other slot what it held (R30, R32). -/
theorem State.slot_setSlot (s : State) (k j : Fin 4) (P : Palette) :
    (s.setSlot k P).slot j = if j = k then some P else s.slot j := by
  by_cases h : j = k
  · subst h; simp [State.slot]
  · have hn : k.val ≠ j.val := fun e => h (Fin.ext e.symm)
    simp [State.slot, h, hn]

/-! ### Completion (R24) -/

@[simp] theorem State.complete_regs (s : State) : (s.complete).regs = s.regs := rfl
@[simp] theorem State.complete_seq (s : State) : (s.complete).seq = s.seq + 1#32 := rfl
@[simp] theorem State.complete_halt (s : State) : (s.complete).halt = s.halt := rfl
@[simp] theorem State.complete_errcode (s : State) : (s.complete).errcode = s.errcode := rfl
@[simp] theorem State.complete_errval (s : State) : (s.complete).errval = s.errval := rfl
@[simp] theorem State.complete_slots (s : State) : (s.complete).slots = s.slots := rfl
@[simp] theorem State.complete_bpl (s : State) : (s.complete).bpl = s.bpl := rfl
@[simp] theorem State.complete_pix (s : State) : (s.complete).pix = s.pix := rfl
@[simp] theorem State.complete_mem (s : State) : (s.complete).mem = s.mem := rfl
@[simp] theorem State.complete_memTop (s : State) : (s.complete).memTop = s.memTop := rfl
@[simp] theorem State.complete_pending (s : State) : (s.complete).pending = s.pending := rfl
@[simp] theorem State.complete_reg (s : State) (r : Reg) : (s.complete).reg r = s.reg r := rfl
@[simp] theorem State.complete_slot (s : State) (j : Fin 4) : (s.complete).slot j = s.slot j := rfl
@[simp] theorem State.complete_memSize (s : State) : (s.complete).memSize = s.memSize := rfl

/-! ### Error entry (R290) -/

@[simp] theorem State.raise_regs (s : State) (e : Err) : (s.raise e).regs = s.regs := rfl
@[simp] theorem State.raise_seq (s : State) (e : Err) : (s.raise e).seq = s.seq := rfl
@[simp] theorem State.raise_halt (s : State) (e : Err) : (s.raise e).halt = true := rfl
@[simp] theorem State.raise_errcode (s : State) (e : Err) : (s.raise e).errcode = e.cause.errcode := rfl
@[simp] theorem State.raise_errval (s : State) (e : Err) : (s.raise e).errval = BitVec.ofNat 32 e.val := rfl
@[simp] theorem State.raise_slots (s : State) (e : Err) : (s.raise e).slots = s.slots := rfl
@[simp] theorem State.raise_bpl (s : State) (e : Err) : (s.raise e).bpl = s.bpl := rfl
@[simp] theorem State.raise_pix (s : State) (e : Err) : (s.raise e).pix = s.pix := rfl
@[simp] theorem State.raise_mem (s : State) (e : Err) : (s.raise e).mem = s.mem := rfl
@[simp] theorem State.raise_memTop (s : State) (e : Err) : (s.raise e).memTop = s.memTop := rfl
@[simp] theorem State.raise_pending (s : State) (e : Err) : (s.raise e).pending = s.pending := rfl
@[simp] theorem State.raise_reg (s : State) (e : Err) (r : Reg) : (s.raise e).reg r = s.reg r := rfl
@[simp] theorem State.raise_slot (s : State) (e : Err) (j : Fin 4) : (s.raise e).slot j = s.slot j := rfl
@[simp] theorem State.raise_memSize (s : State) (e : Err) : (s.raise e).memSize = s.memSize := rfl

/-! ### Reset (R125) -/

@[simp] theorem State.clear_regs (s : State) : (s.clear).regs = Vector.replicate 16 0#32 := rfl
@[simp] theorem State.clear_seq (s : State) : (s.clear).seq = 0#32 := rfl
@[simp] theorem State.clear_halt (s : State) : (s.clear).halt = false := rfl
@[simp] theorem State.clear_errcode (s : State) : (s.clear).errcode = 0#32 := rfl
@[simp] theorem State.clear_errval (s : State) : (s.clear).errval = 0#32 := rfl
@[simp] theorem State.clear_slots (s : State) : (s.clear).slots = Vector.replicate 4 none := rfl
@[simp] theorem State.clear_bpl (s : State) : (s.clear).bpl = Bitplane.reset := rfl
@[simp] theorem State.clear_pix (s : State) : (s.clear).pix = Adapter.reset := rfl
@[simp] theorem State.clear_mem (s : State) : (s.clear).mem = s.mem := rfl
@[simp] theorem State.clear_memTop (s : State) : (s.clear).memTop = s.memTop := rfl
@[simp] theorem State.clear_pending (s : State) : (s.clear).pending = s.pending := rfl
@[simp] theorem State.clear_memSize (s : State) : (s.clear).memSize = s.memSize := rfl
@[simp] theorem State.clear_reg (s : State) (r : Reg) : s.clear.reg r = 0#32 := by
  simp [State.reg]
@[simp] theorem State.clear_slot (s : State) (k : Fin 4) : s.clear.slot k = none := by
  simp [State.slot]

/-! ### Hardware reset (R310) -/

@[simp] theorem State.hardwareReset_regs (s : State) : (s.hardwareReset).regs = Vector.replicate 16 0#32 := rfl
@[simp] theorem State.hardwareReset_seq (s : State) : (s.hardwareReset).seq = 0#32 := rfl
@[simp] theorem State.hardwareReset_halt (s : State) : (s.hardwareReset).halt = false := rfl
@[simp] theorem State.hardwareReset_errcode (s : State) : (s.hardwareReset).errcode = 0#32 := rfl
@[simp] theorem State.hardwareReset_errval (s : State) : (s.hardwareReset).errval = 0#32 := rfl
@[simp] theorem State.hardwareReset_slots (s : State) : (s.hardwareReset).slots = Vector.replicate 4 none := rfl
@[simp] theorem State.hardwareReset_bpl (s : State) : (s.hardwareReset).bpl = Bitplane.reset := rfl
@[simp] theorem State.hardwareReset_pix (s : State) : (s.hardwareReset).pix = Adapter.reset := rfl
@[simp] theorem State.hardwareReset_mem (s : State) : (s.hardwareReset).mem = ⟨s.mem.powerOn.next, []⟩ := rfl
@[simp] theorem State.hardwareReset_memTop (s : State) : (s.hardwareReset).memTop = s.memTop := rfl
@[simp] theorem State.hardwareReset_pending (s : State) : (s.hardwareReset).pending = s.pending := rfl
@[simp] theorem State.hardwareReset_memSize (s : State) : (s.hardwareReset).memSize = s.memSize := rfl
@[simp] theorem State.hardwareReset_reg (s : State) (r : Reg) : s.hardwareReset.reg r = 0#32 := by
  simp [State.reg]
@[simp] theorem State.hardwareReset_slot (s : State) (k : Fin 4) : s.hardwareReset.slot k = none := by
  simp [State.slot]

/-! ### A field replaced: the accessors that do not read it -/

@[simp] theorem State.reg_with_mem (s : State) (m : Memory) (r : Reg) : ({ s with mem := m } : State).reg r = s.reg r := rfl
@[simp] theorem State.reg_with_bpl (s : State) (e : Bitplane) (r : Reg) : ({ s with bpl := e } : State).reg r = s.reg r := rfl
@[simp] theorem State.reg_with_pix (s : State) (x : Adapter) (r : Reg) : ({ s with pix := x } : State).reg r = s.reg r := rfl
@[simp] theorem State.slot_with_mem (s : State) (m : Memory) (k : Fin 4) : ({ s with mem := m } : State).slot k = s.slot k := rfl
@[simp] theorem State.slot_with_bpl (s : State) (e : Bitplane) (k : Fin 4) : ({ s with bpl := e } : State).slot k = s.slot k := rfl
@[simp] theorem State.slot_with_pix (s : State) (x : Adapter) (k : Fin 4) : ({ s with pix := x } : State).slot k = s.slot k := rfl

end Sys2Proof.Machine
end

