-- ==== Sys2Proof/Laws/Ops.lean ====
section
/-! SUPPORT. For each shared operation, once, everything it can do: how a command ends, how a sequence of checks comes apart, what each check needs. -/

namespace Sys2Proof.Machine

/-! ### A sequence of checks -/

/-- A sequence of checks succeeds when its first part does and the rest does on its result. -/
theorem bind_eq_ok {α β : Type} {x : Except Err α} {f : α → Except Err β} {b : β} :
    (x >>= f) = .ok b ↔ ∃ a, x = .ok a ∧ f a = .ok b := by
  cases x <;> simp [bind, Except.bind]

/-- A sequence of checks fails in its first part, or in the rest on its result. -/
theorem bind_eq_error {α β : Type} {x : Except Err α} {f : α → Except Err β} {e : Err} :
    (x >>= f) = .error e ↔ x = .error e ∨ ∃ a, x = .ok a ∧ f a = .error e := by
  cases x <;> simp [bind, Except.bind]

@[simp] theorem ok_bind {α β : Type} (a : α) (f : α → Except Err β) : ((Except.ok a : Except Err α) >>= f) = f a := rfl

@[simp] theorem error_bind {α β : Type} (e : Err) (f : α → Except Err β) :
    ((Except.error e : Except Err α) >>= f) = .error e := rfl

@[simp] theorem require_eq_ok {p : Prop} [Decidable p] {e : Err} {u : Unit} : require p e = .ok u ↔ p := by
  unfold require; split <;> simp [*]

@[simp] theorem require_eq_error {p : Prop} [Decidable p] {e e' : Err} : require p e = .error e' ↔ ¬ p ∧ e = e' := by
  unfold require; split <;> simp [*]

theorem require_of {p : Prop} [Decidable p] {e : Err} (h : p) : require p e = .ok () := if_pos h

theorem require_of_not {p : Prop} [Decidable p] {e : Err} (h : ¬ p) : require p e = .error e := if_neg h

/-! ### The end of a command -/

/-- A command ends in one of two next states: its result with SEQ stepped, or error entry from the state before it
(R120, R290). -/
theorem commit_eq_next {s t : State} {r : Except Err State} (h : commit s r = .next t) :
    (∃ u, r = .ok u ∧ t = u.complete) ∨ (∃ e, r = .error e ∧ t = s.raise e) := by
  cases r with
  | ok u => exact .inl ⟨u, rfl, by simpa [commit] using h.symm⟩
  | error e => exact .inr ⟨e, rfl, by simpa [commit] using h.symm⟩

@[simp] theorem commit_ok (s t : State) : commit s (.ok t) = .next t.complete := rfl

@[simp] theorem commit_error (s : State) (e : Err) : commit s (.error e) = .next (s.raise e) := rfl

/-- A command neither faults nor is refused: it completes or enters the error state (R120). -/
theorem commit_answers (s : State) (r : Except Err State) : ∃ t, commit s r = .next t := by
  cases r <;> simp [commit]

/-! ### Operand checks -/

theorem checkSlot_eq_ok {p : SlotNo} {k : Fin 4} : checkSlot p = .ok k ↔ p.toNat = k.val := by
  unfold checkSlot
  split
  · rename_i h
    simp only [Except.ok.injEq, Fin.ext_iff]
  · rename_i h
    simp only [reduceCtorEq, false_iff]
    omega

theorem checkSlot_eq_error {p : SlotNo} {e : Err} :
    checkSlot p = .error e ↔ 4 ≤ p.toNat ∧ e = ⟨.badSlot, p.toNat⟩ := by
  unfold checkSlot
  split
  · rename_i h
    simp only [reduceCtorEq, false_iff]
    omega
  · rename_i h
    simp only [Except.error.injEq]
    exact ⟨fun he => ⟨by omega, he.symm⟩, fun he => he.2.symm⟩

theorem State.readSlot_eq_ok {s : State} {k : Fin 4} {P : Palette} : s.readSlot k = .ok P ↔ s.slot k = some P := by
  unfold State.readSlot
  split <;> simp [*]

theorem State.readSlot_eq_error {s : State} {k : Fin 4} {e : Err} :
    s.readSlot k = .error e ↔ s.slot k = none ∧ e = ⟨.slotEmpty, k.val⟩ := by
  unfold State.readSlot
  split <;> simp [*, eq_comm]

theorem State.checkWindow_eq_ok {s : State} {base : Word} {len : Nat} {u : Unit} :
    s.checkWindow base len = .ok u ↔ base.toNat + len ≤ s.memSize := by
  simp [State.checkWindow]

theorem State.checkWindow_eq_error {s : State} {base : Word} {len : Nat} {e : Err} :
    s.checkWindow base len = .error e ↔ s.memSize < base.toNat + len ∧ e = ⟨.window, base.toNat⟩ := by
  rw [State.checkWindow, require_eq_error, not_le, eq_comm (a := e)]

theorem checkDisjoint_eq_ok {src sl dst dl : Nat} {u : Unit} :
    checkDisjoint src sl dst dl = .ok u ↔ ¬ Overlapping src sl dst dl := by
  unfold checkDisjoint; rw [require_eq_ok]

theorem checkDisjoint_eq_error {src sl dst dl : Nat} {e : Err} :
    checkDisjoint src sl dst dl = .error e ↔ Overlapping src sl dst dl ∧ e = ⟨.overlap, 0⟩ := by
  unfold checkDisjoint; rw [require_eq_error, not_not, eq_comm (a := e)]

/-- Two windows pass the overlap check exactly when they share no byte (R79). -/
theorem not_overlapping_iff {src sl dst dl : Nat} :
    ¬ Overlapping src sl dst dl ↔ ∀ a, ¬ ((src ≤ a ∧ a < src + sl) ∧ (dst ≤ a ∧ a < dst + dl)) := by
  constructor
  · rintro h a ⟨⟨h1, h2⟩, h3, h4⟩
    exact h ⟨by omega, by omega, by omega, by omega⟩
  · rintro h ⟨h1, h2, h3, h4⟩
    exact h (max src dst) (by omega)

/-- The host's store: one byte changes, or the address does not exist (R70; log 9). -/
theorem State.hostStore_eq_next {s t : State} {a : Nat} {b : Byte} (h : s.hostStore a b = .next t) :
    a < s.memSize ∧ t = { s with mem := s.mem.write a b } := by
  unfold State.hostStore at h
  split at h
  · exact ⟨‹_›, by simpa using h.symm⟩
  · cases h

end Sys2Proof.Machine
end

