-- ==== Sys2Proof/Laws/Packbits.lean ====
section
/-! SUPPORT. What the packbits functions can answer: the length of a decode, its errors, and that the fuel does not matter. -/

namespace Sys2Proof.Machine

/-! ### Decoding -/

/-- A decode that succeeds makes exactly the bytes that were missing (R241). -/
theorem unpackFrom_length {fuel N m : Nat} {src out : List Byte} (h : unpackFrom fuel src N m = .ok out) :
    out.length = N - m := by
  induction fuel generalizing src m out with
  | zero => cases h
  | succ fuel ih =>
    rw [unpackFrom.eq_def] at h
    dsimp only at h
    split at h
    · cases h; simp; omega
    · split at h
      · cases h
      · split at h
        · exact ih h
        · split at h
          · split at h
            · cases h
            · split at h
              · cases h
              · obtain ⟨o, ho, h⟩ := bind_eq_ok.1 h
                cases h
                simp only [List.length_append, List.length_replicate, ih ho]
                omega
          · split at h
            · cases h
            · split at h
              · cases h
              · obtain ⟨o, ho, h⟩ := bind_eq_ok.1 h
                cases h
                simp only [List.length_append, List.length_take, ih ho]
                omega

/-- A successful decode makes `N` bytes (R241). -/
theorem unpack_length {S out : List Byte} {N : Nat} (h : unpack S N = .ok out) : out.length = N := by
  simpa using unpackFrom_length h

/-- A decode fails only for lack of source bytes or because a token does not fit (R241). -/
theorem unpackFrom_eq_error {fuel N m : Nat} {src : List Byte} {e : Err} (h : unpackFrom fuel src N m = .error e) :
    e.cause = .srcUnderflow ∨ e.cause = .dstOverrun := by
  induction fuel generalizing src m with
  | zero => cases h; exact .inl rfl
  | succ fuel ih =>
    rw [unpackFrom.eq_def] at h
    dsimp only at h
    split at h
    · cases h
    · split at h
      · cases h; exact .inl rfl
      · split at h
        · exact ih h
        · split at h
          · split at h
            · cases h; exact .inl rfl
            · split at h
              · cases h; exact .inr rfl
              · rcases bind_eq_error.1 h with h | ⟨_, _, h⟩
                · exact ih h
                · cases h
          · split at h
            · cases h; exact .inl rfl
            · split at h
              · cases h; exact .inr rfl
              · rcases bind_eq_error.1 h with h | ⟨_, _, h⟩
                · exact ih h
                · cases h

/-- Fuel beyond one unit for each source byte, and one more, changes nothing. -/
theorem unpackFrom_fuel {f g N m : Nat} {src : List Byte} (hf : src.length < f) (hg : src.length < g) :
    unpackFrom f src N m = unpackFrom g src N m := by
  induction f generalizing g src m with
  | zero => omega
  | succ f ih =>
    cases g with
    | zero => omega
    | succ g =>
      rw [unpackFrom.eq_def, unpackFrom.eq_def (g + 1)]
      dsimp only
      split
      · rfl
      · cases src with
        | nil => rfl
        | cons C rest =>
          simp only [List.length_cons] at hf hg
          dsimp only
          split
          · exact ih (by omega) (by omega)
          · split
            · cases rest with
              | nil => rfl
              | cons v rest' =>
                simp only [List.length_cons] at hf hg
                dsimp only
                rw [ih (g := g) (by omega) (by omega)]
            · have : (rest.drop (1 + C.toInt).toNat).length ≤ rest.length := by simp
              rw [ih (g := g) (by omega) (by omega)]

/-! ### Encoding -/

theorem runLength_le (b : Byte) (cap : Nat) (l : List Byte) : runLength b cap l ≤ cap ∧ runLength b cap l ≤ l.length := by
  induction l generalizing cap with
  | nil => cases cap <;> simp [runLength]
  | cons c rest ih =>
    cases cap with
    | zero => simp [runLength]
    | succ cap =>
      have := ih cap
      simp only [runLength]
      split <;> simp
      omega

theorem spanLength_le (cap : Nat) (l : List Byte) : spanLength cap l ≤ cap ∧ spanLength cap l ≤ l.length := by
  induction l generalizing cap with
  | nil => cases cap <;> simp [spanLength]
  | cons c rest ih =>
    cases cap with
    | zero => simp [spanLength]
    | succ cap =>
      cases rest with
      | nil => simp [spanLength]
      | cons d rest =>
        have := ih cap
        simp only [spanLength]
        split
        · simp
        · simp only [List.length_cons] at this ⊢
          omega

/-- Fuel beyond one unit for each source byte changes nothing. -/
theorem packFrom_fuel {f g : Nat} {S : List Byte} (hf : S.length ≤ f) (hg : S.length ≤ g) :
    packFrom f S = packFrom g S := by
  induction f generalizing g S with
  | zero =>
    have : S = [] := List.length_eq_zero_iff.1 (by omega)
    subst this
    cases g <;> rfl
  | succ f ih =>
    cases S with
    | nil => cases g <;> rfl
    | cons b S =>
      cases g with
      | zero => simp at hg
      | succ g =>
        cases S with
        | nil => rfl
        | cons c rest =>
          simp only [List.length_cons] at hf hg
          simp only [packFrom]
          split
          · congr 2
            apply ih <;> simp only [List.length_drop, List.length_cons] <;> omega
          · congr 2
            apply ih <;> simp only [List.length_drop, List.length_cons] <;> omega

end Sys2Proof.Machine
end

