-- ==== Sys2Proof/Laws/PerInstr.lean ====
section
/-! SUPPORT. The per-instruction family EncodeFixedBits: an instruction's encoding has the opcode and the fixed bits of a row of R96. -/

namespace Sys2Proof.Laws

/-- The encoding of `i` carries the opcode and the fixed bits (the mask and match columns) of a row of R96 (R94). -/
def EncodeFixedBits.Statement (i : Instr) : Prop :=
  ∃ row ∈ opRows, opField (encode i) = row.op ∧ encode i &&& row.mask = row.fixed

/-- A word of format R meets a mask and match when each of its fields does. -/
theorem masked_formatR {op : BitVec 8} {ra rb rc rd q p : BitVec 4} {m f : Word} (h0 : op &&& opField m = opField f)
    (h1 : ra &&& raField m = raField f) (h2 : rb &&& rbField m = rbField f) (h3 : rc &&& rcField m = rcField f)
    (h4 : rd &&& rdField m = rdField f) (h5 : q &&& qField m = qField f) (h6 : p &&& pField m = pField f) :
    formatR op ra rb rc rd q p &&& m = f := by
  rw [formatR_and_mask, h0, h1, h2, h3, h4, h5, h6, formatR_fields]

/-- A word of format I meets a mask and match when each of its fields does. -/
theorem masked_formatI {op : BitVec 8} {rd : BitVec 4} {imm20 : BitVec 20} {m f : Word}
    (h0 : op &&& opField m = opField f) (h1 : rd &&& raField m = raField f)
    (h2 : imm20 &&& imm20Field m = imm20Field f) : formatI op rd imm20 &&& m = f := by
  rw [formatI_and_mask, h0, h1, h2, formatI_fields]

/-- Bits 19:12 of an imm12 immediate are 0 (R95). -/
theorem imm12_high_bits (imm12 : BitVec 12) : imm12.setWidth 20 &&& 0xFF000#20 = 0#20 := by
  ext i hi; interval_cases i <;> simp

/-- Bits 19:8 of a control-register number are 0 (R95). -/
theorem cr_high_bits (cr : BitVec 8) : cr.setWidth 20 &&& 0xFFF00#20 = 0#20 := by
  ext i hi; interval_cases i <;> simp

theorem EncodeFixedBits.nop : EncodeFixedBits.Statement .nop := by
  exact ⟨opRows[0], List.getElem_mem _, rfl, rfl⟩

theorem EncodeFixedBits.li (rd : Reg) (imm20 : BitVec 20) : EncodeFixedBits.Statement (.li rd imm20) := by
  exact ⟨opRows[1], List.getElem_mem _, opField_formatI .., masked_formatI rfl BitVec.and_zero BitVec.and_zero⟩

theorem EncodeFixedBits.lih (rd : Reg) (imm12 : BitVec 12) : EncodeFixedBits.Statement (.lih rd imm12) := by
  exact ⟨opRows[2], List.getElem_mem _, opField_formatI .., masked_formatI rfl BitVec.and_zero (by rw [show imm20Field opRows[2].mask = 0xFF000#20 by decide, imm12_high_bits]; decide)⟩

theorem EncodeFixedBits.crr (rd : Reg) (cr : BitVec 8) : EncodeFixedBits.Statement (.crr rd cr) := by
  exact ⟨opRows[3], List.getElem_mem _, opField_formatI .., masked_formatI rfl BitVec.and_zero (by rw [show imm20Field opRows[3].mask = 0xFFF00#20 by decide, cr_high_bits]; decide)⟩

theorem EncodeFixedBits.reset : EncodeFixedBits.Statement .reset := by
  exact ⟨opRows[4], List.getElem_mem _, rfl, rfl⟩

theorem EncodeFixedBits.palNew (p : SlotNo) (ra rb : Reg) : EncodeFixedBits.Statement (.palNew p ra rb) := by
  refine ⟨opRows[5], List.getElem_mem _, opField_formatR .., masked_formatR ?_ ?_ ?_ ?_ ?_ ?_ ?_⟩ <;> first | rfl | exact BitVec.and_zero

theorem EncodeFixedBits.palSet (p : SlotNo) (ra rb rc rd re : Reg) : EncodeFixedBits.Statement (.palSet p ra rb rc rd re) := by
  refine ⟨opRows[6], List.getElem_mem _, opField_formatR .., masked_formatR ?_ ?_ ?_ ?_ ?_ ?_ ?_⟩ <;> first | rfl | exact BitVec.and_zero

theorem EncodeFixedBits.palSetrgb (p : SlotNo) (ra rb rc rd : Reg) : EncodeFixedBits.Statement (.palSetrgb p ra rb rc rd) := by
  refine ⟨opRows[7], List.getElem_mem _, opField_formatR .., masked_formatR ?_ ?_ ?_ ?_ ?_ ?_ ?_⟩ <;> first | rfl | exact BitVec.and_zero

theorem EncodeFixedBits.palGet (p : SlotNo) (ra rb rc rd re : Reg) : EncodeFixedBits.Statement (.palGet p ra rb rc rd re) := by
  refine ⟨opRows[8], List.getElem_mem _, opField_formatR .., masked_formatR ?_ ?_ ?_ ?_ ?_ ?_ ?_⟩ <;> first | rfl | exact BitVec.and_zero

theorem EncodeFixedBits.palLen (rd : Reg) (p : SlotNo) : EncodeFixedBits.Statement (.palLen rd p) := by
  refine ⟨opRows[9], List.getElem_mem _, opField_formatR .., masked_formatR ?_ ?_ ?_ ?_ ?_ ?_ ?_⟩ <;> first | rfl | exact BitVec.and_zero

theorem EncodeFixedBits.palBpc (rd : Reg) (p : SlotNo) : EncodeFixedBits.Statement (.palBpc rd p) := by
  refine ⟨opRows[10], List.getElem_mem _, opField_formatR .., masked_formatR ?_ ?_ ?_ ?_ ?_ ?_ ?_⟩ <;> first | rfl | exact BitVec.and_zero

theorem EncodeFixedBits.palPlanes (rd : Reg) (p : SlotNo) : EncodeFixedBits.Statement (.palPlanes rd p) := by
  refine ⟨opRows[11], List.getElem_mem _, opField_formatR .., masked_formatR ?_ ?_ ?_ ?_ ?_ ?_ ?_⟩ <;> first | rfl | exact BitVec.and_zero

theorem EncodeFixedBits.palChkplanes (p : SlotNo) (ra : Reg) : EncodeFixedBits.Statement (.palChkplanes p ra) := by
  refine ⟨opRows[12], List.getElem_mem _, opField_formatR .., masked_formatR ?_ ?_ ?_ ?_ ?_ ?_ ?_⟩ <;> first | rfl | exact BitVec.and_zero

theorem EncodeFixedBits.palResample (pd ps : SlotNo) (ra : Reg) : EncodeFixedBits.Statement (.palResample pd ps ra) := by
  refine ⟨opRows[13], List.getElem_mem _, opField_formatR .., masked_formatR ?_ ?_ ?_ ?_ ?_ ?_ ?_⟩ <;> first | rfl | exact BitVec.and_zero

theorem EncodeFixedBits.palToval (p : SlotNo) (ra rb : Reg) (bits1 : BitVec 3) (alpha : Bool) : EncodeFixedBits.Statement (.palToval p ra rb bits1 alpha) := by
  refine ⟨opRows[14], List.getElem_mem _, opField_formatR .., masked_formatR ?_ ?_ ?_ ?_ ?_ ?_ ?_⟩ <;> first | rfl | exact BitVec.and_zero

theorem EncodeFixedBits.palFromval (p : SlotNo) (ra rb : Reg) : EncodeFixedBits.Statement (.palFromval p ra rb) := by
  refine ⟨opRows[15], List.getElem_mem _, opField_formatR .., masked_formatR ?_ ?_ ?_ ?_ ?_ ?_ ?_⟩ <;> first | rfl | exact BitVec.and_zero

theorem EncodeFixedBits.palFromimg (p : SlotNo) (ra rb : Reg) : EncodeFixedBits.Statement (.palFromimg p ra rb) := by
  refine ⟨opRows[16], List.getElem_mem _, opField_formatR .., masked_formatR ?_ ?_ ?_ ?_ ?_ ?_ ?_⟩ <;> first | rfl | exact BitVec.and_zero

theorem EncodeFixedBits.atrParse4 (ra rb rc rd : Reg) : EncodeFixedBits.Statement (.atrParse4 ra rb rc rd) := by
  refine ⟨opRows[17], List.getElem_mem _, opField_formatR .., masked_formatR ?_ ?_ ?_ ?_ ?_ ?_ ?_⟩ <;> first | rfl | exact BitVec.and_zero

theorem EncodeFixedBits.atrParseste (ra rb rc rd : Reg) : EncodeFixedBits.Statement (.atrParseste ra rb rc rd) := by
  refine ⟨opRows[18], List.getElem_mem _, opField_formatR .., masked_formatR ?_ ?_ ?_ ?_ ?_ ?_ ?_⟩ <;> first | rfl | exact BitVec.and_zero

theorem EncodeFixedBits.atrMkpal (p : SlotNo) (ra rb rc : Reg) : EncodeFixedBits.Statement (.atrMkpal p ra rb rc) := by
  refine ⟨opRows[19], List.getElem_mem _, opField_formatR .., masked_formatR ?_ ?_ ?_ ?_ ?_ ?_ ?_⟩ <;> first | rfl | exact BitVec.and_zero

theorem EncodeFixedBits.atrWrpal (p : SlotNo) (ra rb : Reg) : EncodeFixedBits.Statement (.atrWrpal p ra rb) := by
  refine ⟨opRows[20], List.getElem_mem _, opField_formatR .., masked_formatR ?_ ?_ ?_ ?_ ?_ ?_ ?_⟩ <;> first | rfl | exact BitVec.and_zero

theorem EncodeFixedBits.bplRaw (ra : Reg) : EncodeFixedBits.Statement (.bplRaw ra) := by
  refine ⟨opRows[21], List.getElem_mem _, opField_formatR .., masked_formatR ?_ ?_ ?_ ?_ ?_ ?_ ?_⟩ <;> first | rfl | exact BitVec.and_zero

theorem EncodeFixedBits.bplContig (ra rb rc rd re : Reg) : EncodeFixedBits.Statement (.bplContig ra rb rc rd re) := by
  refine ⟨opRows[22], List.getElem_mem _, opField_formatR .., masked_formatR ?_ ?_ ?_ ?_ ?_ ?_ ?_⟩ <;> first | rfl | exact BitVec.and_zero

theorem EncodeFixedBits.bplLine (ra rb rc rd : Reg) : EncodeFixedBits.Statement (.bplLine ra rb rc rd) := by
  refine ⟨opRows[23], List.getElem_mem _, opField_formatR .., masked_formatR ?_ ?_ ?_ ?_ ?_ ?_ ?_⟩ <;> first | rfl | exact BitVec.and_zero

theorem EncodeFixedBits.bplWord (ra rb rc rd : Reg) : EncodeFixedBits.Statement (.bplWord ra rb rc rd) := by
  refine ⟨opRows[24], List.getElem_mem _, opField_formatR .., masked_formatR ?_ ?_ ?_ ?_ ?_ ?_ ?_⟩ <;> first | rfl | exact BitVec.and_zero

theorem EncodeFixedBits.bplRead (rd : Reg) : EncodeFixedBits.Statement (.bplRead rd) := by
  refine ⟨opRows[25], List.getElem_mem _, opField_formatR .., masked_formatR ?_ ?_ ?_ ?_ ?_ ?_ ?_⟩ <;> first | rfl | exact BitVec.and_zero

theorem EncodeFixedBits.bplWrite (ra : Reg) : EncodeFixedBits.Statement (.bplWrite ra) := by
  refine ⟨opRows[26], List.getElem_mem _, opField_formatR .., masked_formatR ?_ ?_ ?_ ?_ ?_ ?_ ?_⟩ <;> first | rfl | exact BitVec.and_zero

theorem EncodeFixedBits.bplAdv (ra : Reg) : EncodeFixedBits.Statement (.bplAdv ra) := by
  refine ⟨opRows[27], List.getElem_mem _, opField_formatR .., masked_formatR ?_ ?_ ?_ ?_ ?_ ?_ ?_⟩ <;> first | rfl | exact BitVec.and_zero

theorem EncodeFixedBits.pkbDec (ra rb rc rd : Reg) : EncodeFixedBits.Statement (.pkbDec ra rb rc rd) := by
  refine ⟨opRows[28], List.getElem_mem _, opField_formatR .., masked_formatR ?_ ?_ ?_ ?_ ?_ ?_ ?_⟩ <;> first | rfl | exact BitVec.and_zero

theorem EncodeFixedBits.pkbEnc (ra rb rc rd re : Reg) : EncodeFixedBits.Statement (.pkbEnc ra rb rc rd re) := by
  refine ⟨opRows[29], List.getElem_mem _, opField_formatR .., masked_formatR ?_ ?_ ?_ ?_ ?_ ?_ ?_⟩ <;> first | rfl | exact BitVec.and_zero

theorem EncodeFixedBits.pixBind (p : SlotNo) (ra rb : Reg) : EncodeFixedBits.Statement (.pixBind p ra rb) := by
  refine ⟨opRows[30], List.getElem_mem _, opField_formatR .., masked_formatR ?_ ?_ ?_ ?_ ?_ ?_ ?_⟩ <;> first | rfl | exact BitVec.and_zero

theorem EncodeFixedBits.pixRead (rd : Reg) : EncodeFixedBits.Statement (.pixRead rd) := by
  refine ⟨opRows[31], List.getElem_mem _, opField_formatR .., masked_formatR ?_ ?_ ?_ ?_ ?_ ?_ ?_⟩ <;> first | rfl | exact BitVec.and_zero

theorem EncodeFixedBits.pixWrite (ra : Reg) : EncodeFixedBits.Statement (.pixWrite ra) := by
  refine ⟨opRows[32], List.getElem_mem _, opField_formatR .., masked_formatR ?_ ?_ ?_ ?_ ?_ ?_ ?_⟩ <;> first | rfl | exact BitVec.and_zero

theorem EncodeFixedBits.pixAdv (ra : Reg) : EncodeFixedBits.Statement (.pixAdv ra) := by
  refine ⟨opRows[33], List.getElem_mem _, opField_formatR .., masked_formatR ?_ ?_ ?_ ?_ ?_ ?_ ?_⟩ <;> first | rfl | exact BitVec.and_zero

theorem EncodeFixedBits.pixSetpal (p : SlotNo) : EncodeFixedBits.Statement (.pixSetpal p) := by
  refine ⟨opRows[34], List.getElem_mem _, opField_formatR .., masked_formatR ?_ ?_ ?_ ?_ ?_ ?_ ?_⟩ <;> first | rfl | exact BitVec.and_zero

end Sys2Proof.Laws
end

