-- ==== Sys2Proof/Laws/Units.lean ====
section
/-! SUPPORT. The shared operations of the units: what each can do, said once. -/

namespace Sys2Proof.Machine

/-! ### Palette unit -/

@[simp] theorem Palette.resample_bpc (P : Palette) (nb : Nat) : (P.resample nb).bpc = nb := rfl

@[simp] theorem Palette.resample_ents (P : Palette) (nb : Nat) :
    (P.resample nb).ents = P.ents.map (·.rescale P.bpc nb) := rfl

@[simp] theorem Palette.length_resample (P : Palette) (nb : Nat) : (P.resample nb).length = P.length := by
  simp [Palette.length]

@[simp] theorem Palette.length_toValues (P : Palette) (bits : Nat) (alpha : Bool) :
    (P.toValues bits alpha).length = P.length := by
  simp [Palette.toValues, Palette.length]

@[simp] theorem Palette.length_buildLut (P : Palette) : P.buildLut.length = P.length := by
  simp [Palette.buildLut]

theorem Palette.entry_eq_some {P : Palette} {i : Nat} {c : Color} :
    P.entry i = some c ↔ ∃ h : i < P.length, P.ents[i]'h = c := by
  simp [Palette.entry, Palette.length, List.getElem?_eq_some_iff]

theorem Palette.entry_eq_none {P : Palette} {i : Nat} : P.entry i = none ↔ P.length ≤ i := by
  simp [Palette.entry, Palette.length]

/-- The guard of `TooManyColors` changes nothing: it is the comparison with `2^n` of R148. -/
theorem tooManyColors_iff (L n : Nat) : TooManyColors L n ↔ 2 ^ n < L := by
  constructor
  · exact fun h => h.2
  · intro h
    have : n < 2 ^ n := Nat.lt_two_pow_self
    exact ⟨by omega, h⟩

/-- A pixel scan starts from the values seen, adds each new value once at the end and never holds more than 256. -/
theorem distinctPixels_eq_ok {vs seen out : List Word} {j : Nat} (h : distinctPixels vs j seen = .ok out)
    (hs : seen.length ≤ 256) : seen <+: out ∧ out.length ≤ 256 ∧ ∀ v, v ∈ out ↔ v ∈ seen ∨ v ∈ vs := by
  induction vs generalizing j seen with
  | nil =>
    simp only [distinctPixels, Except.ok.injEq] at h
    subst h
    exact ⟨List.prefix_rfl, hs, by simp⟩
  | cons v vs ih =>
    simp only [distinctPixels] at h
    split at h
    · rename_i hv
      obtain ⟨h1, h2, h3⟩ := ih h hs
      refine ⟨h1, h2, fun w => (h3 w).trans ?_⟩
      constructor
      · rintro (hw | hw) <;> simp [hw]
      · rintro (hw | hw)
        · exact .inl hw
        · rcases List.mem_cons.1 hw with rfl | hw
          · exact .inl hv
          · exact .inr hw
    · split at h
      · cases h
      · rename_i hl
        obtain ⟨h1, h2, h3⟩ := ih h (by simp; omega)
        refine ⟨(List.prefix_append _ _).trans h1, h2, fun w => (h3 w).trans ?_⟩
        simp only [List.mem_append, List.mem_cons, List.not_mem_nil, or_false]
        tauto

/-! ### Bitplane engine -/

/-- Every plane's offset is inside the window (R208, R209). -/
theorem Bitplane.checkPlanes_eq_ok {e : Bitplane} {u : Unit} :
    e.checkPlanes = .ok u ↔ ∀ k < e.planes, e.offset k < e.conf.len.toNat := by
  unfold Bitplane.checkPlanes
  split
  · rename_i h
    simp only [true_iff, List.find?_eq_none, List.mem_range, decide_eq_true_eq, not_le] at h ⊢
    exact h
  · rename_i k h
    have h1 := List.mem_of_find?_eq_some h
    have h2 := List.find?_some h
    simp only [reduceCtorEq, false_iff, not_forall, not_lt]
    exact ⟨k, List.mem_range.1 h1, by simpa using h2⟩

/-- A cursor step that fails does so at the last pixel, with BoundsError(BPL_LINE_OVF, 0) (R202). -/
theorem Bitplane.stepCursor_eq_error {e : Bitplane} {x : Err} :
    e.stepCursor = .error x ↔ e.AtLastPixel ∧ x = ⟨.bplLineOvf, 0⟩ := by
  unfold Bitplane.stepCursor Bitplane.AtLastPixel
  dsimp only
  split
  · simp_all
  · split
    · simp_all
    · split
      · simp_all
      · split
        · simp_all [eq_comm]
        · simp_all

/-- Everything a filled cache can be: as it was, or decoded from MEM after every plane's offset was checked (R208). -/
theorem Bitplane.fill_eq_ok {e e' : Bitplane} {m : Memory} (h : e.fill m = .ok e') :
    (e.cur.bitIndex ≠ 0#3 ∧ e.cacheValid = true ∧ e' = e) ∨
    ((e.cur.bitIndex = 0#3 ∨ e.cacheValid = false) ∧ (∀ k < e.planes, e.offset k < e.conf.len.toNat) ∧
      e' = { e with cacheValid := true, cache := e.decodeCache m }) := by
  unfold Bitplane.fill at h
  split at h
  · rename_i hn
    obtain ⟨u, h1, h2⟩ := bind_eq_ok.1 h
    exact .inr ⟨hn, Bitplane.checkPlanes_eq_ok.1 h1, by simpa using h2.symm⟩
  · rename_i hn
    simp only [not_or, Bool.not_eq_false] at hn
    exact .inl ⟨hn.1, hn.2, by simpa using h.symm⟩

/-- A filled cache is valid and configuration and cursor are as before (R208). -/
theorem Bitplane.fill_keeps {e e' : Bitplane} {m : Memory} (h : e.fill m = .ok e') :
    e'.cfg = e.cfg ∧ e'.conf = e.conf ∧ e'.cur = e.cur ∧ e'.cacheValid = true := by
  rcases Bitplane.fill_eq_ok h with ⟨-, h2, rfl⟩ | ⟨-, -, rfl⟩
  · exact ⟨rfl, rfl, rfl, h2⟩
  · exact ⟨rfl, rfl, rfl, rfl⟩

/-- A configuration that succeeds had legal geometry and a window inside MEM, and it changes the engine only (R204). -/
theorem State.configure_eq_ok {s t : State} {base len : Word} {bpb bstride bpln lstride planes pstride : Nat}
    (h : s.configure base len bpb bstride bpln lstride planes pstride = .ok t) :
    (1 ≤ planes ∧ planes ≤ 8) ∧ (bpb ≠ 0 ∧ bpln ≠ 0) ∧
    (bpb < 2 ^ 32 ∧ bstride < 2 ^ 32 ∧ bpln < 2 ^ 32 ∧ lstride < 2 ^ 32 ∧ pstride < 2 ^ 32) ∧
    base.toNat + len.toNat ≤ s.memSize ∧
    t = { s with bpl := { s.bpl with
      cfg := true
      conf := ⟨base, len, BitVec.ofNat 32 bpb, BitVec.ofNat 32 bstride, BitVec.ofNat 32 bpln, BitVec.ofNat 32 lstride,
        BitVec.ofNat 32 planes, BitVec.ofNat 32 pstride⟩
      cur := ⟨0#32, 0#32, 0#32, 0#3⟩
      cacheValid := false } } := by
  unfold State.configure at h
  obtain ⟨u1, h1, h⟩ := bind_eq_ok.1 h
  obtain ⟨u2, h2, h⟩ := bind_eq_ok.1 h
  obtain ⟨u3, h3, h⟩ := bind_eq_ok.1 h
  obtain ⟨u4, h4, h⟩ := bind_eq_ok.1 h
  exact ⟨require_eq_ok.1 h1, require_eq_ok.1 h2, require_eq_ok.1 h3, require_eq_ok.1 h4, by simpa using h.symm⟩

theorem checkPreset_eq_ok {planes width unit : Nat} {u : Unit} :
    checkPreset planes width unit = .ok u ↔ (1 ≤ planes ∧ planes ≤ 8) ∧ width ≠ 0 ∧ width % unit = 0 := by
  unfold checkPreset
  constructor
  · intro h
    obtain ⟨u1, h1, h2⟩ := bind_eq_ok.1 h
    exact ⟨require_eq_ok.1 h1, require_eq_ok.1 h2⟩
  · rintro ⟨h1, h2⟩
    rw [require_of h1, ok_bind, require_of h2]

theorem Bitplane.checkConfigured_eq_ok {e : Bitplane} {u : Unit} : e.checkConfigured = .ok u ↔ e.cfg = true := by
  simp [Bitplane.checkConfigured]

/-- `BPL.WRITE` with no planes stores nothing. -/
@[simp] theorem Bitplane.orPixel_zero (e : Bitplane) (c : Word) (m : Memory) : e.orPixel c 0 m = m := rfl

/-- The stores of `BPL.WRITE`, one plane at a time (R209). -/
theorem Bitplane.orPixel_succ (e : Bitplane) (c : Word) (n : Nat) (m : Memory) :
    e.orPixel c (n + 1) m =
      if c.getLsbD n then
        (e.orPixel c n m).write (e.address n)
          ((e.orPixel c n m).read (e.address n) ||| (0x80#8 >>> e.cur.bitIndex.toNat))
      else e.orPixel c n m := by
  simp [Bitplane.orPixel, List.range_succ, List.foldl_append]

/-- The stores of `BPL.WRITE` reach only the plane bytes at the cursor (R61, R209). -/
theorem Bitplane.read_orPixel_of_ne (e : Bitplane) (c : Word) (n : Nat) (m : Memory) (a : Nat)
    (h : ∀ k < n, a ≠ e.address k) : (e.orPixel c n m).read a = m.read a := by
  induction n with
  | zero => rfl
  | succ n ih =>
    rw [Bitplane.orPixel_succ]
    split
    · rw [Memory.read_write_of_ne _ _ (h n (by omega)), ih fun k hk => h k (by omega)]
    · exact ih fun k hk => h k (by omega)

/-- The stores of `BPL.WRITE` keep the canonical form of MEM. -/
theorem Bitplane.wf_orPixel (e : Bitplane) (c : Word) (n : Nat) (m : Memory) (h : m.wf = true) :
    (e.orPixel c n m).wf = true := by
  induction n with
  | zero => exact h
  | succ n ih =>
    rw [Bitplane.orPixel_succ]
    split
    · exact Memory.wf_write _ _ _ ih
    · exact ih

/-- The stores of `BPL.WRITE` list no address but those of the planes and those already listed. -/
theorem Bitplane.mem_cells_orPixel (e : Bitplane) (c : Word) (n : Nat) (m : Memory) (d : Host.Cell)
    (h : d ∈ (e.orPixel c n m).cells) : (∃ k < n, d.1 = e.address k) ∨ d ∈ m.cells := by
  induction n with
  | zero => exact .inr h
  | succ n ih =>
    rw [Bitplane.orPixel_succ] at h
    split at h
    · rcases Memory.mem_cells_write _ _ _ _ h with h | h
      · exact .inl ⟨n, by omega, h⟩
      · rcases ih h with ⟨k, hk, e⟩ | h
        · exact .inl ⟨k, by omega, e⟩
        · exact .inr h
    · rcases ih h with ⟨k, hk, e⟩ | h
      · exact .inl ⟨k, by omega, e⟩
      · exact .inr h

/-! ### Pixel adapter -/

theorem Adapter.checkBound_eq_ok {x : Adapter} {u : Unit} : x.checkBound = .ok u ↔ x.bound = true := by
  simp [Adapter.checkBound]

theorem Adapter.checkPixel_eq_ok {x : Adapter} {u : Unit} :
    x.checkPixel = .ok u ↔ 4 * x.pos.toNat + 4 ≤ x.len.toNat := by
  simp [Adapter.checkPixel]

/-- A lookup finds the smallest index that holds the value (R262). -/
theorem lookup_eq_some {lut : List Word} {v : Word} {i : Nat} :
    lookup lut v = some i ↔ lut[i]? = some v ∧ ∀ j < i, lut[j]? ≠ some v := by
  unfold lookup
  rw [List.findIdx?_eq_some_iff_getElem]
  constructor
  · rintro ⟨h, h1, h2⟩
    refine ⟨by simpa [h] using h1, fun j hj => ?_⟩
    have := h2 j hj
    simpa [List.getElem?_eq_getElem (show j < lut.length by omega)] using this
  · rintro ⟨h1, h2⟩
    obtain ⟨h, h1⟩ := List.getElem?_eq_some_iff.1 h1
    refine ⟨h, by simpa using h1, fun j hj => ?_⟩
    have := h2 j hj
    simpa [List.getElem?_eq_getElem (show j < lut.length by omega)] using this

/-- A lookup fails when no entry holds the value (R262). -/
theorem lookup_eq_none {lut : List Word} {v : Word} : lookup lut v = none ↔ v ∉ lut := by
  unfold lookup
  rw [List.findIdx?_eq_none_iff]
  constructor
  · intro h hv; simpa using h v hv
  · intro h x hx; simp only [beq_eq_false_iff_ne]; rintro rfl; exact h hx

end Sys2Proof.Machine
end

