-- ==== Sys2Proof/Tests/Slice0.lean ====
section
/-! SUPPORT. The model's own tests: words and vectors of 30_encoding.md, 95_test_vectors.md and the rules' examples, and for each statement with hypotheses a state that meets them. -/

namespace Sys2Proof.Tests

open Sys2Proof.Machine

/-! ### WellFormed: the one check refuses -/

theorem test_wellFormed_bplRaw_past_x15 : (Instr.bplRaw 9).WellFormed = false := by decide
theorem test_wellFormed_bplRaw_last : (Instr.bplRaw 8).WellFormed = true := by decide

/-! ### Decoding: words written out from R91, R92, R95, R96 -/

theorem test_decode_system :
    decode 0x00000000#32 = .ok .nop ∧ decode 0x011FFFFF#32 = .ok (.li 1 0xFFFFF) ∧
    decode 0x02100ABC#32 = .ok (.lih 1 0xABC) ∧ decode 0x03600019#32 = .ok (.crr 6 0x19) ∧
    decode 0x04000000#32 = .ok .reset := by decide

theorem test_decode_palette_access :
    decode 0x10120003#32 = .ok (.palNew 3 1 2) ∧ decode 0x11734560#32 = .ok (.palSet 0 7 3 4 5 6) ∧
    decode 0x12120001#32 = .ok (.palSetrgb 1 1 2 0 0) ∧ decode 0x13711200#32 = .ok (.palGet 0 7 1 1 2 0) ∧
    decode 0x14000301#32 = .ok (.palLen 3 1) ∧ decode 0x15000500#32 = .ok (.palBpc 5 0) ∧
    decode 0x16000300#32 = .ok (.palPlanes 3 0) ∧ decode 0x17200000#32 = .ok (.palChkplanes 0 2) := by decide

theorem test_decode_palette_whole :
    decode 0x18100012#32 = .ok (.palResample 2 1 1) ∧ decode 0x191200F3#32 = .ok (.palToval 3 1 2 7 true) ∧
    decode 0x19120020#32 = .ok (.palToval 0 1 2 2 false) ∧ decode 0x1A340002#32 = .ok (.palFromval 2 3 4) ∧
    decode 0x1B560001#32 = .ok (.palFromimg 1 5 6) := by decide

theorem test_decode_atari :
    decode 0x20123400#32 = .ok (.atrParse4 1 2 3 4) ∧ decode 0x21123400#32 = .ok (.atrParseste 1 2 3 4) ∧
    decode 0x22123002#32 = .ok (.atrMkpal 2 1 2 3) ∧ decode 0x23120001#32 = .ok (.atrWrpal 1 1 2) := by decide

theorem test_decode_bitplane :
    decode 0x30800000#32 = .ok (.bplRaw 8) ∧ decode 0x31123450#32 = .ok (.bplContig 1 2 3 4 5) ∧
    decode 0x32123400#32 = .ok (.bplLine 1 2 3 4) ∧ decode 0x33123400#32 = .ok (.bplWord 1 2 3 4) ∧
    decode 0x34000500#32 = .ok (.bplRead 5) ∧ decode 0x35600000#32 = .ok (.bplWrite 6) ∧
    decode 0x36700000#32 = .ok (.bplAdv 7) := by decide

theorem test_decode_packbits_pixel :
    decode 0x40123400#32 = .ok (.pkbDec 1 2 3 4) ∧ decode 0x41123450#32 = .ok (.pkbEnc 1 2 3 4 5) ∧
    decode 0x509A0000#32 = .ok (.pixBind 0 9 10) ∧ decode 0x51000B00#32 = .ok (.pixRead 11) ∧
    decode 0x52C00000#32 = .ok (.pixWrite 12) ∧ decode 0x53D00000#32 = .ok (.pixAdv 13) ∧
    decode 0x54000002#32 = .ok (.pixSetpal 2) := by decide

/-- The illegal words of 95_test_vectors.md section 2, and why each is illegal (R97). -/
theorem test_decode_refuses :
    [0x05000000#32, 0xFF000000#32].map decode = List.replicate 2 (.error .unassignedOpcode) ∧
    [0x00000001#32, 0x04000001#32, 0x34100500#32, 0x02101000#32, 0x03000100#32, 0x10120010#32, 0x54000010#32,
      0x1200001F#32].map decode = List.replicate 8 (.error .unusedField) ∧
    decode 0x30900000#32 = .error .rawPastLastRegister := by decide

/-- The words of three rows built from the formats' fields (R91, R92). -/
theorem test_encode_words :
    encode (.lih 1 0xABC) = 0x02100ABC#32 ∧ encode (.palResample 2 1 1) = 0x18100012#32 ∧
    encode (.palToval 0 1 2 2 true) = 0x191200A0#32 ∧ encode (.pkbEnc 1 2 3 4 5) = 0x41123450#32 := by decide

/-! ### The states of the tests -/

/-- The start of the vectors of 95_test_vectors.md: reset, MEM_SIZE = 0x10000, every byte 0. -/
def base : State := { State.reset with memTop := 0xFFFF#32, mem := ⟨.filled 0#8, []⟩ }

/-- `s` with registers loaded. -/
def load (s : State) (l : List (Reg × Word)) : State := l.foldl (fun s w => s.setReg w.1 w.2) s

/-- `s` with bytes of MEM from `a` on. -/
def poke (s : State) (a : Nat) (bs : List Byte) : State := { s with mem := s.mem.writeBytes a bs }

/-- The next state of a command; a command always has one (R297). -/
def after (o : Host.Outcome State Fault Refusal) : State :=
  match o with
  | .next t => t
  | _ => base

/-- ERRCODE and ERRVAL after a command that raises, none after one that completes. -/
def raised (o : Host.Outcome State Fault Refusal) : Option (Word × Word) :=
  if (after o).halt then some ((after o).errcode, (after o).errval) else none

/-- A 3-bit palette of two entries. -/
def pal3 : Palette := ⟨3, [⟨7, 0, 3, 7⟩, ⟨1, 2, 4, 5⟩]⟩

/-- A 4-bit palette of two entries. -/
def pal4 : Palette := ⟨4, [⟨1, 2, 3, 15⟩, ⟨15, 0, 0, 15⟩]⟩

/-- An 8-bit palette of four entries: black, red, green, white. -/
def pal8 : Palette := ⟨8, [⟨0, 0, 0, 255⟩, ⟨255, 0, 0, 255⟩, ⟨0, 255, 0, 255⟩, ⟨255, 255, 255, 255⟩]⟩

/-- The three palettes in slots 0, 1 and 2; slot 3 is empty. -/
def paletted : State := ((base.setSlot 0 pal3).setSlot 1 pal4).setSlot 2 pal8

/-- The word-interleaved engine of R203 and R207 with 4 planes over 8 bytes. -/
def engine : Bitplane := { Bitplane.reset with cfg := true, conf := ⟨0x100, 8, 2, 8, 2, 16, 4, 2⟩ }

/-- The plane bytes of R207's example, with the engine over them. -/
def planar : State := { poke base 0x100 [0xFF, 0xFF] with bpl := engine }

/-- The adapter of R262's example over two pixels. -/
def adapted : State := { poke paletted 0x200 [0x00, 0xFF, 0x00, 0xFF, 0x00, 0xFF, 0x00, 0xFE] with
  pix := ⟨true, 0x200, 8, 0, 2, [0x000000FF, 0xFF0000FF, 0x00FF00FF, 0xFFFFFFFF]⟩ }

/-! ### System instructions -/

theorem test_nop : (after (exec .nop { base with seq := 5 })).seq = 6 ∧ (after (exec .nop base)).regs = base.regs := by
  decide
theorem test_li : (after (exec (.li 1 0xFFFFF) base)).reg 1 = 0x000FFFFF#32 := by decide
theorem test_li_x0 : (after (exec (.li 0 5) base)).reg 0 = 0#32 ∧ (after (exec (.li 0 5) base)).seq = 1 := by decide
theorem test_lih : (after (exec (.lih 1 0x123) (load base [(1, 0x00045678)]))).reg 1 = 0x12345678#32 := by decide
theorem test_crr_seq : (after (exec (.crr 2 3) { base with seq := 4 })).reg 2 = 4#32 ∧
    (after (exec (.crr 2 3) { base with seq := 4 })).seq = 5 := by decide
theorem test_crr_bad : raised (exec (.crr 2 0x1C) base) = some (0x0605, 0x1C) := by decide
theorem test_reset : let t := after (step { paletted with halt := true, seq := 7, pending := [.command 0x04000000] })
    t.seq = 0 ∧ t.halt = false ∧ t.status = 0 ∧ t.mem = paletted.mem := by decide
theorem test_status : paletted.status = 0x70#32 ∧ planar.status = 0x02#32 ∧ adapted.status = 0x74#32 := by decide

/-! ### Palette unit -/

theorem test_palNew : (after (exec (.palNew 3 1 2) (load base [(1, 256), (2, 1)]))).status = 0x80#32 := by decide
theorem test_palNew_order : raised (exec (.palNew 0 1 2) (load base [(1, 257), (2, 9)])) = some (0x0403, 9) := by decide
theorem test_palSet_clamps :
    (after (exec (.palSet 0 0 3 4 5 6) (load paletted [(3, 9), (4, 0xFFFFFFFF), (5, 5), (6, 7)]))).slot 0 =
      some ⟨3, [⟨7, 0, 5, 7⟩, ⟨1, 2, 4, 5⟩]⟩ := by decide
theorem test_palSet_bad_index : raised (exec (.palSet 0 7 3 4 5 6) (load paletted [(7, 2)])) = some (0x0603, 2) := by decide
theorem test_palSetrgb : (after (exec (.palSetrgb 1 1 2 0 0) (load paletted [(1, 1), (2, 99)]))).slot 1 =
    some ⟨4, [⟨1, 2, 3, 15⟩, ⟨15, 0, 0, 15⟩]⟩ := by decide
theorem test_palGet_same_destination : let t := after (exec (.palGet 0 7 7 7 2 0) (load paletted [(7, 1)]))
    t.reg 7 = 2#32 ∧ t.reg 2 = 4#32 ∧ t.reg 0 = 0#32 := by decide
theorem test_palLen : (after (exec (.palLen 4 2) paletted)).reg 4 = 4#32 := by decide
theorem test_palLen_empty : raised (exec (.palLen 3 3) paletted) = some (0x0305, 3) := by decide
theorem test_palBpc : (after (exec (.palBpc 5 0) paletted)).reg 5 = 3#32 := by decide
theorem test_palPlanes : (after (exec (.palPlanes 3 2) paletted)).reg 3 = 2#32 := by decide
theorem test_palPlanes_not_power :
    raised (exec (.palPlanes 3 0) (base.setSlot 0 ⟨1, List.replicate 12 ⟨0, 0, 0, 1⟩⟩)) = some (0x0103, 12) := by decide
theorem test_palChkplanes : raised (exec (.palChkplanes 2 1) (load paletted [(1, 2)])) = none ∧
    raised (exec (.palChkplanes 2 1) (load paletted [(1, 1)])) = some (0x0203, 4) := by decide
theorem test_palResample : (after (exec (.palResample 3 0 1) (load paletted [(1, 8)]))).slot 3 =
    some ⟨8, [⟨255, 0, 109, 255⟩, ⟨36, 73, 146, 182⟩]⟩ := by decide
theorem test_palResample_in_place : (after (exec (.palResample 0 0 1) (load paletted [(1, 4)]))).slot 0 =
    some ⟨4, [⟨15, 0, 6, 15⟩, ⟨2, 4, 9, 11⟩]⟩ := by decide
theorem test_palToval : (after (exec (.palToval 0 1 2 2 false) (load (base.setSlot 0 ⟨3, [⟨7, 0, 0, 7⟩]⟩)
    [(1, 0x400), (2, 4)]))).mem.readBytes 0x400 4 = [0x00, 0x00, 0x01, 0xC0] := by decide
theorem test_palToval_alpha : (after (exec (.palToval 0 1 2 2 true) (load (base.setSlot 0 ⟨3, [⟨7, 0, 0, 7⟩]⟩)
    [(1, 0x400), (2, 4)]))).mem.readBytes 0x400 4 = [0x00, 0x00, 0x0E, 0x07] := by decide
theorem test_palFromval : (after (exec (.palFromval 3 1 2) (load (poke base 0x400 [0x12, 0x34, 0x56, 0x78])
    [(1, 0x400), (2, 1)]))).slot 3 = some ⟨8, [⟨0x12, 0x34, 0x56, 0x78⟩]⟩ := by decide
theorem test_palFromimg : (after (exec (.palFromimg 3 1 2) (load (poke base 0x400
    [255, 0, 0, 255, 0, 255, 0, 255, 255, 0, 0, 255]) [(1, 0x400), (2, 12)]))).slot 3 =
      some ⟨8, [⟨255, 0, 0, 255⟩, ⟨0, 255, 0, 255⟩]⟩ := by decide
theorem test_palFromimg_odd : raised (exec (.palFromimg 3 1 2) (load base [(1, 0x400), (2, 6)])) = some (0x0801, 6) := by
  decide

/-! ### Atari colour codec -/

theorem test_atrParse4 : let t := after (exec (.atrParse4 1 2 3 4) (load base [(1, 0xF789)]))
    t.reg 2 = 7#32 ∧ t.reg 3 = 8#32 ∧ t.reg 4 = 9#32 := by decide
theorem test_atrParseste : let t := after (exec (.atrParseste 1 1 3 4) (load base [(1, 0x089A)]))
    t.reg 1 = 1#32 ∧ t.reg 3 = 3#32 ∧ t.reg 4 = 5#32 := by decide
theorem test_atrMkpal_st : (after (exec (.atrMkpal 3 1 2 3) (load (poke base 0x400 [0, 0, 7, 0, 0, 0x70, 7, 0x77])
    [(1, 0x400), (2, 8), (3, 4)]))).slot 3 = some ⟨3, [⟨0, 0, 0, 7⟩, ⟨7, 0, 0, 7⟩, ⟨0, 7, 0, 7⟩, ⟨7, 7, 7, 7⟩]⟩ := by decide
theorem test_atrMkpal_ste : (after (exec (.atrMkpal 3 1 2 3) (load (poke base 0x400 [7, 0, 0xF, 0])
    [(1, 0x400), (2, 4), (3, 2)]))).slot 3 = some ⟨4, [⟨14, 0, 0, 15⟩, ⟨15, 0, 0, 15⟩]⟩ := by decide
theorem test_atrWrpal : (after (exec (.atrWrpal 1 1 2) (load paletted [(1, 0x400), (2, 4)]))).mem.readBytes 0x400 4 =
    [0x08, 0x19, 0x0F, 0x00] := by decide
theorem test_atrWrpal_depth : raised (exec (.atrWrpal 2 1 2) (load paletted [(1, 0x400), (2, 8)])) = some (0x0303, 8) := by
  decide

/-! ### Bitplane engine -/

theorem test_bplRaw : (after (exec (.bplRaw 1) (load base [(1, 0x100), (2, 8), (3, 2), (4, 8), (5, 2), (6, 16), (7, 4),
    (8, 2)]))).bpl.conf = engine.conf := by decide
theorem test_bplRaw_planes : raised (exec (.bplRaw 1) (load base [(1, 0x100), (2, 8), (3, 2), (4, 8), (5, 2), (6, 16),
    (7, 9), (8, 2)])) = some (0x0703, 0) := by decide
theorem test_bplContig : let t := after (exec (.bplContig 1 2 3 4 5) (load base [(1, 0x100), (2, 8), (3, 2), (4, 16), (5, 2)]))
    t.bpl.conf = ⟨0x100, 8, 4, 0, 1, 0, 2, 4⟩ ∧ t.bpl.cfg = true := by decide
theorem test_bplLine : (after (exec (.bplLine 1 2 3 4) (load base [(1, 0x100), (2, 8), (3, 2), (4, 16)]))).bpl.conf =
    ⟨0x100, 8, 2, 0, 1, 4, 2, 2⟩ := by decide
theorem test_bplWord : (after (exec (.bplWord 1 2 3 4) (load base [(1, 0x100), (2, 8), (3, 4), (4, 16)]))).bpl.conf =
    engine.conf := by decide
theorem test_bplWord_width : raised (exec (.bplWord 1 2 3 4) (load base [(1, 0x100), (2, 8), (3, 4), (4, 24)])) =
    some (0x0703, 0) := by decide
theorem test_bplRead : let t := after (exec (.bplRead 5) planar)
    t.reg 5 = 1#32 ∧ t.bpl.cur = ⟨0, 0, 0, 1⟩ ∧ t.bpl.cacheValid = true := by decide
theorem test_bplRead_planes : let e : Bitplane := { Bitplane.reset with cfg := true, conf := ⟨0x100, 2, 1, 0, 1, 0, 2, 1⟩ }
    let s : State := { poke base 0x100 [0xAA, 0xCC] with bpl := { e with cur := ⟨0, 0, 0, 1⟩ } }
    (after (exec (.bplRead 5) s)).reg 5 = 2#32 := by decide
theorem test_bplWrite : let t := after (exec (.bplWrite 5) (load { base with bpl := engine } [(5, 5)]))
    t.mem.readBytes 0x100 8 = [0x80, 0, 0, 0, 0x80, 0, 0, 0] ∧ t.bpl.cur = ⟨0, 0, 0, 1⟩ := by decide
theorem test_bplWrite_address : raised (exec (.bplWrite 5) { base with bpl := { engine with cur := ⟨0, 1, 0, 0⟩ } }) =
    some (0x0201, 8) := by decide
theorem test_bplAdv :
    let e : Bitplane := { engine with conf := ⟨0x100, 8, 2, 0, 1, 4, 2, 2⟩, cur := ⟨1, 0, 3, 4⟩ }
    (after (exec (.bplAdv 5) (load { base with bpl := e } [(5, 4)]))).bpl.cur = ⟨0, 0, 4, 0⟩ := by decide
theorem test_bplAdv_unconfigured : raised (exec (.bplAdv 5) base) = some (0x0405, 0) := by decide

/-! ### Packbits -/

theorem test_unpack : unpack [0x80, 0x02, 0x11, 0x22, 0x33] 3 = .ok [0x11, 0x22, 0x33] ∧
    unpack [0xFE, 0x99] 2 = .error ⟨.dstOverrun, 0⟩ := by decide
theorem test_pack : pack [0x01, 0x02, 0x02, 0x03] = [0x00, 0x01, 0xFF, 0x02, 0x00, 0x03] ∧
    pack [0xAA, 0xAA, 0xAA, 0x80, 0x00, 0x2A, 0xAA, 0xAA, 0xAA, 0xAA] =
      [0xFE, 0xAA, 0x02, 0x80, 0x00, 0x2A, 0xFD, 0xAA] := by decide
theorem test_pkbDec : (after (exec (.pkbDec 1 2 3 4) (load (poke base 0x200 [0xFE, 0x99])
    [(1, 0x200), (2, 2), (3, 0x300), (4, 3)]))).mem.readBytes 0x300 4 = [0x99, 0x99, 0x99, 0x00] := by decide
theorem test_pkbDec_overlap : raised (exec (.pkbDec 1 2 3 4) (load base [(1, 0x200), (2, 2), (3, 0x201), (4, 3)])) =
    some (0x0705, 0) := by decide
theorem test_pkbEnc : let t := after (exec (.pkbEnc 1 2 3 4 5) (load (poke base 0x200 [0x11, 0x22, 0x33])
    [(1, 0x200), (2, 3), (3, 0x300), (4, 5)]))
    t.mem.readBytes 0x300 5 = [0x02, 0x11, 0x22, 0x33, 0x00] ∧ t.reg 5 = 4#32 := by decide
theorem test_pkbEnc_small : raised (exec (.pkbEnc 1 2 3 4 5) (load (poke base 0x200 [0x11, 0x22, 0x33])
    [(1, 0x200), (2, 3), (3, 0x300), (4, 3)])) = some (0x0501, 4) := by decide

/-! ### Pixel adapter -/

theorem test_pixBind : let t := after (exec (.pixBind 2 9 10) (load paletted [(9, 0x200), (10, 8)]))
    t.pix = { adapted.pix with base := 0x200, len := 8 } := by decide
theorem test_pixRead : let t := after (exec (.pixRead 5) adapted)
    t.reg 5 = 2#32 ∧ t.pix.pos = 1#32 := by decide
theorem test_pixRead_no_match : raised (exec (.pixRead 5) { adapted with pix := { adapted.pix with pos := 1 } }) =
    some (0x0002, 0x00FF00FE) := by decide
theorem test_pixWrite : let t := after (exec (.pixWrite 5) (load adapted [(5, 1)]))
    t.mem.readBytes 0x200 5 = [0xFF, 0x00, 0x00, 0xFF, 0x00] ∧ t.pix.pos = 1#32 := by decide
theorem test_pixWrite_index_first : raised (exec (.pixWrite 5) (load { adapted with pix := { adapted.pix with pos := 2 } }
    [(5, 4)])) = some (0x0603, 4) := by decide
theorem test_pixAdv : (after (exec (.pixAdv 5) (load { adapted with pix := { adapted.pix with pos := 3 } } [(5, 5)]))).pix.pos =
    8#32 := by decide
theorem test_pixAdv_overflow : raised (exec (.pixAdv 5) (load { adapted with pix := { adapted.pix with pos := 1 } }
    [(5, 0xFFFFFFFF)])) = some (0x0701, 1) := by decide
theorem test_pixSetpal : (after (exec (.pixSetpal 0) adapted)).pix =
    { adapted.pix with pal := 0, lut := [0xFF006DFF, 0x244992B6] } := by decide

/-! ### The host's list -/

theorem test_step_from_reset : (after (step (State.reset.withFetchWord 32 0x01400010))).reg 4 = 0x10#32 := by decide
theorem test_halted_discards : let s : State := { base with halt := true, errcode := 0x0405, pending := [.command 0x01100005] }
    after (step s) = { s with pending := [] } := by decide
theorem test_host_store : (after (step { base with pending := [.store 0xFFFF 0x5A] })).mem.cells = [(0xFFFF, 0x5A)] := by
  decide

/-! ## Witnesses: for each statement with hypotheses, a state and operands that meet them, at the boundaries of its clauses -/

/-- The end of a command is the next state that `after` gives. -/
theorem exec_after_commit {s : State} {r : Except Err State} : commit s r = .next (after (commit s r)) := by
  cases r <;> rfl

theorem pal3_ok : pal3.Ok := by unfold Palette.Ok Color.Ok; decide
theorem pal4_ok : pal4.Ok := by unfold Palette.Ok Color.Ok; decide
theorem pal8_ok : pal8.Ok := by unfold Palette.Ok Color.Ok; decide

/-! ### Encoding and the step -/

theorem witness_DecodeOfEncode : (Instr.bplRaw 8).WellFormed = true ∧ Instr.nop.WellFormed = true := by decide
theorem witness_EncodeOfDecoded : decode 0x30800000#32 = .ok (.bplRaw 8) := by decide
theorem witness_IllegalWordRaises_no_row : base.halt = false ∧
    (∀ row ∈ opRows, 0x05000000#32 &&& row.mask ≠ row.fixed) ∧ (∀ row ∈ opRows, 0x02101000#32 &&& row.mask ≠ row.fixed) := by
  decide
theorem witness_IllegalWordRaises_raw : 0x30900000#32 &&& 0xFF000000#32 = 0x30000000#32 ∧
    8 < (raField 0x30900000#32).toNat := by decide
theorem witness_StepRunsDecodedInstruction : let s : State := { base with pending := [.command 0x01400010] }
    s.halt = false ∧ s.pending = .command 0x01400010 :: [] ∧ decode 0x01400010#32 = .ok (.li 4 16) := by decide
theorem witness_HaltedDiscardsCommands : let s : State := { base with halt := true, pending := [.command 0x04000001] }
    s.halt = true ∧ 0x04000001#32 ≠ 0x04000000#32 ∧ s.pending = .command 0x04000001 :: [] := by decide
theorem witness_ResetInstruction : let s : State := { paletted with halt := true, pending := [.command 0x04000000] }
    s.pending = .command 0x04000000#32 :: [] := by decide
theorem witness_HardwareResetState : let s : State := { paletted with pending := [.hardwareReset] }
    s.pending = .hardwareReset :: [] ∧ (after (step s)).mem = ⟨.unspecified 0, []⟩ := by decide
theorem witness_HostWritesOneByte : let s : State := { base with pending := [.store 0xFFFF 1] }
    s.pending = .store 0xFFFF 1 :: [] ∧ 0xFFFF < s.memSize := by decide

/-! ### System and palette -/

theorem witness_CrrReadsControlRegisters : raised (exec (.crr 2 0x24) adapted) = none ∧
    raised (exec (.crr 2 0x1B) adapted) = none ∧ raised (exec (.crr 2 0x04) adapted) = some (0x0605, 0x04) ∧
    raised (exec (.crr 2 0x25) adapted) = some (0x0605, 0x25) := by decide
theorem witness_SlotChecksRaise : 4 ≤ (4#4).toNat ∧ 4 ≤ (15#4).toNat ∧ (3#4).toNat < 4 ∧ adapted.slotAt 3 = none ∧
    adapted.pix.bound = true := by decide
theorem witness_SlotChecksRaise_unbound : paletted.pix.bound = false ∧
    raised (exec (.pixSetpal 4) paletted) = some (0x0505, 0) ∧ raised (exec (.pixSetpal 3) paletted) = some (0x0505, 0) ∧
    raised (exec (.pixSetpal 4) adapted) = some (0x0205, 4) ∧ raised (exec (.pixSetpal 3) adapted) = some (0x0305, 3) := by
  decide
theorem witness_PalNewOutcome : (3#4).toNat < 4 ∧
    raised (exec (.palNew 3 1 2) (load base [(1, 4), (2, 0)])) = some (0x0403, 0) ∧
    raised (exec (.palNew 3 1 2) (load base [(1, 4), (2, 9)])) = some (0x0403, 9) ∧
    raised (exec (.palNew 3 1 2) (load base [(1, 257), (2, 8)])) = some (0x0503, 257) ∧
    raised (exec (.palNew 3 1 2) (load base [(1, 256), (2, 8)])) = none := by decide
theorem witness_PalSetOutcome : paletted.slotAt 0 = some pal3 ∧ pal3.bpc ≤ 8 ∧
    raised (exec (.palSet 0 1 2 3 4 5) (load paletted [(1, 2)])) = some (0x0603, 2) ∧
    raised (exec (.palSetrgb 0 1 2 3 4) (load paletted [(1, 2)])) = some (0x0603, 2) ∧
    raised (exec (.palSet 0 1 2 3 4 5) (load paletted [(1, 1)])) = none ∧
    raised (exec (.palSetrgb 0 1 2 3 4) (load paletted [(1, 1)])) = none := by decide
theorem witness_PalGetOutcome : paletted.slotAt 0 = some pal3 ∧ pal3.ents[1]? = some ⟨1, 2, 4, 5⟩ ∧ pal3.ents.length ≤ 2 := by
  decide
theorem witness_PalLenBpcOutcome : paletted.slotAt 2 = some pal8 := by decide
theorem witness_PalPlanesOutcome : paletted.slotAt 2 = some pal8 ∧ pal8.ents.length = 2 ^ 2 := by decide
theorem witness_PalPlanesOutcome_not_power :
    (base.setSlot 0 ⟨1, List.replicate 12 ⟨0, 0, 0, 1⟩⟩).slotAt 0 = some ⟨1, List.replicate 12 ⟨0, 0, 0, 1⟩⟩ ∧
    ∀ n, (List.replicate 12 (⟨0, 0, 0, 1⟩ : Color)).length ≠ 2 ^ n := by
  refine ⟨by decide, fun n h => ?_⟩
  have hn : n < 4 := by
    by_contra hn
    have := Nat.pow_le_pow_right (n := 2) (by decide) (Nat.le_of_not_lt hn)
    simp only [List.length_replicate] at h
    omega
  interval_cases n <;> simp at h
theorem witness_PalChkplanesOutcome : paletted.slotAt 2 = some pal8 ∧
    2 ^ ((load paletted [(1, 1)]).reg 1).toNat < pal8.ents.length ∧
    pal8.ents.length ≤ 2 ^ ((load paletted [(1, 2)]).reg 1).toNat := by decide
theorem witness_PalResampleOutcome : (3#4).toNat < 4 ∧ paletted.slotAt 0 = some pal3 ∧
    raised (exec (.palResample 3 0 1) (load paletted [(1, 0)])) = some (0x0403, 0) ∧
    raised (exec (.palResample 3 0 1) (load paletted [(1, 9)])) = some (0x0403, 9) ∧
    raised (exec (.palResample 3 0 1) (load paletted [(1, 1)])) = none ∧
    raised (exec (.palResample 3 0 1) (load paletted [(1, 8)])) = none := by decide
/-- The tables of R150. -/
theorem witness_RescaleRoundsHalfUp : 7 ≤ 2 ^ 3 - 1 ∧
    (List.range 8).map (rs · 3 8) = [0, 36, 73, 109, 146, 182, 219, 255] ∧
    (List.range 16).map (rs · 4 3) = [0, 0, 1, 1, 2, 2, 3, 3, 4, 4, 5, 5, 6, 6, 7, 7] := by decide
theorem witness_ResampleUpAndDown : pal3.bpc ≤ 8 ∧ 7 ≤ 2 ^ 3 - 1 ∧ rs (rs 7 3 8) 8 3 = 7 ∧ rs (rs 100 8 1) 1 8 ≠ 100 := by
  decide
theorem witness_PalTovalOutcome : paletted.slotAt 2 = some pal8 ∧
    raised (exec (.palToval 2 1 2 7 true) (load paletted [(1, 0xFFF0), (2, 17)])) = some (0x0101, 0xFFF0) ∧
    raised (exec (.palToval 2 1 2 7 true) (load paletted [(1, 0xFFF0), (2, 15)])) = some (0x0501, 16) ∧
    raised (exec (.palToval 2 1 2 7 true) (load paletted [(1, 0xFFF0), (2, 16)])) = none := by decide
theorem witness_PalFromvalOutcome : (3#4).toNat < 4 ∧
    raised (exec (.palFromval 3 1 2) (load base [(1, 0), (2, 257)])) = some (0x0503, 257) ∧
    raised (exec (.palFromval 3 1 2) (load base [(1, 0xFFF9), (2, 2)])) = some (0x0101, 0xFFF9) ∧
    raised (exec (.palFromval 3 1 2) (load base [(1, 0xFFF8), (2, 2)])) = none := by decide
theorem witness_PalFromimgOutcome : (3#4).toNat < 4 ∧
    raised (exec (.palFromimg 3 1 2) (load base [(1, 0xFFF9), (2, 8)])) = some (0x0101, 0xFFF9) ∧
    raised (exec (.palFromimg 3 1 2) (load base [(1, 0xFFF8), (2, 7)])) = some (0x0801, 7) ∧
    raised (exec (.palFromimg 3 1 2) (load base [(1, 0xFFF8), (2, 8)])) = none := by decide
set_option maxRecDepth 20000 in
/-- 256 distinct words are taken, the 257th distinct one is reported with its number (R153). -/
theorem witness_PalFromimgOutcome_colors :
    distinctPixels [7#32] 300 ((List.range 256).map fun i => BitVec.ofNat 32 (i + 8)) = .error ⟨.tooManyColors, 300⟩ ∧
    distinctPixels [8#32] 300 ((List.range 256).map fun i => BitVec.ofNat 32 (i + 8)) =
      .ok ((List.range 256).map fun i => BitVec.ofNat 32 (i + 8)) := by decide
theorem witness_ValueArrayRoundTrip : let s := load paletted [(1, 0x400), (2, 16), (3, 4)]
    s.slotAt 2 = some pal8 ∧ pal8.bpc = 8 ∧ (3#4).toNat < 4 ∧ (s.reg 3).toNat = pal8.ents.length ∧
    4 * pal8.ents.length ≤ (s.reg 2).toNat ∧ (s.reg 1).toNat + (s.reg 2).toNat ≤ s.memSize ∧
    raised (exec (.palToval 2 1 2 7 true) s) = none := by decide

/-! ### Atari colours -/

theorem witness_AtrMkpalOutcome : (3#4).toNat < 4 ∧
    raised (exec (.atrMkpal 3 1 2 3) (load base [(1, 0), (2, 600), (3, 257)])) = some (0x0503, 257) ∧
    raised (exec (.atrMkpal 3 1 2 3) (load base [(1, 0xFFFD), (2, 4), (3, 2)])) = some (0x0101, 0xFFFD) ∧
    raised (exec (.atrMkpal 3 1 2 3) (load base [(1, 0xFFFC), (2, 3), (3, 2)])) = some (0x0801, 4) ∧
    raised (exec (.atrMkpal 3 1 2 3) (load base [(1, 0xFFFC), (2, 4), (3, 2)])) = none := by decide
theorem witness_AtrWrpalOutcome : paletted.slotAt 1 = some pal4 ∧
    raised (exec (.atrWrpal 1 1 2) (load paletted [(1, 0xFFFD), (2, 4)])) = some (0x0101, 0xFFFD) ∧
    raised (exec (.atrWrpal 1 1 2) (load paletted [(1, 0xFFFC), (2, 3)])) = some (0x0501, 4) ∧
    raised (exec (.atrWrpal 1 1 2) (load paletted [(1, 0xFFFC), (2, 4)])) = none := by decide
theorem witness_AtariRoundTrip : let s := load paletted [(1, 0x400), (2, 4), (3, 2)]
    (s.slotAt 0 = some pal3 ∧ pal3.bpc = 3) ∧ (s.slotAt 1 = some pal4 ∧ pal4.bpc = 4) ∧ (3#4).toNat < 4 ∧
    (s.reg 3).toNat = pal4.ents.length ∧ 2 * pal4.ents.length ≤ (s.reg 2).toNat ∧
    (s.reg 1).toNat + (s.reg 2).toNat ≤ s.memSize ∧ raised (exec (.atrWrpal 1 1 2) s) = none ∧
    (∃ c ∈ pal4.ents, c.r.toNat % 2 = 1 ∨ c.g.toNat % 2 = 1 ∨ c.b.toNat % 2 = 1) := by decide
theorem witness_AtariRoundTrip_even : let P : Palette := ⟨4, [⟨2, 4, 14, 15⟩]⟩
    let s := load (base.setSlot 1 P) [(1, 0x400), (2, 2), (3, 1)]
    s.slotAt 1 = some P ∧ P.bpc = 4 ∧ (3#4).toNat < 4 ∧ (s.reg 3).toNat = P.ents.length ∧
    2 * P.ents.length ≤ (s.reg 2).toNat ∧ (s.reg 1).toNat + (s.reg 2).toNat ≤ s.memSize ∧
    raised (exec (.atrWrpal 1 1 2) s) = none ∧
    (¬ ∃ c ∈ P.ents, c.r.toNat % 2 = 1 ∨ c.g.toNat % 2 = 1 ∨ c.b.toNat % 2 = 1) ∧
    (after (exec (.atrMkpal 3 1 2 3) (after (exec (.atrWrpal 1 1 2) s)))).slot 3 = some ⟨3, [⟨1, 2, 7, 7⟩]⟩ := by decide
theorem witness_AtariRoundTrip_even_ok : (⟨4, [⟨2, 4, 14, 15⟩]⟩ : Palette).Ok := by unfold Palette.Ok Color.Ok; decide

/-! ### Bitplane engine -/

/-- An engine at the last pixel it can reach, the window still holding its bytes (R202, R205). -/
def lastPixel : Bitplane := { engine with conf := ⟨0x100, 8, 1, 0, 1, 0, 1, 1⟩, cur := ⟨0, 0, 0xFFFFFFFF, 7⟩ }

theorem witness_BplRawConfigures : (8#4).toNat ≤ 8 ∧ (0#4).toNat ≤ 8 := by decide
theorem witness_PresetsConfigure :
    raised (exec (.bplContig 1 2 3 4 5) (load base [(2, 64), (3, 8), (4, 8), (5, 0)])) = some (0x0703, 0) ∧
    raised (exec (.bplContig 1 2 3 4 5) (load base [(2, 64), (3, 8), (4, 8), (5, 1)])) = none ∧
    raised (exec (.bplLine 1 2 3 4) (load base [(2, 64), (3, 9), (4, 16)])) = some (0x0703, 0) ∧
    raised (exec (.bplLine 1 2 3 4) (load base [(1, 0xFFFF), (2, 2), (3, 8), (4, 16)])) = some (0x0101, 0xFFFF) ∧
    raised (exec (.bplWord 1 2 3 4) (load base [(1, 0xFFFF), (2, 1), (3, 1), (4, 16)])) = none := by decide
theorem witness_PresetAddressing :
    let s := load base [(1, 0x100), (2, 8), (3, 2), (4, 16), (5, 2)]
    let contig := after (exec (.bplContig 1 2 3 4 5) s)
    let line := after (exec (.bplLine 1 2 3 4) s)
    let word := after (exec (.bplWord 1 2 3 4) s)
    contig.halt = false ∧ contig.bpl.advanceCursor 31 = .ok ⟨3, 0, 0, 7⟩ ∧
    line.halt = false ∧ line.bpl.advanceCursor 31 = .ok ⟨1, 0, 1, 7⟩ ∧
    word.halt = false ∧ word.bpl.advanceCursor 31 = .ok ⟨1, 1, 0, 7⟩ := by decide
theorem witness_AdvanceIsRepeatedStep : engine.CursorOk ∧ lastPixel.CursorOk := by unfold Bitplane.CursorOk; decide
theorem witness_CursorStepRule :
    ({ engine with cur := ⟨0, 0, 0, 6⟩ } : Bitplane).stepCursor = .ok ⟨0, 0, 0, 7⟩ ∧
    ({ engine with cur := ⟨0, 0, 0, 7⟩ } : Bitplane).stepCursor = .ok ⟨1, 0, 0, 0⟩ ∧
    ({ engine with cur := ⟨1, 0, 0, 7⟩ } : Bitplane).stepCursor = .ok ⟨0, 1, 0, 0⟩ ∧
    ({ engine with cur := ⟨1, 1, 0xFFFFFFFE, 7⟩ } : Bitplane).stepCursor = .ok ⟨0, 0, 0xFFFFFFFF, 0⟩ ∧
    lastPixel.stepCursor = .error ⟨.bplLineOvf, 0⟩ := by decide
theorem witness_BplReadOutcome_unconfigured : base.bpl.cfg = false := by decide
theorem witness_BplReadOutcome_address : let e : Bitplane := { engine with conf := { engine.conf with len := 6 } }
    e.cfg = true ∧ e.NeedsFill ∧ 3 < e.planes ∧ e.conf.len.toNat ≤ e.offset 3 ∧ (∀ j < 3, e.offset j < e.conf.len.toNat) := by
  unfold Bitplane.NeedsFill; decide
theorem witness_BplReadOutcome_last : lastPixel.cfg = true ∧ lastPixel.AtLastPixel ∧
    (∀ k < lastPixel.planes, lastPixel.offset k < lastPixel.conf.len.toNat) := by unfold Bitplane.AtLastPixel; decide
theorem witness_BplReadOutcome_fill : engine.cfg = true ∧ engine.NeedsFill ∧ ¬ engine.AtLastPixel ∧ engine.planes ≤ 8 ∧
    (∀ k < engine.planes, engine.offset k < engine.conf.len.toNat) := by
  unfold Bitplane.NeedsFill Bitplane.AtLastPixel; decide
theorem witness_BplReadOutcome_cached : let e : Bitplane := { engine with cacheValid := true, cur := ⟨0, 0, 0, 1⟩ }
    e.cfg = true ∧ ¬ e.NeedsFill ∧ ¬ e.AtLastPixel ∧ e.planes ≤ 8 := by
  unfold Bitplane.NeedsFill Bitplane.AtLastPixel; decide
theorem witness_BplWriteOutcome : engine.cfg = true ∧ ¬ engine.AtLastPixel ∧
    (∀ k < engine.planes, engine.offset k < engine.conf.len.toNat) ∧
    raised (exec (.bplWrite 5) { base with bpl := lastPixel }) = some (0x0301, 0) ∧
    raised (exec (.bplWrite 5) { base with bpl := { engine with conf := { engine.conf with len := 6 } } }) =
      some (0x0201, 6) := by unfold Bitplane.AtLastPixel; decide
theorem witness_BplAdvOutcome : engine.cfg = true ∧ engine.CursorOk ∧ Bitplane.steps 1 engine = .ok ⟨0, 0, 0, 1⟩ ∧
    lastPixel.cfg = true ∧ lastPixel.CursorOk ∧ Bitplane.steps 1 lastPixel = .error ⟨.bplLineOvf, 0⟩ ∧
    (base.reg 0).toNat = 0 := by unfold Bitplane.CursorOk; decide
theorem witness_WriteThenReadPixel : let s := load { base with bpl := engine } [(5, 5)]
    s.bpl.cfg = true ∧ s.bpl.planes ≤ 8 ∧ ¬ s.bpl.AtLastPixel ∧
    (∀ k < s.bpl.planes, s.bpl.offset k < s.bpl.conf.len.toNat) ∧
    (∀ k < s.bpl.planes, ∀ j < k, s.bpl.address j ≠ s.bpl.address k) ∧
    (∀ k < s.bpl.planes, (s.mem.read (s.bpl.address k)).getLsbD (7 - s.bpl.cur.bitIndex.toNat) = false) ∧
    (6#4 : Reg) ≠ 0#4 ∧ raised (exec (.bplWrite 5) s) = none := by unfold Bitplane.AtLastPixel; decide

/-! ### Packbits -/

/-- How a decode of a window ends, with `bs` at 0x200. -/
def decEnds (src sl dst n : Word) (bs : List Byte) : Option (Word × Word) :=
  raised (exec (.pkbDec 1 2 3 4) (load (poke base 0x200 bs) [(1, src), (2, sl), (3, dst), (4, n)]))

/-- How an encoding of a window ends, with the bytes 1, 2 at 0x200. -/
def encEnds (src sl dst n : Word) : Option (Word × Word) :=
  raised (exec (.pkbEnc 1 2 3 4 5) (load (poke base 0x200 [1, 2]) [(1, src), (2, sl), (3, dst), (4, n)]))

theorem witness_PkbDecOutcome :
    decEnds 0xFFFF 2 0x300 3 [] = some (0x0101, 0xFFFF) ∧ decEnds 0x200 2 0xFFFE 3 [] = some (0x0101, 0xFFFE) ∧
    decEnds 0x200 2 0x1FE 3 [] = some (0x0705, 0) ∧ decEnds 0x200 2 0x1FD 3 [0xFE, 0x99] = none ∧
    decEnds 0x200 2 0x202 3 [0xFE, 0x99] = none ∧ decEnds 0x200 1 0x300 3 [0xFE] = some (0x0401, 0) ∧
    decEnds 0x200 4 0x300 3 [0x00, 0x11, 0xFE, 0x99] = some (0x0501, 1) := by decide
theorem witness_PkbEncOutcome :
    encEnds 0xFFFF 2 0x300 3 = some (0x0101, 0xFFFF) ∧ encEnds 0x200 2 0xFFFE 3 = some (0x0101, 0xFFFE) ∧
    encEnds 0x200 2 0x1FE 3 = some (0x0705, 0) ∧ encEnds 0x200 2 0x300 2 = some (0x0501, 3) ∧ encEnds 0x200 2 0x1FD 3 = none := by decide
set_option maxRecDepth 20000 in
/-- The limits of R240's table: 0x00, 0x7F, 0x80, 0x81, 0xFF. -/
theorem witness_UnpackTokens : unpack [0x00, 0x11] 1 = .ok [0x11] ∧ unpack [0x81, 0x11] 128 = .ok (List.replicate 128 0x11) ∧
    unpack [0xFF, 0x11] 2 = .ok [0x11, 0x11] ∧ unpack (0x7F :: List.replicate 128 0x11) 128 = .ok (List.replicate 128 0x11) ∧
    unpack [0x80] 1 = .error ⟨.srcUnderflow, 0⟩ ∧ unpack [0x01, 0x11] 1 = .error ⟨.srcUnderflow, 0⟩ := by decide
set_option maxRecDepth 20000 in
theorem witness_PackTokens_run : ([9#8] : List Byte).head? ≠ some 7#8 ∧
    pack (List.replicate 2 7 ++ [9]) = [0xFF, 7, 0x00, 9] ∧ pack (List.replicate 129 7) = [0x81, 7, 0x00, 7] := by decide
set_option maxRecDepth 20000 in
theorem witness_PackTokens_literal : NoEqualNeighbours ([1#8, 2#8] ++ ([3#8, 3#8] : List Byte).take 1) ∧
    NoEqualNeighbours (((List.range 128).map (BitVec.ofNat 8)) ++ ([0x80#8] : List Byte).take 1) ∧
    pack [1, 2, 3, 3] = [0x01, 1, 2, 0xFF, 3] := by decide
theorem witness_EncodeThenDecodeInMemory :
    let s := load (poke base 0x200 [1, 2, 2]) [(1, 0x200), (2, 3), (3, 0x300), (4, 5), (6, 0x400)]
    let t := after (exec (.pkbEnc 1 2 3 4 5) s)
    (5#4 : Reg) ∉ [(2#4 : Reg), 3#4, 6#4] ∧ (5#4 : Reg) ≠ 0#4 ∧ t.halt = false ∧
    (s.reg 6).toNat + (s.reg 2).toNat ≤ s.memSize ∧ (s.reg 3).toNat + (t.reg 5).toNat ≤ (s.reg 6).toNat := by decide

/-! ### Pixel adapter -/

theorem witness_PixBindSetpalOutcome : adapted.slotAt 2 = some pal8 ∧ adapted.pix.bound = true ∧ base.pix.bound = false ∧
    raised (exec (.pixBind 2 1 2) (load adapted [(1, 0xFFFF), (2, 2)])) = some (0x0101, 0xFFFF) ∧
    raised (exec (.pixBind 2 1 2) (load adapted [(1, 0xFFFF), (2, 1)])) = none := by decide
theorem adapted_pixels : pixelValue adapted.mem 0x200 = 0x00FF00FF ∧ pixelValue adapted.mem 0x204 = 0x00FF00FE := by
  unfold pixelValue
  rw [show adapted.mem.read 0x200 = 0x00#8 by decide, show adapted.mem.read (0x200 + 1) = 0xFF#8 by decide,
    show adapted.mem.read (0x200 + 2) = 0x00#8 by decide, show adapted.mem.read (0x200 + 3) = 0xFF#8 by decide,
    show adapted.mem.read 0x204 = 0x00#8 by decide, show adapted.mem.read (0x204 + 1) = 0xFF#8 by decide,
    show adapted.mem.read (0x204 + 2) = 0x00#8 by decide, show adapted.mem.read (0x204 + 3) = 0xFE#8 by decide]
  exact ⟨rfl, rfl⟩
theorem witness_PixReadOutcome : base.pix.bound = false ∧ adapted.pix.bound = true ∧
    4 * adapted.pix.pos.toNat + 4 ≤ adapted.pix.len.toNat ∧
    adapted.pix.lut[2]? = some 0x00FF00FF#32 ∧ (0x00FF00FF#32).toNat = pixelValue adapted.mem 0x200 ∧
    (∀ m < 2, adapted.pix.lut[m]? ≠ some 0x00FF00FF#32) ∧
    (∀ w ∈ adapted.pix.lut, w.toNat ≠ pixelValue adapted.mem 0x204) := by
  rw [adapted_pixels.1, adapted_pixels.2]
  exact ⟨rfl, rfl, by decide, rfl, rfl, by decide, by simp [adapted]⟩
theorem witness_PixReadOutcome_address :
    raised (exec (.pixRead 5) { adapted with pix := { adapted.pix with pos := 2 } }) = some (0x0601, 2) := by decide
theorem witness_PixWriteOutcome : let s := load adapted [(5, 3), (6, 4)]
    s.pix.bound = true ∧ (s.reg 5).toNat < s.pix.lut.length ∧ s.pix.lut.length ≤ (s.reg 6).toNat ∧
    4 * s.pix.pos.toNat + 4 ≤ s.pix.len.toNat ∧ s.pix.lut[(s.reg 5).toNat]? = some 0xFFFFFFFF#32 ∧
    raised (exec (.pixWrite 5) { s with pix := { s.pix with pos := 2 } }) = some (0x0601, 2) := by decide
theorem witness_PixAdvOutcome : let s := load { adapted with pix := { adapted.pix with pos := 1 } } [(5, 0xFFFFFFFE)]
    raised (exec (.pixAdv 5) s) = none ∧ raised (exec (.pixAdv 5) (load s [(5, 0xFFFFFFFF)])) = some (0x0701, 1) ∧
    raised (exec (.pixAdv 5) base) = some (0x0505, 0) := by decide
theorem witness_PixWriteThenRead : let s := load adapted [(5, 3)]
    s.pix.bound = true ∧ (s.reg 5).toNat < s.pix.lut.length ∧ 4 * s.pix.pos.toNat + 4 ≤ s.pix.len.toNat ∧
    (6#4 : Reg) ≠ 0#4 ∧ s.pix.lut.Nodup ∧ raised (exec (.pixWrite 5) s) = none := by decide

/-! ### The whole machine -/

theorem witness_StepKeepsInv : ({ base with pending := [.command 0x01400010] } : State).Inv := by
  refine ⟨⟨fun _ => ⟨rfl, rfl⟩, fun h => ?_⟩, ⟨by decide, fun c hc => ?_⟩, ⟨fun _ => ⟨rfl, rfl, rfl⟩, fun h => ?_⟩,
    ⟨fun _ => rfl, fun h => ?_⟩, fun k P hP => ?_⟩
  · exact absurd h (by decide)
  · exact absurd hc (by simp [base])
  · exact absurd h (by decide)
  · exact absurd h (by decide)
  · have hk : ∀ j : Fin 4, ({ base with pending := [.command 0x01400010] } : State).slot j = none := by decide
    rw [hk k] at hP
    cases hP
theorem witness_ErrorsLeaveNoTrace : base.halt = false ∧ exec (.bplRead 5) base = .next (after (exec (.bplRead 5) base)) ∧
    (after (exec (.bplRead 5) base)).halt = true := ⟨by decide, by unfold exec execBplRead; exact exec_after_commit, by decide⟩
theorem witness_SeqCountsCompletedCommands : let s : State := { base with seq := 0xFFFFFFFF }
    s.halt = false ∧ exec .nop s = .next (after (exec .nop s)) ∧ (after (exec .nop s)).seq = 0 :=
  ⟨by decide, by unfold exec execNop; exact exec_after_commit, by decide⟩
theorem witness_EveryCommandAnswers : let s : State := { base with pending := [.store 0xFFFF 1] }
    ∀ a b rest, s.pending = .store a b :: rest → a < s.memSize := by
  intro s a b rest h
  simp only [s, List.cons.injEq, HostAction.store.injEq] at h
  rw [← h.1.1]
  decide
theorem witness_writers : Instr.nop ≠ .reset ∧ Writes.registers (.bplWrite 5) = false ∧ Writes.memory (.bplRead 5) = false ∧
    Writes.wholePalette (.palSet 0 1 2 3 4 5) = false ∧ Writes.oneEntry (.bplRead 5) = none ∧
    Writes.oneEntry (.palSet 0 1 2 3 4 5) = some (0, 1) ∧
    Writes.configuration (.bplRead 5) = false ∧ Writes.cursor .nop = false := by decide
theorem witness_writers_next : exec (.bplWrite 5) planar = .next (after (exec (.bplWrite 5) planar)) ∧
    exec (.bplRead 5) planar = .next (after (exec (.bplRead 5) planar)) ∧
    exec (.palSet 0 1 2 3 4 5) paletted = .next (after (exec (.palSet 0 1 2 3 4 5) paletted)) :=
  ⟨by unfold exec execBplWrite; exact exec_after_commit, by unfold exec execBplRead; exact exec_after_commit,
    by unfold exec execPalSet; exact exec_after_commit⟩

end Sys2Proof.Tests
end

namespace Sys2Proof.Machine

/-! ### How a command ends, from what its pseudocode answers -/

/-- A reached `raise` is error entry from the state before the command (R290, R291). -/
theorem raises_of_exec_eq {i : Instr} {s : State} {c : Cause} {code : Word} {val : Nat}
    (h : exec i s = commit s (.error ⟨c, val⟩)) (hcode : c.errcode = code) : Raises i s code val := by
  subst hcode
  exact h

/-- A pseudocode that runs to its end completes the command (R24). -/
theorem completes_of_exec_eq {i : Instr} {s t : State} {post : State → Prop} (h : exec i s = commit s (.ok t))
    (hpost : post t.complete) (hseq : t.seq = s.seq) : Completes i s post :=
  ⟨t.complete, h, by rw [State.complete_seq, hseq], hpost⟩

/-! ### A slot named by a slot field -/

theorem checkSlot_of_lt {p : SlotNo} (hp : p.toNat < 4) : checkSlot p = .ok ⟨p.toNat, hp⟩ :=
  checkSlot_eq_ok.2 rfl

theorem State.slotAt_of_lt (s : State) {p : SlotNo} (hp : p.toNat < 4) : s.slotAt p = s.slot ⟨p.toNat, hp⟩ :=
  dif_pos hp

theorem State.slotAt_complete_setSlot (s : State) {p : SlotNo} (hp : p.toNat < 4) (P : Palette) :
    (s.setSlot ⟨p.toNat, hp⟩ P).complete.slotAt p = some P := by
  rw [State.slotAt_of_lt _ hp, State.complete_slot, State.slot_setSlot, if_pos rfl]

/-- Replacing one slot's palette and completing leaves the other slots and every other field as they were. -/
theorem onlySlot_complete_setSlot (s : State) {p : SlotNo} (hp : p.toNat < 4) (P : Palette) :
    OnlySlot s (s.setSlot ⟨p.toNat, hp⟩ P).complete p := by
  refine ⟨fun k hk => ?_, fun a => rfl, rfl⟩
  have hne : k ≠ ⟨p.toNat, hp⟩ := fun h => hk (congrArg Fin.val h)
  rw [State.complete_slot, State.slot_setSlot, if_neg hne]

/-! ### PAL.NEW (R141) -/

/-- PAL_INIT gives a colour of the depth, whatever the open parameter is (R13). -/
theorem palInit_ok (b : Nat) : (palInit b).Ok b := by
  have channel_le (c : Byte) : (BitVec.ofNat 8 (c.toNat % 2 ^ b)).toNat ≤ 2 ^ b - 1 := by
    have hmod : c.toNat % 2 ^ b < 2 ^ b := Nat.mod_lt _ (Nat.two_pow_pos b)
    have hwrap : (BitVec.ofNat 8 (c.toNat % 2 ^ b)).toNat ≤ c.toNat % 2 ^ b := Nat.mod_le _ _
    omega
  exact ⟨channel_le _, channel_le _, channel_le _, channel_le _⟩

/-- PAL.NEW on an existing slot: the depth is checked, then the length, then the slot is replaced. -/
theorem exec_palNew {p : SlotNo} (hp : p.toNat < 4) (ra rb : Reg) (s : State) :
    exec (.palNew p ra rb) s = commit s (do
      require (1 ≤ (s.reg rb).toNat ∧ (s.reg rb).toNat ≤ 8) ⟨.badBpc, (s.reg rb).toNat⟩
      require ((s.reg ra).toNat ≤ 256) ⟨.badLength, (s.reg ra).toNat⟩
      .ok (s.setSlot ⟨p.toNat, hp⟩
        ⟨(s.reg rb).toNat, List.replicate (s.reg ra).toNat (palInit (s.reg rb).toNat)⟩)) := by
  change execPalNew p ra rb s = _
  rw [execPalNew, checkSlot_of_lt hp, ok_bind]

/-- Settles O13: the two checks in order, then the slot rules give the palette and the frame. -/
theorem palNewOutcome : Obligations.PalNewOutcome := by
  intro p ra rb s hp length bpc
  have hexec := exec_palNew hp ra rb s
  split
  case isTrue hbpc =>
    rw [require_of_not (by omega), error_bind] at hexec
    exact raises_of_exec_eq hexec (by decide)
  case isFalse hbpc =>
    rw [require_of (by omega), ok_bind] at hexec
    split
    case isTrue hlen =>
      rw [require_of_not (by omega), error_bind] at hexec
      exact raises_of_exec_eq hexec (by decide)
    case isFalse hlen =>
      rw [require_of (by omega), ok_bind] at hexec
      exact completes_of_exec_eq hexec
        ⟨s.slotAt_complete_setSlot hp _, palInit_ok bpc, onlySlot_complete_setSlot s hp _⟩ rfl

end Sys2Proof.Machine

/-! ## Everything a command can commit -/

namespace Sys2Proof.Machine

/-- The ways an instruction runs to its end: the state it commits, before SEQ steps, and the checks that let it get
there. RESET, which commits nothing, has no constructor. `exec_ends` ties this to `exec`. -/
inductive Commits (s : State) : Instr → State → Prop
  | nop : Commits s .nop s
  | li {rd imm20} : Commits s (.li rd imm20) (s.setReg rd (imm20.setWidth 32))
  | lih {rd imm12} :
      Commits s (.lih rd imm12) (s.setReg rd ((imm12.setWidth 32 <<< 20) ||| (s.reg rd &&& 0x000FFFFF#32)))
  | crr {rd cr v} (value : s.controlRegister cr = some v) : Commits s (.crr rd cr) (s.setReg rd v)
  | palNew {p ra rb} {k : Fin 4} (slot : p.toNat = k.val) (depth : 1 ≤ (s.reg rb).toNat ∧ (s.reg rb).toNat ≤ 8)
      (count : (s.reg ra).toNat ≤ 256) :
      Commits s (.palNew p ra rb)
        (s.setSlot k ⟨(s.reg rb).toNat, List.replicate (s.reg ra).toNat (palInit (s.reg rb).toNat)⟩)
  | palSet {p ra rb rc rd re} {k : Fin 4} {P} (slot : p.toNat = k.val) (held : s.slot k = some P)
      (index : (s.reg ra).toNat < P.length) :
      Commits s (.palSet p ra rb rc rd re) (s.setSlot k ⟨P.bpc, P.ents.set (s.reg ra).toNat
        ⟨channelOperand P.bpc (s.reg rb), channelOperand P.bpc (s.reg rc), channelOperand P.bpc (s.reg rd),
          channelOperand P.bpc (s.reg re)⟩⟩)
  | palSetrgb {p ra rb rc rd} {k : Fin 4} {P} (slot : p.toNat = k.val) (held : s.slot k = some P)
      (index : (s.reg ra).toNat < P.length) :
      Commits s (.palSetrgb p ra rb rc rd) (s.setSlot k ⟨P.bpc, P.ents.set (s.reg ra).toNat
        ⟨channelOperand P.bpc (s.reg rb), channelOperand P.bpc (s.reg rc), channelOperand P.bpc (s.reg rd),
          BitVec.ofNat 8 (maxChannel P.bpc)⟩⟩)
  | palGet {p ra rb rc rd re} {k : Fin 4} {P c} (slot : p.toNat = k.val) (held : s.slot k = some P)
      (entry : P.entry (s.reg ra).toNat = some c) :
      Commits s (.palGet p ra rb rc rd re)
        ((((s.setReg rb (c.r.setWidth 32)).setReg rc (c.g.setWidth 32)).setReg rd (c.b.setWidth 32)).setReg re
          (c.a.setWidth 32))
  | palLen {rd p} {k : Fin 4} {P} (slot : p.toNat = k.val) (held : s.slot k = some P) :
      Commits s (.palLen rd p) (s.setReg rd (BitVec.ofNat 32 P.length))
  | palBpc {rd p} {k : Fin 4} {P} (slot : p.toNat = k.val) (held : s.slot k = some P) :
      Commits s (.palBpc rd p) (s.setReg rd (BitVec.ofNat 32 P.bpc))
  | palPlanes {rd p} {k : Fin 4} {P} (slot : p.toNat = k.val) (held : s.slot k = some P)
      (pow2 : ¬ (P.length = 0 ∨ P.length &&& (P.length - 1) ≠ 0)) :
      Commits s (.palPlanes rd p) (s.setReg rd (BitVec.ofNat 32 (Nat.log2 P.length)))
  | palChkplanes {p ra} {k : Fin 4} {P} (slot : p.toNat = k.val) (held : s.slot k = some P)
      (count : ¬ TooManyColors P.length (s.reg ra).toNat) : Commits s (.palChkplanes p ra) s
  | palResample {pd ps ra} {kd ks : Fin 4} {P} (slot : pd.toNat = kd.val) (source : ps.toNat = ks.val)
      (held : s.slot ks = some P) (depth : 1 ≤ (s.reg ra).toNat ∧ (s.reg ra).toNat ≤ 8) :
      Commits s (.palResample pd ps ra) (s.setSlot kd (P.resample (s.reg ra).toNat))
  | palToval {p ra rb bits1 alpha} {k : Fin 4} {P} (slot : p.toNat = k.val) (held : s.slot k = some P)
      (window : (s.reg ra).toNat + (s.reg rb).toNat ≤ s.memSize) (fits : 4 * P.length ≤ (s.reg rb).toNat) :
      Commits s (.palToval p ra rb bits1 alpha)
        { s with mem := s.mem.writeBytes (s.reg ra).toNat ((P.toValues (bits1.toNat + 1) alpha).flatMap bytes32) }
  | palFromval {p ra rb} {k : Fin 4} (slot : p.toNat = k.val) (count : (s.reg rb).toNat ≤ 256)
      (window : (s.reg ra).toNat + 4 * (s.reg rb).toNat ≤ s.memSize) :
      Commits s (.palFromval p ra rb)
        (s.setSlot k (Palette.ofValues (s.mem.read32s (s.reg ra).toNat (s.reg rb).toNat)))
  | palFromimg {p ra rb} {k : Fin 4} {seen} (slot : p.toNat = k.val)
      (window : (s.reg ra).toNat + (s.reg rb).toNat ≤ s.memSize) (whole : (s.reg rb).toNat % 4 = 0)
      (distinct : distinctPixels (s.mem.read32s (s.reg ra).toNat ((s.reg rb).toNat / 4)) 0 [] = .ok seen) :
      Commits s (.palFromimg p ra rb) (s.setSlot k (Palette.ofValues seen))
  | atrParse4 {ra rb rc rd} :
      Commits s (.atrParse4 ra rb rc rd)
        (((s.setReg rb ((redNibble (s.reg ra)).setWidth 32)).setReg rc ((greenNibble (s.reg ra)).setWidth 32)).setReg rd
          ((blueNibble (s.reg ra)).setWidth 32))
  | atrParseste {ra rb rc rd} :
      Commits s (.atrParseste ra rb rc rd)
        (((s.setReg rb ((rot (redNibble (s.reg ra))).setWidth 32)).setReg rc
          ((rot (greenNibble (s.reg ra))).setWidth 32)).setReg rd ((rot (blueNibble (s.reg ra))).setWidth 32))
  | atrMkpal {p ra rb rc} {k : Fin 4} (slot : p.toNat = k.val) (count : (s.reg rc).toNat ≤ 256)
      (window : (s.reg ra).toNat + (s.reg rb).toNat ≤ s.memSize) (fits : 2 * (s.reg rc).toNat ≤ (s.reg rb).toNat) :
      Commits s (.atrMkpal p ra rb rc)
        (s.setSlot k (atariPalette (s.mem.read16s (s.reg ra).toNat (s.reg rc).toNat)))
  | atrWrpal {p ra rb} {k : Fin 4} {P} (slot : p.toNat = k.val) (held : s.slot k = some P)
      (depth : P.bpc = 3 ∨ P.bpc = 4) (window : (s.reg ra).toNat + (s.reg rb).toNat ≤ s.memSize)
      (fits : 2 * P.length ≤ (s.reg rb).toNat) :
      Commits s (.atrWrpal p ra rb)
        { s with mem := s.mem.writeBytes (s.reg ra).toNat (P.atariWords.flatMap bytes16) }
  | configuration {i u base len bpb bstride bpln lstride planes pstride} (kind : Writes.configuration i = true)
      (configured : s.configure base len bpb bstride bpln lstride planes pstride = .ok u) : Commits s i u
  | bplRead {rd e cur} (configured : s.bpl.cfg = true) (filled : s.bpl.fill s.mem = .ok e)
      (stepped : e.stepCursor = .ok cur) :
      Commits s (.bplRead rd) ({ s with bpl := { e with cur := cur } }.setReg rd (e.cached.setWidth 32))
  | bplWrite {ra cur} (configured : s.bpl.cfg = true) (planes : ∀ k < s.bpl.planes, s.bpl.offset k < s.bpl.conf.len.toNat)
      (stepped : s.bpl.stepCursor = .ok cur) :
      Commits s (.bplWrite ra) { s with
        mem := s.bpl.orPixel (s.reg ra) s.bpl.planes s.mem
        bpl := { s.bpl with cacheValid := false, cur := cur } }
  | bplAdvZero {ra} (configured : s.bpl.cfg = true) (zero : (s.reg ra).toNat = 0) : Commits s (.bplAdv ra) s
  | bplAdv {ra cur} (configured : s.bpl.cfg = true) (advanced : s.bpl.advanceCursor (s.reg ra).toNat = .ok cur) :
      Commits s (.bplAdv ra) { s with bpl := { s.bpl with cacheValid := false, cur := cur } }
  | pkbDec {ra rb rc rd out} (source : (s.reg ra).toNat + (s.reg rb).toNat ≤ s.memSize)
      (window : (s.reg rc).toNat + (s.reg rd).toNat ≤ s.memSize)
      (disjoint : ¬ Overlapping (s.reg ra).toNat (s.reg rb).toNat (s.reg rc).toNat (s.reg rd).toNat)
      (decoded : unpack (s.mem.readBytes (s.reg ra).toNat (s.reg rb).toNat) (s.reg rd).toNat = .ok out) :
      Commits s (.pkbDec ra rb rc rd) { s with mem := s.mem.writeBytes (s.reg rc).toNat out }
  | pkbEnc {ra rb rc rd re E} (source : (s.reg ra).toNat + (s.reg rb).toNat ≤ s.memSize)
      (window : (s.reg rc).toNat + (s.reg rd).toNat ≤ s.memSize)
      (disjoint : ¬ Overlapping (s.reg ra).toNat (s.reg rb).toNat (s.reg rc).toNat (s.reg rd).toNat)
      (encoded : E = pack (s.mem.readBytes (s.reg ra).toNat (s.reg rb).toNat)) (fits : E.length ≤ (s.reg rd).toNat) :
      Commits s (.pkbEnc ra rb rc rd re)
        ({ s with mem := s.mem.writeBytes (s.reg rc).toNat E }.setReg re (BitVec.ofNat 32 E.length))
  | pixBind {p ra rb} {k : Fin 4} {P} (slot : p.toNat = k.val) (held : s.slot k = some P)
      (window : (s.reg ra).toNat + (s.reg rb).toNat ≤ s.memSize) :
      Commits s (.pixBind p ra rb)
        { s with pix := ⟨true, s.reg ra, s.reg rb, 0#32, BitVec.ofNat 2 k.val, P.buildLut⟩ }
  | pixRead {rd n} (bound : s.pix.bound = true) (inside : 4 * s.pix.pos.toNat + 4 ≤ s.pix.len.toNat)
      (found : lookup s.pix.lut (s.mem.read32 s.pix.address) = some n) :
      Commits s (.pixRead rd)
        ({ s with pix := { s.pix with pos := s.pix.pos + 1#32 } }.setReg rd (BitVec.ofNat 32 n))
  | pixWrite {ra v} (bound : s.pix.bound = true) (colour : s.pix.lut[(s.reg ra).toNat]? = some v)
      (inside : 4 * s.pix.pos.toNat + 4 ≤ s.pix.len.toNat) :
      Commits s (.pixWrite ra) { s with
        mem := s.mem.writeBytes s.pix.address (bytes32 v)
        pix := { s.pix with pos := s.pix.pos + 1#32 } }
  | pixAdv {ra} (bound : s.pix.bound = true) (room : s.pix.pos.toNat + (s.reg ra).toNat ≤ 2 ^ 32 - 1) :
      Commits s (.pixAdv ra) { s with pix := { s.pix with pos := s.pix.pos + s.reg ra } }
  | pixSetpal {p} {k : Fin 4} {P} (bound : s.pix.bound = true) (slot : p.toNat = k.val) (held : s.slot k = some P) :
      Commits s (.pixSetpal p) { s with pix := { s.pix with pal := BitVec.ofNat 2 k.val, lut := P.buildLut } }

/-- A command ends in the state it commits, SEQ stepped, or in error entry from the state before it (R120, R290). -/
def Ends (s : State) (i : Instr) (t : State) : Prop :=
  (∃ u, Commits s i u ∧ t = u.complete) ∨ ∃ e, t = s.raise e

/-! ### The checks at the head of a sequence -/

section
variable {β : Type} {b : β} {f : Unit → Except Err β}

/-- A check that passes exactly when `q` holds, at the head of a sequence. -/
theorem check_bind_eq_ok {x : Except Err Unit} {q : Prop} (hx : x = .ok () ↔ q) :
    (x >>= f) = .ok b ↔ q ∧ f () = .ok b := by
  rw [bind_eq_ok, ← hx]
  exact ⟨fun ⟨_, h⟩ => h, fun h => ⟨(), h⟩⟩

theorem require_bind_eq_ok {q : Prop} [Decidable q] {e : Err} : (require q e >>= f) = .ok b ↔ q ∧ f () = .ok b :=
  check_bind_eq_ok require_eq_ok

theorem checkWindow_bind_eq_ok {s : State} {base : Word} {len : Nat} :
    (s.checkWindow base len >>= f) = .ok b ↔ base.toNat + len ≤ s.memSize ∧ f () = .ok b :=
  check_bind_eq_ok State.checkWindow_eq_ok

theorem checkDisjoint_bind_eq_ok {src sl dst dl : Nat} :
    (checkDisjoint src sl dst dl >>= f) = .ok b ↔ ¬ Overlapping src sl dst dl ∧ f () = .ok b :=
  check_bind_eq_ok checkDisjoint_eq_ok

theorem checkConfigured_bind_eq_ok {e : Bitplane} : (e.checkConfigured >>= f) = .ok b ↔ e.cfg = true ∧ f () = .ok b :=
  check_bind_eq_ok Bitplane.checkConfigured_eq_ok

theorem checkPlanes_bind_eq_ok {e : Bitplane} :
    (e.checkPlanes >>= f) = .ok b ↔ (∀ k < e.planes, e.offset k < e.conf.len.toNat) ∧ f () = .ok b :=
  check_bind_eq_ok Bitplane.checkPlanes_eq_ok

theorem checkBound_bind_eq_ok {x : Adapter} : (x.checkBound >>= f) = .ok b ↔ x.bound = true ∧ f () = .ok b :=
  check_bind_eq_ok Adapter.checkBound_eq_ok

theorem checkPixel_bind_eq_ok {x : Adapter} :
    (x.checkPixel >>= f) = .ok b ↔ 4 * x.pos.toNat + 4 ≤ x.len.toNat ∧ f () = .ok b :=
  check_bind_eq_ok Adapter.checkPixel_eq_ok

theorem checkSlot_bind_eq_ok {p : SlotNo} {g : Fin 4 → Except Err β} :
    (checkSlot p >>= g) = .ok b ↔ ∃ k : Fin 4, p.toNat = k.val ∧ g k = .ok b := by
  simp only [bind_eq_ok, checkSlot_eq_ok]

theorem readSlot_bind_eq_ok {s : State} {k : Fin 4} {g : Palette → Except Err β} :
    (s.readSlot k >>= g) = .ok b ↔ ∃ P, s.slot k = some P ∧ g P = .ok b := by
  simp only [bind_eq_ok, State.readSlot_eq_ok]

end

/-! ### One instruction at a time -/

section
variable {s t : State}

/-- A pseudocode whose results are all committed ways of `i` ends as `Ends` says. -/
theorem ends_of_commit {i : Instr} {r : Except Err State} (h : commit s r = .next t)
    (hr : ∀ u, r = .ok u → Commits s i u) : Ends s i t := by
  rcases commit_eq_next h with ⟨u, hu, ht⟩ | ⟨e, -, ht⟩
  · exact .inl ⟨u, hr u hu, ht⟩
  · exact .inr ⟨e, ht⟩

theorem execNop_ends (h : execNop s = .next t) : Ends s .nop t :=
  ends_of_commit h fun _ hu => by cases hu; exact .nop

theorem execLi_ends {rd imm20} (h : execLi rd imm20 s = .next t) : Ends s (.li rd imm20) t :=
  ends_of_commit h fun _ hu => by cases hu; exact .li

theorem execLih_ends {rd imm12} (h : execLih rd imm12 s = .next t) : Ends s (.lih rd imm12) t :=
  ends_of_commit h fun _ hu => by cases hu; exact .lih

theorem execAtrParse4_ends {ra rb rc rd} (h : execAtrParse4 ra rb rc rd s = .next t) :
    Ends s (.atrParse4 ra rb rc rd) t := by
  dsimp only [execAtrParse4] at h
  exact ends_of_commit h fun _ hu => by cases hu; exact .atrParse4

theorem execAtrParseste_ends {ra rb rc rd} (h : execAtrParseste ra rb rc rd s = .next t) :
    Ends s (.atrParseste ra rb rc rd) t := by
  dsimp only [execAtrParseste] at h
  exact ends_of_commit h fun _ hu => by cases hu; exact .atrParseste

theorem execCrr_ends {rd cr} (h : execCrr rd cr s = .next t) : Ends s (.crr rd cr) t := by
  refine ends_of_commit h fun u hu => ?_
  split at hu
  · cases hu; exact .crr ‹_›
  · cases hu

theorem execPalNew_ends {p ra rb} (h : execPalNew p ra rb s = .next t) : Ends s (.palNew p ra rb) t := by
  refine ends_of_commit h fun u hu => ?_
  obtain ⟨k, hk, hu⟩ := checkSlot_bind_eq_ok.1 hu
  obtain ⟨hbpc, hu⟩ := require_bind_eq_ok.1 hu
  obtain ⟨hlen, ⟨⟩⟩ := require_bind_eq_ok.1 hu
  exact .palNew hk hbpc hlen

theorem execPalSet_ends {p ra rb rc rd re} (h : execPalSet p ra rb rc rd re s = .next t) :
    Ends s (.palSet p ra rb rc rd re) t := by
  refine ends_of_commit h fun u hu => ?_
  obtain ⟨k, hk, hu⟩ := checkSlot_bind_eq_ok.1 hu
  obtain ⟨P, hP, hu⟩ := readSlot_bind_eq_ok.1 hu
  obtain ⟨hi, ⟨⟩⟩ := require_bind_eq_ok.1 hu
  exact .palSet hk hP hi

theorem execPalSetrgb_ends {p ra rb rc rd} (h : execPalSetrgb p ra rb rc rd s = .next t) :
    Ends s (.palSetrgb p ra rb rc rd) t := by
  refine ends_of_commit h fun u hu => ?_
  obtain ⟨k, hk, hu⟩ := checkSlot_bind_eq_ok.1 hu
  obtain ⟨P, hP, hu⟩ := readSlot_bind_eq_ok.1 hu
  obtain ⟨hi, ⟨⟩⟩ := require_bind_eq_ok.1 hu
  exact .palSetrgb hk hP hi

theorem execPalGet_ends {p ra rb rc rd re} (h : execPalGet p ra rb rc rd re s = .next t) :
    Ends s (.palGet p ra rb rc rd re) t := by
  refine ends_of_commit h fun u hu => ?_
  obtain ⟨k, hk, hu⟩ := checkSlot_bind_eq_ok.1 hu
  obtain ⟨P, hP, hu⟩ := readSlot_bind_eq_ok.1 hu
  dsimp only at hu
  split at hu
  · cases hu
  · cases hu; exact .palGet hk hP ‹_›

theorem execPalLen_ends {rd p} (h : execPalLen rd p s = .next t) : Ends s (.palLen rd p) t := by
  refine ends_of_commit h fun u hu => ?_
  obtain ⟨k, hk, hu⟩ := checkSlot_bind_eq_ok.1 hu
  obtain ⟨P, hP, ⟨⟩⟩ := readSlot_bind_eq_ok.1 hu
  exact .palLen hk hP

theorem execPalBpc_ends {rd p} (h : execPalBpc rd p s = .next t) : Ends s (.palBpc rd p) t := by
  refine ends_of_commit h fun u hu => ?_
  obtain ⟨k, hk, hu⟩ := checkSlot_bind_eq_ok.1 hu
  obtain ⟨P, hP, ⟨⟩⟩ := readSlot_bind_eq_ok.1 hu
  exact .palBpc hk hP

theorem execPalPlanes_ends {rd p} (h : execPalPlanes rd p s = .next t) : Ends s (.palPlanes rd p) t := by
  refine ends_of_commit h fun u hu => ?_
  obtain ⟨k, hk, hu⟩ := checkSlot_bind_eq_ok.1 hu
  obtain ⟨P, hP, hu⟩ := readSlot_bind_eq_ok.1 hu
  obtain ⟨hL, ⟨⟩⟩ := require_bind_eq_ok.1 hu
  exact .palPlanes hk hP hL

theorem execPalChkplanes_ends {p ra} (h : execPalChkplanes p ra s = .next t) : Ends s (.palChkplanes p ra) t := by
  refine ends_of_commit h fun u hu => ?_
  obtain ⟨k, hk, hu⟩ := checkSlot_bind_eq_ok.1 hu
  obtain ⟨P, hP, hu⟩ := readSlot_bind_eq_ok.1 hu
  obtain ⟨hL, ⟨⟩⟩ := require_bind_eq_ok.1 hu
  exact .palChkplanes hk hP hL

theorem execPalResample_ends {pd ps ra} (h : execPalResample pd ps ra s = .next t) :
    Ends s (.palResample pd ps ra) t := by
  refine ends_of_commit h fun u hu => ?_
  obtain ⟨kd, hkd, hu⟩ := checkSlot_bind_eq_ok.1 hu
  obtain ⟨ks, hks, hu⟩ := checkSlot_bind_eq_ok.1 hu
  obtain ⟨P, hP, hu⟩ := readSlot_bind_eq_ok.1 hu
  obtain ⟨hnb, ⟨⟩⟩ := require_bind_eq_ok.1 hu
  exact .palResample hkd hks hP hnb

theorem execPalToval_ends {p ra rb bits1 alpha} (h : execPalToval p ra rb bits1 alpha s = .next t) :
    Ends s (.palToval p ra rb bits1 alpha) t := by
  refine ends_of_commit h fun u hu => ?_
  obtain ⟨k, hk, hu⟩ := checkSlot_bind_eq_ok.1 hu
  obtain ⟨P, hP, hu⟩ := readSlot_bind_eq_ok.1 hu
  obtain ⟨hw, hu⟩ := checkWindow_bind_eq_ok.1 hu
  obtain ⟨hcap, ⟨⟩⟩ := require_bind_eq_ok.1 hu
  exact .palToval hk hP hw hcap

theorem execPalFromval_ends {p ra rb} (h : execPalFromval p ra rb s = .next t) : Ends s (.palFromval p ra rb) t := by
  refine ends_of_commit h fun u hu => ?_
  obtain ⟨k, hk, hu⟩ := checkSlot_bind_eq_ok.1 hu
  obtain ⟨hn, hu⟩ := require_bind_eq_ok.1 hu
  obtain ⟨hw, ⟨⟩⟩ := checkWindow_bind_eq_ok.1 hu
  exact .palFromval hk hn hw

theorem execPalFromimg_ends {p ra rb} (h : execPalFromimg p ra rb s = .next t) : Ends s (.palFromimg p ra rb) t := by
  refine ends_of_commit h fun u hu => ?_
  obtain ⟨k, hk, hu⟩ := checkSlot_bind_eq_ok.1 hu
  obtain ⟨hw, hu⟩ := checkWindow_bind_eq_ok.1 hu
  obtain ⟨hlen, hu⟩ := require_bind_eq_ok.1 hu
  obtain ⟨seen, hseen, ⟨⟩⟩ := bind_eq_ok.1 hu
  exact .palFromimg hk hw hlen hseen

theorem execAtrMkpal_ends {p ra rb rc} (h : execAtrMkpal p ra rb rc s = .next t) : Ends s (.atrMkpal p ra rb rc) t := by
  refine ends_of_commit h fun u hu => ?_
  obtain ⟨k, hk, hu⟩ := checkSlot_bind_eq_ok.1 hu
  obtain ⟨hn, hu⟩ := require_bind_eq_ok.1 hu
  obtain ⟨hw, hu⟩ := checkWindow_bind_eq_ok.1 hu
  obtain ⟨hlen, ⟨⟩⟩ := require_bind_eq_ok.1 hu
  exact .atrMkpal hk hn hw hlen

theorem execAtrWrpal_ends {p ra rb} (h : execAtrWrpal p ra rb s = .next t) : Ends s (.atrWrpal p ra rb) t := by
  refine ends_of_commit h fun u hu => ?_
  obtain ⟨k, hk, hu⟩ := checkSlot_bind_eq_ok.1 hu
  obtain ⟨P, hP, hu⟩ := readSlot_bind_eq_ok.1 hu
  obtain ⟨hbpc, hu⟩ := require_bind_eq_ok.1 hu
  obtain ⟨hw, hu⟩ := checkWindow_bind_eq_ok.1 hu
  obtain ⟨hlen, ⟨⟩⟩ := require_bind_eq_ok.1 hu
  exact .atrWrpal hk hP hbpc hw hlen

theorem execBplRaw_ends {ra} (h : execBplRaw ra s = .next t) : Ends s (.bplRaw ra) t :=
  ends_of_commit h fun _ hu => .configuration rfl hu

theorem execBplContig_ends {ra rb rc rd re} (h : execBplContig ra rb rc rd re s = .next t) :
    Ends s (.bplContig ra rb rc rd re) t := by
  refine ends_of_commit h fun u hu => ?_
  obtain ⟨-, -, hu⟩ := bind_eq_ok.1 hu
  exact .configuration rfl hu

theorem execBplLine_ends {ra rb rc rd} (h : execBplLine ra rb rc rd s = .next t) : Ends s (.bplLine ra rb rc rd) t := by
  refine ends_of_commit h fun u hu => ?_
  obtain ⟨-, -, hu⟩ := bind_eq_ok.1 hu
  exact .configuration rfl hu

theorem execBplWord_ends {ra rb rc rd} (h : execBplWord ra rb rc rd s = .next t) : Ends s (.bplWord ra rb rc rd) t := by
  refine ends_of_commit h fun u hu => ?_
  obtain ⟨-, -, hu⟩ := bind_eq_ok.1 hu
  exact .configuration rfl hu

theorem execBplRead_ends {rd} (h : execBplRead rd s = .next t) : Ends s (.bplRead rd) t := by
  refine ends_of_commit h fun u hu => ?_
  obtain ⟨hcfg, hu⟩ := checkConfigured_bind_eq_ok.1 hu
  obtain ⟨e, he, hu⟩ := bind_eq_ok.1 hu
  obtain ⟨cur, hcur, ⟨⟩⟩ := bind_eq_ok.1 hu
  exact .bplRead hcfg he hcur

theorem execBplWrite_ends {ra} (h : execBplWrite ra s = .next t) : Ends s (.bplWrite ra) t := by
  refine ends_of_commit h fun u hu => ?_
  obtain ⟨hcfg, hu⟩ := checkConfigured_bind_eq_ok.1 hu
  obtain ⟨hplanes, hu⟩ := checkPlanes_bind_eq_ok.1 hu
  obtain ⟨cur, hcur, ⟨⟩⟩ := bind_eq_ok.1 hu
  exact .bplWrite hcfg hplanes hcur

theorem execBplAdv_ends {ra} (h : execBplAdv ra s = .next t) : Ends s (.bplAdv ra) t := by
  refine ends_of_commit h fun u hu => ?_
  obtain ⟨hcfg, hu⟩ := checkConfigured_bind_eq_ok.1 hu
  dsimp only at hu
  split at hu
  · cases hu; exact .bplAdvZero hcfg ‹_›
  · obtain ⟨cur, hcur, ⟨⟩⟩ := bind_eq_ok.1 hu
    exact .bplAdv hcfg hcur

theorem execPkbDec_ends {ra rb rc rd} (h : execPkbDec ra rb rc rd s = .next t) : Ends s (.pkbDec ra rb rc rd) t := by
  refine ends_of_commit h fun u hu => ?_
  obtain ⟨hsrc, hu⟩ := checkWindow_bind_eq_ok.1 hu
  obtain ⟨hdst, hu⟩ := checkWindow_bind_eq_ok.1 hu
  obtain ⟨hdis, hu⟩ := checkDisjoint_bind_eq_ok.1 hu
  obtain ⟨out, hout, ⟨⟩⟩ := bind_eq_ok.1 hu
  exact .pkbDec hsrc hdst hdis hout

theorem execPkbEnc_ends {ra rb rc rd re} (h : execPkbEnc ra rb rc rd re s = .next t) :
    Ends s (.pkbEnc ra rb rc rd re) t := by
  refine ends_of_commit h fun u hu => ?_
  obtain ⟨hsrc, hu⟩ := checkWindow_bind_eq_ok.1 hu
  obtain ⟨hdst, hu⟩ := checkWindow_bind_eq_ok.1 hu
  obtain ⟨hdis, hu⟩ := checkDisjoint_bind_eq_ok.1 hu
  obtain ⟨hcap, ⟨⟩⟩ := require_bind_eq_ok.1 hu
  exact .pkbEnc hsrc hdst hdis rfl hcap

theorem execPixBind_ends {p ra rb} (h : execPixBind p ra rb s = .next t) : Ends s (.pixBind p ra rb) t := by
  refine ends_of_commit h fun u hu => ?_
  obtain ⟨k, hk, hu⟩ := checkSlot_bind_eq_ok.1 hu
  obtain ⟨P, hP, hu⟩ := readSlot_bind_eq_ok.1 hu
  obtain ⟨hw, ⟨⟩⟩ := checkWindow_bind_eq_ok.1 hu
  exact .pixBind hk hP hw

theorem execPixRead_ends {rd} (h : execPixRead rd s = .next t) : Ends s (.pixRead rd) t := by
  refine ends_of_commit h fun u hu => ?_
  obtain ⟨hb, hu⟩ := checkBound_bind_eq_ok.1 hu
  obtain ⟨hp, hu⟩ := checkPixel_bind_eq_ok.1 hu
  dsimp only at hu
  split at hu
  · cases hu
  · cases hu; exact .pixRead hb hp ‹_›

theorem execPixWrite_ends {ra} (h : execPixWrite ra s = .next t) : Ends s (.pixWrite ra) t := by
  refine ends_of_commit h fun u hu => ?_
  obtain ⟨hb, hu⟩ := checkBound_bind_eq_ok.1 hu
  dsimp only at hu
  split at hu
  · cases hu
  · obtain ⟨hp, ⟨⟩⟩ := checkPixel_bind_eq_ok.1 hu
    exact .pixWrite hb ‹_› hp

theorem execPixAdv_ends {ra} (h : execPixAdv ra s = .next t) : Ends s (.pixAdv ra) t := by
  refine ends_of_commit h fun u hu => ?_
  obtain ⟨hb, hu⟩ := checkBound_bind_eq_ok.1 hu
  obtain ⟨hroom, ⟨⟩⟩ := require_bind_eq_ok.1 hu
  exact .pixAdv hb hroom

theorem execPixSetpal_ends {p} (h : execPixSetpal p s = .next t) : Ends s (.pixSetpal p) t := by
  refine ends_of_commit h fun u hu => ?_
  obtain ⟨hb, hu⟩ := checkBound_bind_eq_ok.1 hu
  obtain ⟨k, hk, hu⟩ := checkSlot_bind_eq_ok.1 hu
  obtain ⟨P, hP, ⟨⟩⟩ := readSlot_bind_eq_ok.1 hu
  exact .pixSetpal hb hk hP

/-- Every instruction but RESET commits one of the states `Commits` lists, or enters the error state. -/
theorem exec_ends {i : Instr} (hi : i ≠ .reset) (h : exec i s = .next t) : Ends s i t := by
  cases i with
  | reset => exact absurd rfl hi
  | nop => exact execNop_ends h
  | li => exact execLi_ends h
  | lih => exact execLih_ends h
  | atrParse4 => exact execAtrParse4_ends h
  | atrParseste => exact execAtrParseste_ends h
  | crr => exact execCrr_ends h
  | palNew => exact execPalNew_ends h
  | palSet => exact execPalSet_ends h
  | palSetrgb => exact execPalSetrgb_ends h
  | palGet => exact execPalGet_ends h
  | palLen => exact execPalLen_ends h
  | palBpc => exact execPalBpc_ends h
  | palPlanes => exact execPalPlanes_ends h
  | palChkplanes => exact execPalChkplanes_ends h
  | palResample => exact execPalResample_ends h
  | palToval => exact execPalToval_ends h
  | palFromval => exact execPalFromval_ends h
  | palFromimg => exact execPalFromimg_ends h
  | atrMkpal => exact execAtrMkpal_ends h
  | atrWrpal => exact execAtrWrpal_ends h
  | bplRaw => exact execBplRaw_ends h
  | bplContig => exact execBplContig_ends h
  | bplLine => exact execBplLine_ends h
  | bplWord => exact execBplWord_ends h
  | bplRead => exact execBplRead_ends h
  | bplWrite => exact execBplWrite_ends h
  | bplAdv => exact execBplAdv_ends h
  | pkbDec => exact execPkbDec_ends h
  | pkbEnc => exact execPkbEnc_ends h
  | pixBind => exact execPixBind_ends h
  | pixRead => exact execPixRead_ends h
  | pixWrite => exact execPixWrite_ends h
  | pixAdv => exact execPixAdv_ends h
  | pixSetpal => exact execPixSetpal_ends h

end

end Sys2Proof.Machine

/-! ## What a command leaves unchanged -/

namespace Sys2Proof.Machine

section
variable {s t u : State} {i : Instr}

/-! ### Fields of the committed state -/

/-- No instruction but RESET writes SEQ before its completion, the error registers, MEM_SIZE or the host's list. -/
theorem Commits.frame (h : Commits s i u) :
    u.seq = s.seq ∧ u.halt = s.halt ∧ u.errcode = s.errcode ∧ u.errval = s.errval ∧ u.memTop = s.memTop ∧
      u.pending = s.pending := by
  cases h with
  | configuration _ hconf =>
    obtain ⟨-, -, -, -, rfl⟩ := State.configure_eq_ok hconf
    simp
  | _ => simp

/-- The registers are written by the twelve instructions of R23 only. -/
theorem Commits.regs_eq (h : Commits s i u) (hw : Writes.registers i = false) : u.regs = s.regs := by
  cases h with
  | li | lih | crr | palGet | palLen | palBpc | palPlanes | atrParse4 | atrParseste | bplRead | pkbEnc | pixRead =>
    cases hw
  | configuration _ hconf =>
    obtain ⟨-, -, -, -, rfl⟩ := State.configure_eq_ok hconf
    rfl
  | _ => rfl

/-- The slots are written by whole replacement and by PAL.SET and PAL.SETRGB only (R30). -/
theorem Commits.slots_eq (h : Commits s i u) (hw : Writes.wholePalette i = false) (he : Writes.oneEntry i = none) :
    u.slots = s.slots := by
  cases h with
  | palNew | palResample | palFromval | palFromimg | atrMkpal => cases hw
  | palSet | palSetrgb => cases he
  | configuration _ hconf =>
    obtain ⟨-, -, -, -, rfl⟩ := State.configure_eq_ok hconf
    rfl
  | _ => simp

/-- The engine is written by its configuration and by the instructions that move the cursor only (R33, R34). -/
theorem Commits.bpl_eq (h : Commits s i u) (hconf : Writes.configuration i = false) (hcur : Writes.cursor i = false) :
    u.bpl = s.bpl := by
  cases h with
  | configuration hkind => rw [hkind] at hconf; cases hconf
  | bplRead | bplWrite | bplAdv | bplAdvZero => cases hcur
  | _ => simp

/-- Moving the cursor keeps the configuration (R33). -/
theorem Commits.conf_eq (h : Commits s i u) (hconf : Writes.configuration i = false) :
    u.bpl.cfg = s.bpl.cfg ∧ u.bpl.conf = s.bpl.conf := by
  cases h with
  | configuration hkind => rw [hkind] at hconf; cases hconf
  | bplRead _ hfill =>
    obtain ⟨hcfg, hconf, -, -⟩ := Bitplane.fill_keeps hfill
    simp [hcfg, hconf]
  | _ => simp

/-- Only BPL.READ fills the cache (R35). -/
theorem Commits.cache_eq (h : Commits s i u) (hread : ∀ rd, i ≠ .bplRead rd) :
    u.bpl.cache = s.bpl.cache ∧ (u.bpl.cacheValid = true → s.bpl.cacheValid = true) := by
  cases h with
  | bplRead => exact absurd rfl (hread _)
  | configuration _ hconf =>
    obtain ⟨-, -, -, -, rfl⟩ := State.configure_eq_ok hconf
    simp
  | _ => simp

/-- A configuration puts the cursor at zero and invalidates the cache (R34, R35). -/
theorem Commits.configured (h : Commits s i u) (hi : Writes.configuration i = true) :
    u.bpl.cacheValid = false ∧ u.bpl.cur = ⟨0#32, 0#32, 0#32, 0#3⟩ := by
  cases h with
  | configuration _ hconf =>
    obtain ⟨-, -, -, -, rfl⟩ := State.configure_eq_ok hconf
    exact ⟨rfl, rfl⟩
  | _ => cases hi

/-- The pixel window is written by PIX.BIND only, the LUT and the bound slot by it and PIX.SETPAL (R36, R37). -/
theorem Commits.pix_eq (h : Commits s i u) (hbind : ∀ p ra rb, i ≠ .pixBind p ra rb) :
    u.pix.bound = s.pix.bound ∧ u.pix.base = s.pix.base ∧ u.pix.len = s.pix.len ∧
      ((∀ p, i ≠ .pixSetpal p) → u.pix.lut = s.pix.lut ∧ u.pix.pal = s.pix.pal) := by
  cases h with
  | pixBind => exact absurd rfl (hbind _ _ _)
  | pixSetpal => exact ⟨rfl, rfl, rfl, fun hset => absurd rfl (hset _)⟩
  | configuration _ hconf =>
    obtain ⟨-, -, -, -, rfl⟩ := State.configure_eq_ok hconf
    simp
  | _ => simp

/-! ### One entry of a palette (R142, R143) -/

/-- Replacing one entry of an occupied slot's palette: what stays of the slots. -/
theorem slots_of_set_entry {p : SlotNo} {k : Fin 4} {P : Palette} (hk : p.toNat = k.val) (hP : s.slot k = some P)
    (n : Nat) (c : Color) :
    (∀ j : Fin 4, j.val ≠ p.toNat → (s.setSlot k ⟨P.bpc, P.ents.set n c⟩).slot j = s.slot j) ∧
    (∀ j m, m ≠ n → ((s.setSlot k ⟨P.bpc, P.ents.set n c⟩).slot j).bind (·.ents[m]?) =
      (s.slot j).bind (·.ents[m]?)) ∧
    (∀ j, ((s.setSlot k ⟨P.bpc, P.ents.set n c⟩).slot j).map (fun P => (P.bpc, P.ents.length)) =
      (s.slot j).map (fun P => (P.bpc, P.ents.length))) := by
  refine ⟨fun j hj => ?_, fun j m hm => ?_, fun j => ?_⟩ <;> rw [State.slot_setSlot]
  · rw [if_neg fun hjk => hj (by rw [hjk, hk])]
  · split
    case isTrue hjk => simp [hjk, hP, List.getElem?_set_ne hm.symm]
    case isFalse => rfl
  · split
    case isTrue hjk => simp [hjk, hP]
    case isFalse => rfl

theorem Commits.slots_of_oneEntry {p : SlotNo} {ra : Reg} (h : Commits s i u)
    (he : Writes.oneEntry i = some (p, ra)) :
    (∀ j : Fin 4, j.val ≠ p.toNat → u.slot j = s.slot j) ∧
    (∀ j m, m ≠ (s.reg ra).toNat → (u.slot j).bind (·.ents[m]?) = (s.slot j).bind (·.ents[m]?)) ∧
    (∀ j, (u.slot j).map (fun P => (P.bpc, P.ents.length)) = (s.slot j).map (fun P => (P.bpc, P.ents.length))) := by
  cases h with
  | palSet hk hP => cases he; exact slots_of_set_entry hk hP _ _
  | palSetrgb hk hP => cases he; exact slots_of_set_entry hk hP _ _
  | configuration hkind =>
    cases i with
    | palSet | palSetrgb => cases hkind
    | _ => cases he
  | _ => cases he

end

/-! ### The statements -/

/-- Settles O54: completion steps SEQ and error entry sets HALT, so HALT afterwards tells the two endings apart. -/
theorem seqCountsCompletedCommands : Obligations.SeqCountsCompletedCommands := by
  intro i s t hhalt h
  by_cases hi : i = .reset
  · subst hi
    cases h
    simp
  · rcases exec_ends hi h with ⟨u, hu, rfl⟩ | ⟨e, rfl⟩
    · obtain ⟨hseq, huhalt, -⟩ := hu.frame
      refine ⟨fun hr => absurd hr hi, fun _ _ => ?_, fun ht => ?_⟩
      · simp [hseq, BitVec.toNat_add]
      · simp [huhalt, hhalt] at ht
    · exact ⟨fun hr => absurd hr hi, fun _ ht => by simp at ht, fun _ => rfl⟩

/-- Settles O56: what is committed keeps the registers, and so does error entry. -/
theorem registerWriters : Obligations.RegisterWriters := by
  intro i s t hi hw h r
  rcases exec_ends hi h with ⟨u, hu, rfl⟩ | ⟨e, rfl⟩
  · rw [State.complete_reg]
    exact State.reg_congr (hu.regs_eq hw) r
  · rfl

/-- Settles O58: by whether the instruction changes one entry of a palette or no slot at all. -/
theorem slotWriters : Obligations.SlotWriters := by
  intro i s t hi hw h
  rcases exec_ends hi h with ⟨u, hu, rfl⟩ | ⟨e, rfl⟩
  · simp only [State.complete_slot]
    cases he : Writes.oneEntry i with
    | none =>
      have hslot := State.slot_congr (hu.slots_eq hw he)
      exact ⟨fun _ => hslot, nofun, fun k => by rw [hslot]⟩
    | some entry =>
      obtain ⟨p, ra⟩ := entry
      obtain ⟨hother, hentries, hshape⟩ := hu.slots_of_oneEntry he
      refine ⟨nofun, fun p' ra' hpr => ?_, hshape⟩
      cases hpr
      exact ⟨hother, hentries⟩
  · simp

/-- Settles O59: each clause is a frame of what is committed, and error entry keeps the engine and the adapter. -/
theorem engineAndAdapterWriters : Obligations.EngineAndAdapterWriters := by
  intro i s t hi h
  rcases exec_ends hi h with ⟨u, hu, rfl⟩ | ⟨e, rfl⟩
  · exact ⟨hu.conf_eq, hu.bpl_eq, hu.cache_eq, fun _ => hu.configured, hu.pix_eq⟩
  · simp

end Sys2Proof.Machine

/-! ## Small rules: the reset states, the step, register writes, the cursor step -/

namespace Sys2Proof.Machine

/-! ### The states after a reset (R41, R125, R310) -/

/-- STATUS with every bit of R27 clear. -/
theorem State.status_eq_zero {s : State} (hhalt : s.halt = false) (hcfg : s.bpl.cfg = false)
    (hbound : s.pix.bound = false) (hslot : ∀ k, s.slot k = none) : s.status = 0#32 := by
  simp [State.status, flagBit, hhalt, hcfg, hbound, hslot]

/-- Whatever MEM holds, a cleared state is at the reset values, the control registers included. -/
theorem atResetButMem_clear (s : State) (m : Memory) : ({ s.clear with mem := m } : State).AtResetButMem := by
  refine ⟨s.clear_reg, rfl, rfl, rfl, rfl, s.clear_slot, rfl, rfl, rfl, rfl, fun n v h => ?_⟩
  unfold State.controlRegister at h
  split at h
  case h_1 => cases h; exact State.status_eq_zero rfl rfl rfl s.clear_slot
  all_goals cases h
  all_goals rfl

/-- Settles O52: every unit is at its reset value, for which its part of the invariant holds. -/
theorem resetHasInv : Obligations.ResetHasInv := by
  refine ⟨⟨fun _ => ⟨rfl, rfl⟩, nofun⟩, ⟨rfl, nofun⟩, ⟨fun _ => ⟨rfl, rfl, rfl⟩, nofun⟩, ⟨fun _ => rfl, nofun⟩, ?_⟩
  intro k P hP
  cases (State.reset.clear_slot k).symm.trans hP

/-! ### The step (R24, R120) -/

theorem step_command {s : State} {w : Word} {rest : List HostAction} (h : s.pending = .command w :: rest) :
    step s = runCommand w { s with pending := rest } := by
  unfold step
  rw [h]
  rfl

theorem step_hardwareReset {s : State} {rest : List HostAction} (h : s.pending = .hardwareReset :: rest) :
    step s = .next ({ s with pending := rest } : State).hardwareReset := by
  unfold step
  rw [h]
  rfl

theorem runCommand_of_decode {w : Word} {i : Instr} {s : State} (hhalt : s.halt = false) (hw : decode w = .ok i) :
    runCommand w s = exec i s := by
  simp [runCommand, hhalt, hw]

/-- The word of RESET is executed halted or not (R125, R292). -/
theorem runCommand_reset (s : State) : runCommand 0x04000000#32 s = .next s.clear := by
  cases hhalt : s.halt with
  | true => simp [runCommand, hhalt, exec, execReset]
  | false =>
    rw [runCommand_of_decode hhalt (show decode 0x04000000#32 = .ok .reset by decide)]
    rfl

/-- Settles O4: a command at the head of the list is what the step runs. -/
theorem stepRunsDecodedInstruction : Obligations.StepRunsDecodedInstruction := by
  intro w rest s h
  refine ⟨step_command h, fun i hhalt hw => ?_⟩
  rw [step_command h]
  exact runCommand_of_decode hhalt hw

/-- Settles O7: both ways to run RESET clear the state. -/
theorem resetInstruction : Obligations.ResetInstruction := by
  refine ⟨fun s => ⟨s.clear, rfl, atResetButMem_clear s s.mem, rfl, rfl⟩, fun rest s h => ?_⟩
  refine ⟨({ s with pending := rest } : State).clear, ?_, atResetButMem_clear { s with pending := rest } s.mem, rfl, rfl⟩
  rw [step_command h, runCommand_reset]

/-- Settles O8: a hardware reset is a cleared state with the MEM of the next power-on. -/
theorem hardwareResetState : Obligations.HardwareResetState := by
  refine ⟨atResetButMem_clear State.reset _, rfl, fun rest s h => ?_⟩
  exact ⟨_, step_hardwareReset h, atResetButMem_clear _ _, rfl, rfl, rfl⟩

/-! ### Register writes and their frame (R22, R23) -/

/-- Register writes in listed order. -/
def State.setRegs (s : State) (writes : List (Reg × Word)) : State := writes.foldl (fun t w => t.setReg w.1 w.2) s

@[simp] theorem State.setRegs_nil (s : State) : s.setRegs [] = s := rfl

@[simp] theorem State.setRegs_cons (s : State) (w : Reg × Word) (ws : List (Reg × Word)) :
    s.setRegs (w :: ws) = (s.setReg w.1 w.2).setRegs ws := rfl

theorem State.regAfter_cons (s : State) (w : Reg × Word) (ws : List (Reg × Word)) (r : Reg) :
    s.regAfter (w :: ws) r = (s.setReg w.1 w.2).regAfter ws r := by
  unfold State.regAfter
  by_cases hr : r = 0#4
  · simp [hr]
  · cases hfind : ws.reverse.find? (fun w => w.1 = r) with
    | some _ => simp [List.find?_append, hr, hfind]
    | none =>
      by_cases hw : w.1 = r
      · simp [List.find?_append, hr, hfind, hw, State.reg_setReg]
      · simp [List.find?_append, hr, hfind, hw, State.reg_setReg, Ne.symm hw]

/-- After register writes each register holds what `State.regAfter` says. -/
theorem State.reg_setRegs (s : State) (writes : List (Reg × Word)) (r : Reg) :
    (s.setRegs writes).reg r = s.regAfter writes r := by
  induction writes generalizing s with
  | nil => by_cases hr : r = 0#4 <;> simp [State.regAfter, hr]
  | cons w ws ih => rw [State.setRegs_cons, ih, State.regAfter_cons]

/-- A register that no write names keeps its value. -/
theorem State.reg_setRegs_of_not_mem (s : State) (writes : List (Reg × Word)) {r : Reg}
    (h : r ∉ writes.map Prod.fst) : (s.setRegs writes).reg r = s.reg r := by
  induction writes generalizing s with
  | nil => rfl
  | cons w ws ih =>
    simp only [List.map_cons, List.mem_cons, not_or] at h
    rw [State.setRegs_cons, ih _ h.2, State.reg_setReg]
    by_cases hr : r = 0#4 <;> simp [hr, h.1]

theorem State.setReg_eq_with_regs (s : State) (i : Reg) (v : Word) :
    s.setReg i v = { s with regs := (s.setReg i v).regs } := by
  unfold State.setReg
  split <;> rfl

/-- Register writes change the registers only. -/
theorem State.setRegs_eq_with_regs (s : State) (writes : List (Reg × Word)) :
    s.setRegs writes = { s with regs := (s.setRegs writes).regs } := by
  induction writes generalizing s with
  | nil => rfl
  | cons w ws ih =>
    rw [State.setRegs_cons, ih, State.setReg_eq_with_regs]

/-- Register writes and completion: the frame. -/
theorem onlyRegs_complete_setRegs (s : State) (writes : List (Reg × Word)) :
    OnlyRegs s (s.setRegs writes).complete (writes.map Prod.fst) := by
  refine ⟨fun r hr => s.reg_setRegs_of_not_mem writes hr, ?_⟩
  rw [State.setRegs_eq_with_regs]
  exact ⟨fun _ => rfl, rfl⟩

/-- A pseudocode that ends in register writes completes the command: what each register holds, and the frame. -/
theorem completes_of_exec_eq_setRegs {i : Instr} {s : State} {writes : List (Reg × Word)}
    (h : exec i s = commit s (.ok (s.setRegs writes))) :
    Completes i s fun t => (∀ r, t.reg r = s.regAfter writes r) ∧ OnlyRegs s t (writes.map Prod.fst) :=
  completes_of_exec_eq h ⟨s.reg_setRegs writes, onlyRegs_complete_setRegs s writes⟩
    (by rw [State.setRegs_eq_with_regs])

theorem Completes.imp {i : Instr} {s : State} {post post' : State → Prop} (h : Completes i s post)
    (himp : ∀ t, post t → post' t) : Completes i s post' := by
  obtain ⟨t, ht, hseq, hpost⟩ := h
  exact ⟨t, ht, hseq, himp t hpost⟩

/-- What one register write leaves in its destination. -/
theorem State.regAfter_singleton (s : State) (rd : Reg) (v : Word) :
    s.regAfter [(rd, v)] rd = if rd = 0#4 then 0#32 else v := by
  by_cases hr : rd = 0#4 <;> simp [State.regAfter, hr]

/-- One register write completes the command: the destination's value, and the frame. -/
theorem completes_of_exec_eq_setReg {i : Instr} {s : State} {rd : Reg} {v : Word}
    (h : exec i s = commit s (.ok (s.setReg rd v))) :
    Completes i s fun t => t.reg rd = (if rd = 0#4 then 0#32 else v) ∧ OnlyRegs s t [rd] :=
  (completes_of_exec_eq_setRegs (writes := [(rd, v)]) h).imp fun _ ⟨hreg, honly⟩ =>
    ⟨(hreg rd).trans (s.regAfter_singleton rd v), honly⟩

/-! ### NOP, LI, LIH (R121 to R123) -/

/-- LIH in numbers: bits 31:20 from the immediate, bits 19:0 from the register. -/
theorem toNat_lih (imm12 : BitVec 12) (x : Word) :
    ((imm12.setWidth 32 <<< 20) ||| (x &&& 0x000FFFFF#32)).toNat = imm12.toNat * 2 ^ 20 + x.toNat % 2 ^ 20 := by
  have hlow : x.toNat &&& 0x000FFFFF = x.toNat % 2 ^ 20 := Nat.and_two_pow_sub_one_eq_mod x.toNat 20
  have hhigh : imm12.toNat <<< 20 % 2 ^ 32 = imm12.toNat <<< 20 :=
    Nat.mod_eq_of_lt (by rw [Nat.shiftLeft_eq]; omega)
  have hwide : imm12.toNat % 2 ^ 32 = imm12.toNat := Nat.mod_eq_of_lt (by omega)
  rw [BitVec.toNat_or, BitVec.toNat_and, BitVec.toNat_shiftLeft, BitVec.toNat_setWidth, hwide, hhigh,
    BitVec.toNat_ofNat, Nat.mod_eq_of_lt (by decide), hlow,
    ← Nat.shiftLeft_add_eq_or_of_lt (Nat.mod_lt _ (Nat.two_pow_pos 20)), Nat.shiftLeft_eq]

/-- Settles O10: NOP writes no register, LI and LIH write one. -/
theorem nopLiLihComplete : Obligations.NopLiLihComplete := by
  refine fun s => ⟨?_, fun rd imm20 => ?_, fun rd imm12 => ?_⟩
  · exact (completes_of_exec_eq_setRegs (writes := []) rfl).imp fun _ ⟨_, honly⟩ => honly
  · refine (completes_of_exec_eq_setReg rfl).imp fun t ⟨hreg, honly⟩ => ⟨?_, honly⟩
    rw [hreg, apply_ite BitVec.toNat, BitVec.toNat_setWidth, Nat.mod_eq_of_lt (by omega)]
    rfl
  · refine (completes_of_exec_eq_setReg rfl).imp fun t ⟨hreg, honly⟩ => ⟨?_, honly⟩
    rw [hreg, apply_ite BitVec.toNat, toNat_lih]
    rfl

/-! ### The cursor step (R202) -/

/-- Settles O34: inside its block and line the cursor's tests for a wrap are comparisons with the bound. -/
theorem cursorStepRule : Obligations.CursorStepRule := by
  intro e ⟨hbyte, hblock⟩
  have hbit : e.cur.bitIndex ≠ 7#3 ↔ e.cur.bitIndex.toNat < 7 := by bv_omega
  dsimp only
  unfold Bitplane.stepCursor
  split
  case isTrue h => exact ⟨_, if_pos (hbit.2 h), rfl, by bv_omega⟩
  case isFalse h =>
    have hbit := mt hbit.1 h
    split
    case isTrue h => exact ⟨_, (if_neg hbit).trans (if_pos (by omega)), rfl, by bv_omega⟩
    case isFalse h =>
      have hbyte : ¬ (e.cur.byteInBlock.toNat + 1 ≠ e.conf.bytesPerBlock.toNat) := by omega
      split
      case isTrue h => exact ⟨_, (if_neg hbit).trans ((if_neg hbyte).trans (if_pos (by omega))), rfl, by bv_omega⟩
      case isFalse h =>
        have hblock : ¬ (e.cur.blockIndex.toNat + 1 ≠ e.conf.blocksPerLine.toNat) := by omega
        split
        case isTrue h =>
          exact ⟨_, (if_neg hbit).trans ((if_neg hbyte).trans ((if_neg hblock).trans (if_neg (by omega)))), rfl,
            by bv_omega⟩
        case isFalse h => exact (if_neg hbit).trans ((if_neg hbyte).trans ((if_neg hblock).trans (if_pos (by omega))))

end Sys2Proof.Machine

/-! ## CRR, PAL.GET, and PIX.BIND with PIX.SETPAL -/

namespace Sys2Proof.Machine

/-! ### The control registers (R26, R27) -/

/-- The numbers of the control registers with their values, in the order of R26. -/
def State.controlTable (s : State) : List (BitVec 8 × Word) := [
  (0x00, s.status), (0x01, s.errcode), (0x02, s.errval), (0x03, s.seq),
  (0x10, s.bpl.conf.base), (0x11, s.bpl.conf.len), (0x12, s.bpl.conf.bytesPerBlock), (0x13, s.bpl.conf.blockStride),
  (0x14, s.bpl.conf.blocksPerLine), (0x15, s.bpl.conf.lineStride), (0x16, s.bpl.conf.planeCount),
  (0x17, s.bpl.conf.planeStride), (0x18, s.bpl.cur.byteInBlock), (0x19, s.bpl.cur.blockIndex),
  (0x1A, s.bpl.cur.lineIndex), (0x1B, s.bpl.cur.bitIndex.setWidth 32),
  (0x20, s.pix.base), (0x21, s.pix.len), (0x22, s.pix.pos), (0x23, s.pix.pal.setWidth 32),
  (0x24, BitVec.ofNat 32 s.pix.lut.length)]

/-- Each listed number reads its value, and no other number is a control register (R26). -/
theorem State.controlRegister_eq_some {s : State} {cr : BitVec 8} {v : Word} :
    s.controlRegister cr = some v ↔ (cr, v) ∈ s.controlTable := by
  constructor
  · intro h
    unfold State.controlRegister at h
    split at h
    case h_22 => cases h
    all_goals
      rename_i hcr
      have hnumber : BitVec.ofNat 8 cr.toNat = cr := by simp
      rw [hcr] at hnumber
      subst hnumber
      cases h
      simp [State.controlTable]
  · have listed : ∀ entry ∈ s.controlTable, s.controlRegister entry.1 = some entry.2 := by
      simp [State.controlTable, State.controlRegister]
    exact listed (cr, v)

theorem getLsbD_flagBit (b : Bool) {k : Nat} (hk : k < 32) (n : Nat) :
    (flagBit b k).getLsbD n = (b && decide (n = k)) := by
  cases b with
  | false => simp [flagBit]
  | true =>
    simp only [flagBit, if_true, BitVec.getLsbD_shiftLeft, BitVec.getLsbD_one, Bool.true_and]
    by_cases hn : n = k
    · simp [hn, hk]
    · simp only [hn, decide_false]
      simp
      omega

/-- The bits of STATUS (R27). -/
theorem State.getLsbD_status (s : State) (n : Nat) :
    s.status.getLsbD n =
      if n = 0 then s.halt else if n = 1 then s.bpl.cfg else if n = 2 then s.pix.bound
      else if h : 4 ≤ n ∧ n < 8 then (s.slot ⟨n - 4, by omega⟩).isSome else false := by
  simp (disch := decide) only [State.status, BitVec.getLsbD_or, getLsbD_flagBit]
  by_cases hn : n < 8
  · interval_cases n <;> simp
  · have hne (k : Nat) (hk : k < 8) : n ≠ k := by omega
    simp [hne, hn]

theorem exec_crr_of_some {rd : Reg} {cr : BitVec 8} {s : State} {v : Word} (h : s.controlRegister cr = some v) :
    exec (.crr rd cr) s = commit s (.ok (s.setReg rd v)) := by
  change execCrr rd cr s = _
  rw [execCrr, h]

theorem exec_crr_of_none {rd : Reg} {cr : BitVec 8} {s : State} (h : s.controlRegister cr = none) :
    exec (.crr rd cr) s = commit s (.error ⟨.badCr, cr.toNat⟩) := by
  change execCrr rd cr s = _
  rw [execCrr, h]

/-- Settles O11: CRR looks the number up in the table of R26. -/
theorem crrReadsControlRegisters : Obligations.CrrReadsControlRegisters := by
  intro rd cr s table
  refine ⟨fun v hv => ?_, fun hnone => ?_, s.getLsbD_status⟩
  · exact completes_of_exec_eq_setReg (exec_crr_of_some (State.controlRegister_eq_some.2 hv))
  · have hcr : s.controlRegister cr = none :=
      Option.eq_none_iff_forall_ne_some.2 fun v hv => hnone v (State.controlRegister_eq_some.1 hv)
    exact raises_of_exec_eq (exec_crr_of_none hcr) (by decide)

/-! ### An occupied slot named by a slot field -/

/-- The slot checks of a command that names an occupied slot (R140). -/
theorem State.slotAt_eq_some {s : State} {p : SlotNo} {P : Palette} (h : s.slotAt p = some P) :
    ∃ k : Fin 4, p.toNat = k.val ∧ checkSlot p = .ok k ∧ s.readSlot k = .ok P := by
  unfold State.slotAt at h
  split at h
  case isTrue hp => exact ⟨⟨p.toNat, hp⟩, rfl, checkSlot_of_lt hp, State.readSlot_eq_ok.2 h⟩
  case isFalse => cases h

/-! ### PAL.GET (R144) -/

/-- PAL.GET on an occupied slot: the entry is read, then its channels are written in the order r, g, b, a. -/
theorem exec_palGet {p : SlotNo} {s : State} {P : Palette} (h : s.slotAt p = some P) (ra rb rc rd re : Reg) :
    exec (.palGet p ra rb rc rd re) s = commit s (match P.entry (s.reg ra).toNat with
      | none => .error ⟨.badIndex, (s.reg ra).toNat⟩
      | some c => .ok (s.setRegs [(rb, c.r.setWidth 32), (rc, c.g.setWidth 32), (rd, c.b.setWidth 32),
          (re, c.a.setWidth 32)])) := by
  obtain ⟨k, -, hk, hP⟩ := State.slotAt_eq_some h
  change execPalGet p ra rb rc rd re s = _
  rw [execPalGet, hk, ok_bind, hP, ok_bind]
  dsimp only
  cases P.entry (s.reg ra).toNat <;> rfl

/-- Settles O15: the entry's number decides between BAD_INDEX and the four register writes. -/
theorem palGetOutcome : Obligations.PalGetOutcome := by
  intro p ra rb rc rd re s P hP i
  have hexec := exec_palGet hP ra rb rc rd re
  refine ⟨fun hi => ?_, fun c hc => ?_⟩
  · rw [Palette.entry_eq_none.2 hi] at hexec
    exact raises_of_exec_eq hexec (by decide)
  · rw [show P.entry (s.reg ra).toNat = some c from hc] at hexec
    exact completes_of_exec_eq_setRegs hexec

/-! ### Scaled channels (R150, R151) -/

/-- A channel of a depth scales into the range of the new depth (R150). -/
theorem rs_le {c ob : Nat} (nb : Nat) (hob : 1 ≤ ob) (hc : c ≤ 2 ^ ob - 1) : rs c ob nb ≤ 2 ^ nb - 1 := by
  have hpow : 2 ^ 1 ≤ 2 ^ ob := Nat.pow_le_pow_right (by omega) hob
  have hmul : c * maxChannel nb ≤ maxChannel ob * maxChannel nb := Nat.mul_le_mul_right _ hc
  have hpos : 0 < maxChannel ob := by unfold maxChannel; omega
  have hlt : 2 * c * maxChannel nb + maxChannel ob < (maxChannel nb + 1) * (2 * maxChannel ob) := by
    nlinarith only [hmul, hpos]
  exact Nat.lt_succ_iff.1 ((Nat.div_lt_iff_lt_mul (by omega)).2 hlt)

/-- A channel scaled to at most 8 bits keeps its value in 8 bits. -/
theorem toNat_rs {c ob nb : Nat} (hob : 1 ≤ ob) (hnb : nb ≤ 8) (hc : c ≤ 2 ^ ob - 1) :
    (BitVec.ofNat 8 (rs c ob nb)).toNat = rescaled c ob nb := by
  have hle := rs_le nb hob hc
  have hpow : 2 ^ nb ≤ 2 ^ 8 := Nat.pow_le_pow_right (by omega) hnb
  exact Nat.mod_eq_of_lt (by omega)

/-- A byte joined below a value, both shifted. -/
theorem shiftLeft_or_shiftLeft {x y : Nat} (k : Nat) (hy : y < 2 ^ 8) :
    x <<< (8 + k) ||| y <<< k = (x * 2 ^ 8 + y) <<< k := by
  rw [Nat.shiftLeft_add, ← Nat.shiftLeft_or_distrib, ← Nat.shiftLeft_add_eq_or_of_lt hy, Nat.shiftLeft_eq x]

/-- A byte shifted inside a word loses no bit. -/
theorem toNat_setWidth_shiftLeft (x : Byte) {k : Nat} (hk : k ≤ 24) :
    (x.setWidth 32 <<< k).toNat = x.toNat <<< k := by
  have hpow : 2 ^ k ≤ 2 ^ 24 := Nat.pow_le_pow_right (by omega) hk
  have hlt : x.toNat * 2 ^ k < 2 ^ 8 * 2 ^ 24 := Nat.mul_lt_mul_of_lt_of_le x.isLt hpow (by positivity)
  rw [BitVec.toNat_shiftLeft, BitVec.toNat_setWidth_of_le (by omega), Nat.shiftLeft_eq, Nat.mod_eq_of_lt (by omega)]

/-- Four bytes packed with alpha at 8 bits per channel, in numbers (R65, R151). -/
theorem Color.toNat_pack_eight (c : Color) :
    (c.pack 8 true).toNat = packedValue 8 true c.r.toNat c.g.toNat c.b.toNat c.a.toNat := by
  have halpha : (c.a.setWidth 32).toNat = c.a.toNat <<< 0 := BitVec.toNat_setWidth_of_le (by omega)
  simp only [Color.pack, packedValue, if_true, BitVec.toNat_or]
  rw [toNat_setWidth_shiftLeft c.r (k := 3 * 8) (by omega), toNat_setWidth_shiftLeft c.g (k := 2 * 8) (by omega),
    toNat_setWidth_shiftLeft c.b (k := 8) (by omega), halpha, shiftLeft_or_shiftLeft (2 * 8) c.g.isLt,
    shiftLeft_or_shiftLeft 8 c.b.isLt, shiftLeft_or_shiftLeft 0 c.a.isLt, Nat.shiftLeft_zero]
  omega

/-- The value of entry `i` of a LUT: the palette's entry at 8 bits per channel, packed with alpha (R260). -/
theorem Palette.toNat_buildLut {P : Palette} (hP : P.Ok) {i : Nat} {c : Color} {v : Word} (hc : P.ents[i]? = some c)
    (hv : P.buildLut[i]? = some v) :
    v.toNat = packedValue 8 true (rescaled c.r.toNat P.bpc 8) (rescaled c.g.toNat P.bpc 8)
      (rescaled c.b.toNat P.bpc 8) (rescaled c.a.toNat P.bpc 8) := by
  obtain ⟨-, hbpc, -, hents⟩ := hP
  obtain ⟨hr, hg, hb, ha⟩ := hents c (List.mem_of_getElem? hc)
  have hlut : v = (c.rescale P.bpc 8).pack 8 true := by
    simpa [Palette.buildLut, Palette.toValues, hc, eq_comm] using hv
  rw [hlut, Color.toNat_pack_eight, Color.rescale]
  simp only [toNat_rs hbpc (le_refl 8), hr, hg, hb, ha]

/-! ### PIX.BIND and PIX.SETPAL (R261, R265) -/

/-- PIX.BIND of an occupied slot: the window is checked, then the adapter is bound at position 0. -/
theorem exec_pixBind {p : SlotNo} {s : State} {P : Palette} (h : s.slotAt p = some P) (ra rb : Reg) :
    exec (.pixBind p ra rb) s = commit s (do
      s.checkWindow (s.reg ra) (s.reg rb).toNat
      .ok { s with pix := ⟨true, s.reg ra, s.reg rb, 0#32, BitVec.ofNat 2 p.toNat, P.buildLut⟩ }) := by
  obtain ⟨k, hpk, hk, hP⟩ := State.slotAt_eq_some h
  change execPixBind p ra rb s = _
  rw [execPixBind, hk, ok_bind, hP, ok_bind, hpk]

/-- PIX.SETPAL of an occupied slot: after the check that the adapter is bound, slot number and LUT are replaced. -/
theorem exec_pixSetpal {p : SlotNo} {s : State} {P : Palette} (h : s.slotAt p = some P) :
    exec (.pixSetpal p) s = commit s (do
      s.pix.checkBound
      .ok { s with pix := { s.pix with pal := BitVec.ofNat 2 p.toNat, lut := P.buildLut } }) := by
  obtain ⟨k, hpk, hk, hP⟩ := State.slotAt_eq_some h
  change execPixSetpal p s = _
  rw [execPixSetpal, hk, ok_bind, hP, ok_bind, hpk]

/-- Settles O46: after the one check each has left, both put the LUT of the named palette into the adapter. -/
theorem pixBindSetpalOutcome : Obligations.PixBindSetpalOutcome := by
  intro p ra rb s P hP hok lutOf frame
  have hlut {t : State} (ht : t.pix.lut = P.buildLut) : lutOf t :=
    ⟨by rw [ht, Palette.length_buildLut]; rfl, fun i c v hc hv => Palette.toNat_buildLut hok hc (ht ▸ hv)⟩
  have hpal : (BitVec.ofNat 2 p.toNat).toNat = p.toNat := by
    obtain ⟨k, hpk, -, -⟩ := State.slotAt_eq_some hP
    exact Nat.mod_eq_of_lt (by omega)
  have hbind := exec_pixBind hP ra rb
  have hset := exec_pixSetpal hP
  constructor
  · split
    case isTrue hwin =>
      rw [State.checkWindow_eq_error.2 ⟨hwin, rfl⟩, error_bind] at hbind
      exact raises_of_exec_eq hbind (by decide)
    case isFalse hwin =>
      rw [(State.checkWindow_eq_ok (u := ())).2 (by omega), ok_bind] at hbind
      exact completes_of_exec_eq hbind ⟨rfl, rfl, rfl, rfl, hpal, hlut rfl, fun _ => rfl, rfl⟩ rfl
  · split
    case isTrue hbound =>
      rw [Adapter.checkBound, require_of_not (by simp [hbound]), error_bind] at hset
      exact raises_of_exec_eq hset (by decide)
    case isFalse hbound =>
      have hbound : s.pix.bound = true := by simpa using hbound
      rw [(Adapter.checkBound_eq_ok (u := ())).2 hbound, ok_bind] at hset
      exact completes_of_exec_eq hset ⟨hbound, rfl, rfl, rfl, hpal, hlut rfl, fun _ => rfl, rfl⟩ rfl

end Sys2Proof.Machine

/-! ## The bitplane engine: bounds, cache and BPL.READ -/

namespace Sys2Proof.Machine

section
variable {e e' : Bitplane} {m : Memory}

/-! ### The bounds check and the cursor step -/

/-- The lowest plane outside the window is the one that BPL_ADDR reports (R208, R209). -/
theorem Bitplane.checkPlanes_eq_error {k : Nat} (hk : k < e.planes) (hout : e.conf.len.toNat ≤ e.offset k)
    (hin : ∀ j < k, e.offset j < e.conf.len.toNat) :
    e.checkPlanes = .error ⟨.bplAddr, min (e.offset k) (2 ^ 32 - 1)⟩ := by
  have hfind : (List.range e.planes).find? (fun k => e.conf.len.toNat ≤ e.offset k) = some k := by
    rw [List.find?_range_eq_some]
    exact ⟨by simpa using hout, List.mem_range.2 hk, fun j hj => by simpa using hin j hj⟩
  rw [Bitplane.checkPlanes, hfind]

/-- Away from the last pixel of the last line the cursor steps (R202). -/
theorem Bitplane.exists_stepCursor (h : ¬ e.AtLastPixel) : ∃ c, e.stepCursor = .ok c := by
  cases hstep : e.stepCursor with
  | ok c => exact ⟨c, rfl⟩
  | error x => exact absurd (Bitplane.stepCursor_eq_error.1 hstep).1 h

/-- The configuration and the cursor decide the cursor step. -/
theorem Bitplane.stepCursor_congr (hconf : e'.conf = e.conf) (hcur : e'.cur = e.cur) :
    e'.stepCursor = e.stepCursor := by
  simp only [Bitplane.stepCursor, hconf, hcur]

/-! ### The cache (R35, R208) -/

theorem Bitplane.fill_of_needsFill (h : e.NeedsFill) :
    e.fill m = (do
      e.checkPlanes
      .ok { e with cacheValid := true, cache := e.decodeCache m }) :=
  if_pos h

/-- A read that fills no cache, or whose planes are all inside the window, gets a cache. -/
theorem Bitplane.exists_fill (h : e.NeedsFill → ∀ k < e.planes, e.offset k < e.conf.len.toNat) :
    ∃ e', e.fill m = .ok e' := by
  by_cases hn : e.NeedsFill
  · rw [Bitplane.fill_of_needsFill hn, (Bitplane.checkPlanes_eq_ok (u := ())).2 (h hn), ok_bind]
    exact ⟨_, rfl⟩
  · exact ⟨e, if_neg hn⟩

/-- One plane's part of an index: the bit at its place (R67). -/
theorem shiftRight_mod_shiftLeft (x : Byte) (n k : Nat) :
    ((x.toNat >>> n) % 2) <<< k = if x.getLsbD n then 2 ^ k else 0 := by
  rw [Nat.shiftRight_eq_div_pow, Nat.shiftLeft_eq, ← Nat.toNat_testBit]
  change (x.getLsbD n).toNat * 2 ^ k = _
  cases x.getLsbD n <;> simp

/-- An index has one bit per plane. -/
theorem pixelOf_lt (n : Nat) (B : Nat → Byte) (j : Nat) : pixelOf n B j < 2 ^ n := by
  induction n with
  | zero => simp [pixelOf]
  | succ n ih =>
    have hsplit : pixelOf (n + 1) B j = pixelOf n B j + (((B n).toNat >>> (7 - j)) % 2) <<< n := by
      simp [pixelOf, List.range_succ]
    have hbit : (((B n).toNat >>> (7 - j)) % 2) <<< n ≤ 2 ^ n := by
      rw [shiftRight_mod_shiftLeft]
      split <;> omega
    rw [hsplit, Nat.pow_succ]
    omega

/-- The decoded index at bit `b` is the pixel at the cursor moved to bit `b`: the address of a plane does not depend
on the bit (R200, R208). -/
theorem Bitplane.pixelOf_eq_pixelAt (e : Bitplane) (m : Memory) (b : BitVec 3) :
    pixelOf e.planes (fun k => m.read (e.address k)) b.toNat =
      pixelAt (e.atCursor { e.cur with bitIndex := b }) m := by
  unfold pixelOf pixelAt
  simp only [shiftRight_mod_shiftLeft]
  rfl

/-- A decoded cache entry, as a number. -/
theorem Bitplane.toNat_decodeCache (e : Bitplane) (m : Memory) (hplanes : e.planes ≤ 8) {j : Nat} (hj : j < 8) :
    ((e.decodeCache m)[j]).toNat = pixelOf e.planes (fun k => m.read (e.address k)) j := by
  have hlt := pixelOf_lt e.planes (fun k => m.read (e.address k)) j
  have hpow : 2 ^ e.planes ≤ 2 ^ 8 := Nat.pow_le_pow_right (by omega) hplanes
  rw [Bitplane.decodeCache, Vector.getElem_ofFn]
  dsimp only
  exact Nat.mod_eq_of_lt (by omega)

/-- A decoded cache holds at each bit the pixel at that bit of the cursor's byte (R208). -/
theorem Bitplane.cached_decodeCache (e : Bitplane) (m : Memory) (hplanes : e.planes ≤ 8) (c : Cursor) :
    (({ e with cacheValid := true, cache := e.decodeCache m } : Bitplane).atCursor c).cached.toNat =
      pixelAt (e.atCursor { e.cur with bitIndex := c.bitIndex }) m :=
  (e.toNat_decodeCache m hplanes c.bitIndex.isLt).trans (e.pixelOf_eq_pixelAt m c.bitIndex)

end

/-! ### BPL.READ (R208) -/

/-- A command that moves the engine and writes one register: the frame. -/
theorem onlyCursorAndRegs_complete (s : State) {e : Bitplane} (rd : Reg) (v : Word) (hcfg : e.cfg = s.bpl.cfg)
    (hconf : e.conf = s.bpl.conf) : OnlyCursorAndRegs s (({ s with bpl := e }.setReg rd v).complete) [rd] := by
  refine ⟨fun r hr => ?_, fun a => by simp, by simpa using hcfg, by simpa using hconf, ?_⟩
  · exact State.reg_setRegs_of_not_mem { s with bpl := e } [(rd, v)] hr
  · rw [State.setReg_eq_with_regs]
    rfl

theorem exec_bplRead (rd : Reg) (s : State) :
    exec (.bplRead rd) s = commit s (do
      s.bpl.checkConfigured
      let e ← s.bpl.fill s.mem
      let cur ← e.stepCursor
      .ok ({ s with bpl := { e with cur := cur } }.setReg rd (e.cached.setWidth 32))) := rfl

/-- BPL.READ on a configured engine whose cache is ready and whose cursor can step completes. -/
theorem exec_bplRead_of_fill {rd : Reg} {s : State} {e : Bitplane} {cur : Cursor} (hcfg : s.bpl.cfg = true)
    (hfill : s.bpl.fill s.mem = .ok e) (hstep : s.bpl.stepCursor = .ok cur) :
    exec (.bplRead rd) s =
      commit s (.ok ({ s with bpl := { e with cur := cur } }.setReg rd (e.cached.setWidth 32))) := by
  obtain ⟨-, hconf, hcur, -⟩ := Bitplane.fill_keeps hfill
  rw [exec_bplRead, (Bitplane.checkConfigured_eq_ok (u := ())).2 hcfg, ok_bind, hfill, ok_bind,
    Bitplane.stepCursor_congr hconf hcur, hstep, ok_bind]

/-- What BPL.READ writes to its destination, as a number: the cached index. -/
theorem toNat_reg_setReg_byte (s : State) (rd : Reg) (x : Byte) :
    ((s.setReg rd (x.setWidth 32)).reg rd).toNat = if rd = 0#4 then 0 else x.toNat := by
  rw [State.reg_setReg, if_pos rfl, apply_ite BitVec.toNat, BitVec.toNat_setWidth_of_le (by omega)]
  rfl

/-- Settles O35: the checks in their order, then the two ways the cache is ready. -/
theorem bplReadOutcome : Obligations.BplReadOutcome := by
  intro rd s e i
  refine ⟨fun hcfg => ?_, fun hcfg hfill k hk hout hin => ?_, fun hcfg hin => ⟨fun hlast => ?_, fun hlast hplanes => ?_⟩⟩
  · have hexec := exec_bplRead rd s
    rw [Bitplane.checkConfigured, require_of_not (by rw [hcfg]; decide), error_bind] at hexec
    exact raises_of_exec_eq hexec (by decide)
  · have hexec := exec_bplRead rd s
    rw [(Bitplane.checkConfigured_eq_ok (u := ())).2 hcfg, ok_bind, Bitplane.fill_of_needsFill hfill,
      Bitplane.checkPlanes_eq_error hk hout hin] at hexec
    exact raises_of_exec_eq hexec (by decide)
  · have hexec := exec_bplRead rd s
    obtain ⟨e', hfill⟩ := Bitplane.exists_fill (m := s.mem) hin
    obtain ⟨-, hconf, hcur, -⟩ := Bitplane.fill_keeps hfill
    rw [(Bitplane.checkConfigured_eq_ok (u := ())).2 hcfg, ok_bind, hfill, ok_bind,
      Bitplane.stepCursor_congr hconf hcur, Bitplane.stepCursor_eq_error.2 ⟨hlast, rfl⟩] at hexec
    exact raises_of_exec_eq hexec (by decide)
  · obtain ⟨cur, hstep⟩ := Bitplane.exists_stepCursor hlast
    obtain ⟨e', hfill⟩ := Bitplane.exists_fill (m := s.mem) hin
    obtain ⟨hcfg', hconf, hcur, hvalid⟩ := Bitplane.fill_keeps hfill
    refine completes_of_exec_eq (exec_bplRead_of_fill hcfg hfill hstep) ?_ (by simp)
    have hframe := onlyCursorAndRegs_complete s (e := { e' with cur := cur }) rd (e'.cached.setWidth 32) hcfg' hconf
    have hvalue := toNat_reg_setReg_byte { s with bpl := { e' with cur := cur } } rd e'.cached
    rw [State.complete_reg, State.complete_bpl, State.setReg_bpl, hvalue]
    rcases Bitplane.fill_eq_ok hfill with ⟨hbit, hold, rfl⟩ | ⟨hneeds, -, rfl⟩
    · have hready : ¬ (e.cur.bitIndex = 0#3 ∨ e.cacheValid = false) := not_or.2 ⟨hbit, by simp [hold]⟩
      exact ⟨by rw [if_neg hready], hvalid, hstep, fun h => absurd h hready, fun _ => rfl, hframe⟩
    · refine ⟨?_, rfl, hstep, fun _ b => ?_, fun h => absurd hneeds h, hframe⟩
      · rw [if_pos hneeds]
        exact congrArg (ite _ _) (Bitplane.cached_decodeCache s.bpl s.mem hplanes s.bpl.cur)
      · exact Bitplane.cached_decodeCache s.bpl s.mem hplanes { s.bpl.cur with bitIndex := b }

end Sys2Proof.Machine

/-! ## The invariant: each unit's part is kept by the operations on that unit -/

namespace Sys2Proof.Machine

/-! ### Palettes (R30, R31) -/

/-- A number brought into 8 bits is no larger. -/
theorem toNat_byte_le {x n : Nat} (h : x ≤ n) : (BitVec.ofNat 8 x).toNat ≤ n :=
  (Nat.mod_le x _).trans h

theorem channelOperand_le (bpc : Nat) (v : Word) : (channelOperand bpc v).toNat ≤ 2 ^ bpc - 1 := by
  refine toNat_byte_le ?_
  unfold clamp maxChannel
  split
  · simp
  · split <;> omega

/-- The colour that PAL.SET stores is in the depth's range, whatever the operands hold (R142). -/
theorem Color.ok_of_operands (bpc : Nat) (r g b a : Word) :
    Color.Ok bpc ⟨channelOperand bpc r, channelOperand bpc g, channelOperand bpc b, channelOperand bpc a⟩ :=
  ⟨channelOperand_le bpc r, channelOperand_le bpc g, channelOperand_le bpc b, channelOperand_le bpc a⟩

/-- The colour that PAL.SETRGB stores is in the depth's range (R143). -/
theorem Color.ok_of_rgb_operands (bpc : Nat) (r g b : Word) :
    Color.Ok bpc ⟨channelOperand bpc r, channelOperand bpc g, channelOperand bpc b, BitVec.ofNat 8 (maxChannel bpc)⟩ :=
  ⟨channelOperand_le bpc r, channelOperand_le bpc g, channelOperand_le bpc b, toNat_byte_le (le_refl _)⟩

/-- Replacing one entry by a colour of the depth keeps a palette legal. -/
theorem Palette.Ok.set {P : Palette} (h : P.Ok) {c : Color} (hc : c.Ok P.bpc) (n : Nat) :
    Palette.Ok ⟨P.bpc, P.ents.set n c⟩ := by
  obtain ⟨hlen, hlow, hhigh, hents⟩ := h
  refine ⟨by simpa using hlen, hlow, hhigh, fun d hd => ?_⟩
  rcases List.mem_or_eq_of_mem_set hd with hd | rfl
  · exact hents d hd
  · exact hc

/-- PAL.NEW makes a legal palette (R141). -/
theorem Palette.ok_new {n b : Nat} (hlen : n ≤ 256) (hb : 1 ≤ b ∧ b ≤ 8) :
    Palette.Ok ⟨b, List.replicate n (palInit b)⟩ :=
  ⟨by simpa using hlen, hb.1, hb.2, fun _ hc => List.eq_of_mem_replicate hc ▸ palInit_ok b⟩

/-- Resampling makes a legal palette of a legal one (R149). -/
theorem Palette.Ok.resample {P : Palette} (h : P.Ok) {nb : Nat} (hnb : 1 ≤ nb ∧ nb ≤ 8) : (P.resample nb).Ok := by
  obtain ⟨hlen, hlow, -, hents⟩ := h
  refine ⟨by simpa using hlen, hnb.1, hnb.2, fun d hd => ?_⟩
  obtain ⟨c, hc, rfl⟩ := List.mem_map.1 hd
  obtain ⟨hr, hg, hb, ha⟩ := hents c hc
  exact ⟨toNat_byte_le (rs_le nb hlow hr), toNat_byte_le (rs_le nb hlow hg), toNat_byte_le (rs_le nb hlow hb),
    toNat_byte_le (rs_le nb hlow ha)⟩

/-- Any packed words of the right number make a legal 8-bit palette (R152). -/
theorem Palette.ok_ofValues {vs : List Word} (h : vs.length ≤ 256) : (Palette.ofValues vs).Ok := by
  refine ⟨by simpa [Palette.ofValues] using h, by simp [Palette.ofValues], by simp [Palette.ofValues], fun d hd => ?_⟩
  have byte_le (x : Byte) : x.toNat ≤ 2 ^ 8 - 1 := by omega
  exact ⟨byte_le d.r, byte_le d.g, byte_le d.b, byte_le d.a⟩

/-- A nibble whose bit 3 is clear is a 3-bit channel. -/
theorem nibble_le_seven : ∀ n : BitVec 4, n.getLsbD 3 = false → n.toNat ≤ 7 := by decide

/-- A word without a bit of R183 is a 3-bit colour (R184). -/
theorem stColor_ok {w : BitVec 16} (h : w &&& 0x0888#16 = 0#16) : (stColor w).Ok 3 := by
  have bit_clear (i : Nat) (hi : (0x0888#16).getLsbD i = true) : w.getLsbD i = false := by
    have hand := congrArg (·.getLsbD i) h
    simpa [BitVec.getLsbD_and, hi] using hand
  have channel_le (n : BitVec 4) (hn : n.getLsbD 3 = false) : (n.setWidth 8).toNat ≤ 2 ^ 3 - 1 := by
    rw [BitVec.toNat_setWidth_of_le (by omega)]
    exact nibble_le_seven n hn
  refine ⟨channel_le _ ?_, channel_le _ ?_, channel_le _ ?_, le_refl _⟩
  · simpa [redNibble] using bit_clear 11 (by decide)
  · simpa [greenNibble] using bit_clear 7 (by decide)
  · simpa [blueNibble] using bit_clear 3 (by decide)

theorem steColor_ok (w : BitVec 16) : (steColor w).Ok 4 := by
  have channel_le (n : BitVec 4) : (n.setWidth 8).toNat ≤ 2 ^ 4 - 1 := by
    rw [BitVec.toNat_setWidth_of_le (by omega)]
    omega
  exact ⟨channel_le _, channel_le _, channel_le _, le_refl _⟩

/-- A buffer of at most 256 colour words makes a legal palette (R184). -/
theorem atariPalette_ok {ws : List (BitVec 16)} (h : ws.length ≤ 256) : (atariPalette ws).Ok := by
  unfold atariPalette
  split
  case isTrue hste =>
    refine ⟨by simpa using h, by simp, by simp, fun d hd => ?_⟩
    obtain ⟨w, -, rfl⟩ := List.mem_map.1 hd
    exact steColor_ok w
  case isFalse hst =>
    refine ⟨by simpa using h, by simp, by simp, fun d hd => ?_⟩
    obtain ⟨w, hw, rfl⟩ := List.mem_map.1 hd
    have hclear : ∀ w ∈ ws, w &&& 0x0888#16 = 0#16 := by simpa [steDetected] using hst
    exact stColor_ok (hclear w hw)

/-! ### MEM (R60) -/

section
variable {n a : Nat} {m : Memory}

theorem Memory.Ok.write (h : m.Ok n) (ha : a < n) (b : Byte) : (m.write a b).Ok n := by
  refine ⟨m.wf_write a b h.1, fun c hc => ?_⟩
  rcases m.mem_cells_write a b c hc with hca | hc
  · omega
  · exact h.2 c hc

theorem Memory.Ok.writeBytes (h : m.Ok n) {bs : List Byte} (ha : a + bs.length ≤ n) : (m.writeBytes a bs).Ok n := by
  refine ⟨m.wf_writeBytes a bs h.1, fun c hc => ?_⟩
  rcases m.mem_cells_writeBytes a bs c hc with hca | hc
  · omega
  · exact h.2 c hc

theorem Memory.Ok.orPixel (h : m.Ok n) {e : Bitplane} {planes : Nat} (he : ∀ k < planes, e.address k < n) (c : Word) :
    (e.orPixel c planes m).Ok n := by
  refine ⟨e.wf_orPixel c planes m h.1, fun d hd => ?_⟩
  rcases e.mem_cells_orPixel c planes m d hd with ⟨k, hk, hdk⟩ | hd
  · exact hdk ▸ he k hk
  · exact h.2 d hd

end

theorem length_flatMap_bytes32 (vs : List Word) : (vs.flatMap bytes32).length = 4 * vs.length := by
  simp [List.length_flatMap, mul_comm]

theorem length_flatMap_bytes16 (vs : List (BitVec 16)) : (vs.flatMap bytes16).length = 2 * vs.length := by
  simp [List.length_flatMap, mul_comm]

/-! ### The engine (R33 to R35) -/

section
variable {e e' : Bitplane} {n : Nat} {c : Cursor}

theorem Bitplane.Ok.cursorOk (h : e.Ok n) (hcfg : e.cfg = true) : e.CursorOk := by
  obtain ⟨-, -, -, -, -, hcur, -⟩ := h.2 hcfg
  exact hcur

/-- A cursor step stays inside the block and the line (R34), by the rule of the step, wrap by wrap. -/
theorem Bitplane.CursorOk.stepCursor (h : e.CursorOk) (hstep : e.stepCursor = .ok c) : (e.atCursor c).CursorOk := by
  have hrule := cursorStepRule e h
  obtain ⟨hbyte, hblock⟩ := h
  dsimp only at hrule
  rw [hstep] at hrule
  simp only [Except.ok.injEq, reduceCtorEq] at hrule
  split at hrule
  case isTrue =>
    obtain ⟨d, rfl, hd, -⟩ := hrule
    rw [hd]
    exact ⟨hbyte, hblock⟩
  case isFalse =>
    split at hrule
    case isTrue =>
      obtain ⟨d, rfl, hd, hnext⟩ := hrule
      rw [hd]
      exact ⟨by simpa [Bitplane.atCursor, hnext], hblock⟩
    case isFalse =>
      split at hrule
      case isTrue =>
        obtain ⟨d, rfl, hd, hnext⟩ := hrule
        rw [hd]
        exact ⟨Nat.zero_lt_of_lt hbyte, by simpa [Bitplane.atCursor, hnext]⟩
      case isFalse =>
        split at hrule
        case isTrue =>
          obtain ⟨d, rfl, hd, -⟩ := hrule
          rw [hd]
          exact ⟨Nat.zero_lt_of_lt hbyte, Nat.zero_lt_of_lt hblock⟩
        case isFalse => exact hrule.elim

/-- The closed form of R202 puts the cursor inside the block and the line. -/
theorem Bitplane.cursorOk_of_advanceCursor {count : Nat} (hbyte : 1 ≤ e.conf.bytesPerBlock.toNat)
    (hblock : 1 ≤ e.conf.blocksPerLine.toNat) (h : e.advanceCursor count = .ok c) : (e.atCursor c).CursorOk := by
  have wrapped {x bound : Nat} (hb : 1 ≤ bound) : (BitVec.ofNat 32 (x % bound)).toNat < bound :=
    (Nat.mod_le _ _).trans_lt (Nat.mod_lt _ hb)
  unfold Bitplane.advanceCursor at h
  dsimp only at h
  split at h
  · cases h
  · cases h
    exact ⟨wrapped hbyte, wrapped hblock⟩

/-- A legal configured engine stays legal when its cursor moves inside the block and the line and its cache, if valid,
holds indices of the plane count. -/
theorem Bitplane.Ok.move (h : e.Ok n) (hcfg : e.cfg = true) (hcur : (e.atCursor c).CursorOk) {valid : Bool}
    {cache : Vector Byte 8}
    (hcache : valid = true → ∀ j, (h : j < 8) → (cache[j]).toNat < 2 ^ e.conf.planeCount.toNat) :
    Bitplane.Ok n { e with cur := c, cacheValid := valid, cache := cache } := by
  obtain ⟨hbyte, hblock, hlow, hhigh, hwin, -, -⟩ := h.2 hcfg
  exact ⟨fun hno => absurd (hcfg.symm.trans hno) (by decide), fun _ => ⟨hbyte, hblock, hlow, hhigh, hwin, hcur, hcache⟩⟩

/-- The cache that BPL.READ leaves holds indices of the plane count (R35). -/
theorem Bitplane.Ok.cache_of_fill (h : e.Ok n) (hcfg : e.cfg = true) {m : Memory} (hfill : e.fill m = .ok e') (j : Nat)
    (hj : j < 8) : (e'.cache[j]).toNat < 2 ^ e.conf.planeCount.toNat := by
  obtain ⟨-, -, -, hplanes, -, -, hcache⟩ := h.2 hcfg
  rcases Bitplane.fill_eq_ok hfill with ⟨-, hvalid, rfl⟩ | ⟨-, -, rfl⟩
  · exact hcache hvalid j hj
  · exact (e.toNat_decodeCache m hplanes hj).trans_lt (pixelOf_lt _ _ _)

/-- The plane bytes inside the window are inside MEM. -/
theorem Bitplane.Ok.address_lt (h : e.Ok n) (hcfg : e.cfg = true) {k : Nat} (hk : e.offset k < e.conf.len.toNat) :
    e.address k < n := by
  obtain ⟨-, -, -, -, hwin, -, -⟩ := h.2 hcfg
  unfold Bitplane.address
  omega

/-- A configuration makes a legal engine (R204). -/
theorem State.configure_bpl_ok {s t : State} {base len : Word} {bpb bstride bpln lstride planes pstride : Nat}
    (h : s.configure base len bpb bstride bpln lstride planes pstride = .ok t) : t.bpl.Ok s.memSize := by
  obtain ⟨⟨hlow, hhigh⟩, ⟨hbyte, hblock⟩, ⟨hbpb, -, hbpln, -, -⟩, hwin, rfl⟩ := State.configure_eq_ok h
  have toNat_word {x : Nat} (hx : x < 2 ^ 32) : (BitVec.ofNat 32 x).toNat = x := Nat.mod_eq_of_lt hx
  refine ⟨nofun, fun _ => ?_⟩
  simp only [Bitplane.CursorOk, toNat_word hbpb, toNat_word hbpln, toNat_word (show planes < 2 ^ 32 by omega)]
  exact ⟨by omega, by omega, hlow, hhigh, hwin, ⟨by simp; omega, by simp; omega⟩, nofun⟩

end

/-! ### The adapter (R36, R37) -/

/-- A legal bound adapter stays legal when it moves or takes the LUT of a legal palette. -/
theorem Adapter.Ok.update {x : Adapter} {n : Nat} (h : x.Ok n) (hbound : x.bound = true) (pos : Word) (pal : BitVec 2)
    {lut : List Word} (hlut : lut.length ≤ 256) : Adapter.Ok n { x with pos := pos, pal := pal, lut := lut } :=
  ⟨fun hno => absurd (hbound.symm.trans hno) (by decide), fun _ => ⟨(h.2 hbound).1, hlut⟩⟩

theorem Palette.Ok.length_buildLut_le {P : Palette} (h : P.Ok) : P.buildLut.length ≤ 256 := by
  rw [Palette.length_buildLut]
  exact h.1

/-! ### The whole state -/

section
variable {s u : State}

theorem State.Inv.setReg (h : s.Inv) (r : Reg) (v : Word) : (s.setReg r v).Inv := by
  rw [State.setReg_eq_with_regs]
  exact h

theorem State.Inv.complete (h : s.Inv) : s.complete.Inv := h

theorem State.Inv.raise (h : s.Inv) (e : Err) : (s.raise e).Inv := by
  obtain ⟨-, hmem, hbpl, hpix, hslots⟩ := h
  exact ⟨⟨nofun, fun _ => ⟨e.cause, rfl⟩⟩, hmem, hbpl, hpix, hslots⟩

theorem State.Inv.setSlot (h : s.Inv) (k : Fin 4) {P : Palette} (hP : P.Ok) : (s.setSlot k P).Inv := by
  obtain ⟨herr, hmem, hbpl, hpix, hslots⟩ := h
  refine ⟨herr, hmem, hbpl, hpix, fun j Q hQ => ?_⟩
  rw [State.slot_setSlot] at hQ
  split at hQ
  · cases hQ; exact hP
  · exact hslots j Q hQ

theorem State.Inv.with_mem (h : s.Inv) {m : Memory} (hm : m.Ok s.memSize) : ({ s with mem := m } : State).Inv := by
  obtain ⟨herr, -, hbpl, hpix, hslots⟩ := h
  exact ⟨herr, hm, hbpl, hpix, hslots⟩

theorem State.Inv.with_bpl (h : s.Inv) {e : Bitplane} (he : e.Ok s.memSize) : ({ s with bpl := e } : State).Inv := by
  obtain ⟨herr, hmem, -, hpix, hslots⟩ := h
  exact ⟨herr, hmem, he, hpix, hslots⟩

theorem State.Inv.with_pix (h : s.Inv) {x : Adapter} (hx : x.Ok s.memSize) : ({ s with pix := x } : State).Inv := by
  obtain ⟨herr, hmem, hbpl, -, hslots⟩ := h
  exact ⟨herr, hmem, hbpl, hx, hslots⟩

theorem State.Inv.with_pending (h : s.Inv) (actions : List HostAction) : ({ s with pending := actions } : State).Inv :=
  h

theorem State.Inv.mem_ok (h : s.Inv) : s.mem.Ok s.memSize := h.2.1

/-- A cleared state has the invariant when its MEM is legal (R125). -/
theorem State.inv_clear {m : Memory} (hm : m.Ok s.memSize) : ({ s.clear with mem := m } : State).Inv := by
  obtain ⟨herr, -, hbpl, hpix, -⟩ := resetHasInv
  refine ⟨herr, hm, ⟨hbpl.1, nofun⟩, ⟨hpix.1, nofun⟩, fun k P hP => ?_⟩
  cases (s.clear_slot k).symm.trans hP

/-- What an instruction commits has the invariant. -/
theorem Commits.inv {i : Instr} (hs : s.Inv) (h : Commits s i u) : u.Inv := by
  have ⟨_, hmem, hbpl, hpix, hslots⟩ := hs
  cases h with
  | nop | palChkplanes | bplAdvZero => exact hs
  | li | lih | crr | palLen | palBpc | palPlanes => exact hs.setReg _ _
  | palGet => exact (((hs.setReg _ _).setReg _ _).setReg _ _).setReg _ _
  | atrParse4 | atrParseste => exact ((hs.setReg _ _).setReg _ _).setReg _ _
  | palNew _ hbpc hlen => exact hs.setSlot _ (Palette.ok_new hlen hbpc)
  | palSet _ hP => exact hs.setSlot _ ((hslots _ _ hP).set (Color.ok_of_operands ..) _)
  | palSetrgb _ hP => exact hs.setSlot _ ((hslots _ _ hP).set (Color.ok_of_rgb_operands ..) _)
  | palResample _ _ hP hnb => exact hs.setSlot _ ((hslots _ _ hP).resample hnb)
  | palFromval _ hn => exact hs.setSlot _ (Palette.ok_ofValues (by simpa [Memory.read32s] using hn))
  | palFromimg _ _ _ hseen =>
    obtain ⟨-, hlen, -⟩ := distinctPixels_eq_ok hseen (by simp)
    exact hs.setSlot _ (Palette.ok_ofValues hlen)
  | atrMkpal _ hn => exact hs.setSlot _ (atariPalette_ok (by simpa [Memory.read16s] using hn))
  | palToval _ _ hwin hfits =>
    refine hs.with_mem (hmem.writeBytes ?_)
    rw [length_flatMap_bytes32, Palette.length_toValues]
    omega
  | atrWrpal _ _ _ hwin hfits =>
    refine hs.with_mem (hmem.writeBytes ?_)
    rw [length_flatMap_bytes16, Palette.atariWords, List.length_map, ← Palette.length]
    omega
  | pkbDec _ hwin _ hout =>
    refine hs.with_mem (hmem.writeBytes ?_)
    rw [unpack_length hout]
    exact hwin
  | pkbEnc _ hwin _ _ hfits => exact (hs.with_mem (hmem.writeBytes (by omega))).setReg _ _
  | configuration _ hconf =>
    have hok := State.configure_bpl_ok hconf
    obtain ⟨-, -, -, -, rfl⟩ := State.configure_eq_ok hconf
    exact hs.with_bpl hok
  | @bplRead rd e cur hcfg hfill hstep =>
    have hcache := hbpl.cache_of_fill hcfg hfill
    obtain ⟨hcfg', hconf, hcur, -⟩ := Bitplane.fill_keeps hfill
    rw [Bitplane.stepCursor_congr hconf hcur] at hstep
    have hcursor := (hbpl.cursorOk hcfg).stepCursor hstep
    have hok := hbpl.move hcfg hcursor (valid := e.cacheValid) fun _ => hcache
    rw [← hcfg', ← hconf] at hok
    exact (hs.with_bpl hok).setReg _ _
  | @bplWrite ra cur hcfg hplanes hstep =>
    have hcursor := (hbpl.cursorOk hcfg).stepCursor hstep
    have hok := hmem.orPixel (fun k hk => hbpl.address_lt hcfg (hplanes k hk)) (s.reg ra)
    exact (hs.with_mem hok).with_bpl (hbpl.move hcfg hcursor nofun)
  | bplAdv hcfg hadv =>
    obtain ⟨hbyte, hblock, -⟩ := hbpl.2 hcfg
    exact hs.with_bpl (hbpl.move hcfg (Bitplane.cursorOk_of_advanceCursor hbyte hblock hadv) nofun)
  | pixBind _ hP hwin => exact hs.with_pix ⟨nofun, fun _ => ⟨hwin, (hslots _ _ hP).length_buildLut_le⟩⟩
  | pixRead hbound => exact (hs.with_pix (hpix.update hbound _ _ (hpix.2 hbound).2)).setReg _ _
  | pixWrite hbound _ hinside =>
    obtain ⟨hwin, hlut⟩ := hpix.2 hbound
    refine (hs.with_mem (hmem.writeBytes ?_)).with_pix (hpix.update hbound _ _ hlut)
    rw [length_bytes32, Adapter.address]
    omega
  | pixAdv hbound => exact hs.with_pix (hpix.update hbound _ _ (hpix.2 hbound).2)
  | pixSetpal hbound _ hP => exact hs.with_pix (hpix.update hbound _ _ (hslots _ _ hP).length_buildLut_le)

variable {t : State}

theorem exec_keeps_inv {i : Instr} (hs : s.Inv) (h : exec i s = .next t) : t.Inv := by
  by_cases hi : i = .reset
  · subst hi
    cases h
    exact State.inv_clear hs.mem_ok
  · rcases exec_ends hi h with ⟨u, hu, rfl⟩ | ⟨e, rfl⟩
    · exact (hu.inv hs).complete
    · exact hs.raise e

theorem runCommand_keeps_inv {w : Word} (hs : s.Inv) (h : runCommand w s = .next t) : t.Inv := by
  unfold runCommand at h
  split at h
  · split at h
    · exact exec_keeps_inv hs h
    · cases h; exact hs
  · split at h
    · exact exec_keeps_inv hs h
    · cases h; exact hs.raise _

theorem runAction_keeps_inv {action : HostAction} (hs : s.Inv) (h : runAction action s = .next t) : t.Inv := by
  cases action with
  | command w => exact runCommand_keeps_inv hs h
  | store a b =>
    obtain ⟨ha, rfl⟩ := State.hostStore_eq_next h
    exact hs.with_mem (hs.mem_ok.write ha b)
  | hardwareReset =>
    cases h
    exact State.inv_clear ⟨rfl, nofun⟩

end

/-- Settles O51: a step does nothing or takes one action, and taking an action off the list touches no unit. -/
theorem stepKeepsInv : Obligations.StepKeepsInv := by
  intro s t hs h
  unfold step at h
  split at h
  · cases h; exact hs
  · exact runAction_keeps_inv (hs.with_pending _) h

end Sys2Proof.Machine

/-! ## MEM in numbers, and which commands write it -/

namespace Sys2Proof.Machine

/-! ### A check at the head of a command's pseudocode

A statement of the form `if q then Raises … else R` follows one check: `q` says when the check fails, and `R` is left to
the rest of the pseudocode. -/

section
variable {i : Instr} {s : State} {rest : Except Err State} {R : Prop}

theorem ite_of_check {q : Prop} [Decidable q] {check : Except Err Unit} {c : Cause} {code : Word} {val : Nat}
    (hcode : c.errcode = code) (hfails : q → check = .error ⟨c, val⟩) (hpasses : ¬ q → check = .ok ())
    (hexec : exec i s = commit s (check >>= fun _ => rest)) (hrest : ¬ q → exec i s = commit s rest → R) :
    if q then Raises i s code val else R := by
  split
  case isTrue hq =>
    rw [hfails hq, error_bind] at hexec
    exact raises_of_exec_eq hexec hcode
  case isFalse hq =>
    rw [hpasses hq, ok_bind] at hexec
    exact hrest hq hexec

/-- A `require`, whose condition the statement writes negated. -/
theorem ite_of_require {p q : Prop} [Decidable p] [Decidable q] {c : Cause} {code : Word} {val : Nat}
    (hcode : c.errcode = code) (hq : q ↔ ¬ p) (hexec : exec i s = commit s (require p ⟨c, val⟩ >>= fun _ => rest))
    (hrest : p → exec i s = commit s rest → R) : if q then Raises i s code val else R :=
  ite_of_check hcode (fun h => require_of_not (hq.1 h)) (fun h => require_of (not_not.1 (mt hq.2 h))) hexec
    fun h => hrest (not_not.1 (mt hq.2 h))

/-- A window check raises WINDOW with the base (R62). -/
theorem ite_of_checkWindow {base : Word} {len : Nat}
    (hexec : exec i s = commit s (s.checkWindow base len >>= fun _ => rest))
    (hrest : exec i s = commit s rest → R) :
    if s.memSize < base.toNat + len then Raises i s 0x0101#32 base.toNat else R :=
  ite_of_check (by decide) (fun h => State.checkWindow_eq_error.2 ⟨h, rfl⟩)
    (fun h => State.checkWindow_eq_ok.2 (not_lt.1 h)) hexec fun _ => hrest

/-- The checks that PKB.DEC and PKB.ENC begin with: both windows, then the overlap (R242, R246). -/
theorem ite_of_streamChecks {src dst : Word} {sl dl : Nat}
    (hexec : exec i s = commit s (do
      s.checkWindow src sl
      s.checkWindow dst dl
      checkDisjoint src.toNat sl dst.toNat dl
      rest))
    (hrest : exec i s = commit s rest → R) :
    if s.memSize < src.toNat + sl then Raises i s 0x0101#32 src.toNat
    else if s.memSize < dst.toNat + dl then Raises i s 0x0101#32 dst.toNat
    else if 0 < sl ∧ 0 < dl ∧ src.toNat < dst.toNat + dl ∧ dst.toNat < src.toNat + sl then Raises i s 0x0705#32 0
    else R :=
  ite_of_checkWindow hexec fun hexec => ite_of_checkWindow hexec fun hexec =>
    ite_of_check (by decide) (fun h => checkDisjoint_eq_error.2 ⟨h, rfl⟩) (fun h => checkDisjoint_eq_ok.2 h) hexec
      fun _ => hrest

end

/-! ### Bytes joined to words -/

/-- Two values joined, both shifted: the lower one has at most `n` bits. -/
theorem shiftLeft_or_shiftLeft_of_lt {x y n : Nat} (k : Nat) (hy : y < 2 ^ n) :
    x <<< (n + k) ||| y <<< k = (x * 2 ^ n + y) <<< k := by
  rw [Nat.shiftLeft_add, ← Nat.shiftLeft_or_distrib, ← Nat.shiftLeft_add_eq_or_of_lt hy, Nat.shiftLeft_eq x]

/-- A big-endian 32-bit read is the colour at its address packed with alpha at 8 bits per channel (R65, R66). -/
theorem Memory.read32_eq_pack (m : Memory) (a : Nat) : m.read32 a = (colorAt m a).pack 8 true := rfl

/-- A big-endian 32-bit read, in numbers (R65). -/
theorem Memory.toNat_read32 (m : Memory) (a : Nat) : (m.read32 a).toNat = pixelValue m a := by
  rw [Memory.read32_eq_pack, Color.toNat_pack_eight]
  rfl

/-- A big-endian 16-bit read, in numbers (R64). -/
theorem Memory.toNat_read16 (m : Memory) (a : Nat) : (m.read16 a).toNat = wordValue m a := by
  have hhigh : ((m.read a).setWidth 16 <<< 8).toNat = (m.read a).toNat <<< 8 := by
    rw [BitVec.toNat_shiftLeft, BitVec.toNat_setWidth_of_le (by omega), Nat.shiftLeft_eq]
    omega
  rw [Memory.read16, BitVec.toNat_or, hhigh, BitVec.toNat_setWidth_of_le (by omega), wordValue,
    ← Nat.shiftLeft_add_eq_or_of_lt (m.read (a + 1)).isLt, Nat.shiftLeft_eq]

/-! ### Words stored and read back (R64 to R66) -/

/-- The bytes that a value contributes to a concatenation of blocks of one size. -/
theorem getElem?_flatMap_block {α β : Type} {f : α → List β} {size : Nat} (hsize : ∀ v, (f v).length = size)
    {vs : List α} {i j : Nat} {v : α} (hv : vs[i]? = some v) (hj : j < size) :
    (vs.flatMap f)[size * i + j]? = (f v)[j]? := by
  induction vs generalizing i with
  | nil => cases hv
  | cons w vs ih =>
    rw [List.flatMap_cons]
    cases i with
    | zero =>
      cases hv
      rw [Nat.mul_zero, Nat.zero_add, List.getElem?_append_left (by rw [hsize]; exact hj)]
    | succ i =>
      have hpast : size * (i + 1) + j = size + (size * i + j) := by ring
      rw [List.getElem?_append_right (by rw [hsize]; omega), hsize, hpast, Nat.add_sub_cancel_left]
      exact ih hv

/-- A byte stored reads back. -/
theorem Memory.read_writeBytes_of_getElem? (m : Memory) (a : Nat) {bs : List Byte} {j : Nat} {b : Byte}
    (h : bs[j]? = some b) : (m.writeBytes a bs).read (a + j) = b := by
  simp [Memory.read_writeBytes, h]

/-- The byte at place `j` of the block that stores value number `i`. -/
theorem Memory.read_writeBytes_flatMap (m : Memory) (a : Nat) {α : Type} {f : α → List Byte} {size : Nat}
    (hsize : ∀ v, (f v).length = size) {vs : List α} {i j : Nat} {v : α} {b : Byte} (hv : vs[i]? = some v)
    (hb : (f v)[j]? = some b) : (m.writeBytes a (vs.flatMap f)).read (a + size * i + j) = b := by
  have hj : j < size := hsize v ▸ (List.getElem?_eq_some_iff.1 hb).1
  rw [Nat.add_assoc]
  exact m.read_writeBytes_of_getElem? a ((getElem?_flatMap_block hsize hv hj).trans hb)

/-- Word `i` of a stored sequence of 32-bit words (R66). -/
theorem Memory.pixelValue_writeBytes (m : Memory) (a : Nat) {vs : List Word} {i : Nat} {v : Word}
    (hv : vs[i]? = some v) : pixelValue (m.writeBytes a (vs.flatMap bytes32)) (a + 4 * i) = v.toNat := by
  have hread {j : Nat} {b : Byte} (hb : (bytes32 v)[j]? = some b) :=
    m.read_writeBytes_flatMap a length_bytes32 hv hb
  rw [pixelValue, hread (j := 1) rfl, hread (j := 2) rfl, hread (j := 3) rfl,
    show (m.writeBytes a (vs.flatMap bytes32)).read (a + 4 * i) = _ from hread (j := 0) rfl]
  simp only [BitVec.extractLsb'_toNat, Nat.shiftRight_eq_div_pow]
  omega

/-- Word `i` of a stored sequence of 16-bit words (R64). -/
theorem Memory.wordValue_writeBytes (m : Memory) (a : Nat) {vs : List (BitVec 16)} {i : Nat} {v : BitVec 16}
    (hv : vs[i]? = some v) : wordValue (m.writeBytes a (vs.flatMap bytes16)) (a + 2 * i) = v.toNat := by
  have hread {j : Nat} {b : Byte} (hb : (bytes16 v)[j]? = some b) :=
    m.read_writeBytes_flatMap a length_bytes16 hv hb
  rw [wordValue, hread (j := 1) rfl,
    show (m.writeBytes a (vs.flatMap bytes16)).read (a + 2 * i) = _ from hread (j := 0) rfl]
  simp only [BitVec.extractLsb'_toNat, Nat.shiftRight_eq_div_pow]
  omega

/-- Storing bytes and completing leaves every other byte and every other field as they were. -/
theorem onlyBytes_complete_writeBytes (s : State) (a : Nat) {bs : List Byte} {n : Nat} (hlen : bs.length = n) :
    OnlyBytes s ({ s with mem := s.mem.writeBytes a bs } : State).complete a n :=
  ⟨fun c hc => s.mem.read_writeBytes_outside a c bs (by omega), rfl⟩

/-! ### Which commands write MEM (R61) -/

/-- What a command commits differs in MEM only for the six instructions of R61. -/
theorem Commits.mem_eq {s u : State} {i : Instr} (h : Commits s i u) (hw : Writes.memory i = false) :
    u.mem = s.mem := by
  cases h with
  | palToval | atrWrpal | bplWrite | pkbDec | pkbEnc | pixWrite => cases hw
  | configuration _ hconf =>
    obtain ⟨-, -, -, -, rfl⟩ := State.configure_eq_ok hconf
    rfl
  | _ => simp

/-- Settles O57: what is committed keeps MEM, and so do error entry and RESET. -/
theorem memoryWriters : Obligations.MemoryWriters := by
  intro i s t hw h a
  by_cases hi : i = .reset
  · subst hi
    cases h
    rfl
  · rcases exec_ends hi h with ⟨u, hu, rfl⟩ | ⟨e, rfl⟩
    · rw [State.complete_mem, hu.mem_eq hw]
    · rfl

/-! ### Every command answers (R297) -/

/-- Six instructions have no check and answer one state; every other ends in `commit`, which answers a next state. -/
theorem exec_answers (i : Instr) (s : State) : ∃ t, exec i s = .next t := by
  cases i with
  | reset | nop | li | lih | atrParse4 | atrParseste => exact ⟨_, rfl⟩
  | _ => exact commit_answers s _

theorem runCommand_answers (w : Word) (s : State) : ∃ t, runCommand w s = .next t := by
  unfold runCommand
  split
  · split
    · exact exec_answers .reset s
    · exact ⟨s, rfl⟩
  · split
    · exact exec_answers _ s
    · exact ⟨_, rfl⟩

theorem State.hostStore_of_lt {s : State} {a : Nat} (b : Byte) (h : a < s.memSize) :
    s.hostStore a b = .next { s with mem := s.mem.write a b } :=
  if_pos h

theorem step_store {s : State} {a : Nat} {b : Byte} {rest : List HostAction} (h : s.pending = .store a b :: rest) :
    step s = ({ s with pending := rest } : State).hostStore a b := by
  unfold step
  rw [h]
  rfl

theorem step_idle {s : State} (h : s.pending = []) : step s = .next s := by
  unfold step
  rw [h]

/-- Settles O55: by the oldest pending action; only a store looks at MEM_SIZE. -/
theorem everyCommandAnswers : Obligations.EveryCommandAnswers := by
  refine ⟨exec_answers, fun s hstore => ?_⟩
  match h : s.pending with
  | [] => exact ⟨s, step_idle h⟩
  | .command w :: rest => exact step_command h ▸ runCommand_answers w _
  | .store a b :: rest => exact ⟨_, (step_store h).trans (State.hostStore_of_lt b (hstore a b rest h))⟩
  | .hardwareReset :: rest => exact ⟨_, step_hardwareReset h⟩

/-- Settles O9: the step is the store, and a byte written reads back with the others as they were (R72). -/
theorem hostWritesOneByte : Obligations.HostWritesOneByte := by
  intro a b rest s h ha
  refine ⟨_, (step_store h).trans (State.hostStore_of_lt b ha), ?_, fun c hc => ?_, rfl⟩
  · exact s.mem.read_write_same a b
  · exact s.mem.read_write_of_ne b hc

end Sys2Proof.Machine

/-! ## The palette unit and MEM: PAL.TOVAL, PAL.FROMVAL, PAL.FROMIMG -/

namespace Sys2Proof.Machine

/-! ### Packed colours (R151, R152) -/

/-- A packed colour in numbers, for channels that fit the depth (R151). -/
theorem Color.toNat_pack {c : Color} {bits : Nat} (alpha : Bool) (hbits : bits ≤ 8) (hc : c.Ok bits) :
    (c.pack bits alpha).toNat = packedValue bits alpha c.r.toNat c.g.toNat c.b.toNat c.a.toNat := by
  obtain ⟨-, hg, hb, ha⟩ := hc
  have hpos := Nat.two_pow_pos bits
  have hlow (x : Byte) : (x.setWidth 32).toNat = x.toNat <<< 0 := BitVec.toNat_setWidth_of_le (by omega)
  have hjoin (x y k : Nat) (hy : y ≤ 2 ^ bits - 1) : x <<< (bits + k) ||| y <<< k = (x * 2 ^ bits + y) <<< k :=
    shiftLeft_or_shiftLeft_of_lt k (by omega)
  have hjoin_last (x y : Nat) (hy : y ≤ 2 ^ bits - 1) : x <<< bits ||| y <<< 0 = x * 2 ^ bits + y := hjoin x y 0 hy
  cases alpha with
  | true =>
    simp only [Color.pack, packedValue, if_true, BitVec.toNat_or]
    rw [toNat_setWidth_shiftLeft c.r (k := 3 * bits) (by omega), toNat_setWidth_shiftLeft c.g (k := 2 * bits) (by omega),
      toNat_setWidth_shiftLeft c.b (k := bits) (by omega), hlow, show 3 * bits = bits + 2 * bits by ring,
      hjoin _ _ _ hg, show 2 * bits = bits + bits by ring, hjoin _ _ _ hb, hjoin_last _ _ ha]
    ring
  | false =>
    simp only [Color.pack, packedValue, Bool.false_eq_true, if_false, BitVec.toNat_or]
    rw [toNat_setWidth_shiftLeft c.r (k := 2 * bits) (by omega), toNat_setWidth_shiftLeft c.g (k := bits) (by omega),
      hlow, show 2 * bits = bits + bits by ring, hjoin _ _ _ hg, hjoin_last _ _ hb]
    ring

/-- Packing at 8 bits with alpha loses nothing (R152). -/
theorem Color.ofPacked_pack (c : Color) : Color.ofPacked (c.pack 8 true) = c := by
  have hvalue := c.toNat_pack_eight
  simp only [packedValue, if_true] at hvalue
  have hchannel {k : Nat} {x : Byte} (h : (c.pack 8 true).toNat / 2 ^ k % 2 ^ 8 = x.toNat) :
      (c.pack 8 true).extractLsb' k 8 = x :=
    BitVec.eq_of_toNat_eq (by rw [BitVec.extractLsb'_toNat, Nat.shiftRight_eq_div_pow, h])
  rw [Color.ofPacked, hchannel (x := c.r) (by omega), hchannel (x := c.g) (by omega), hchannel (x := c.b) (by omega),
    hchannel (x := c.a) (by omega)]

/-- Unpacking loses nothing (R152). -/
theorem Color.pack_ofPacked (v : Word) : (Color.ofPacked v).pack 8 true = v := by
  apply BitVec.eq_of_toNat_eq
  rw [Color.toNat_pack_eight]
  simp only [packedValue, if_true, Color.ofPacked, BitVec.extractLsb'_toNat, Nat.shiftRight_eq_div_pow]
  omega

theorem Color.ofPacked_injective : Function.Injective Color.ofPacked :=
  Function.LeftInverse.injective (g := fun c : Color => c.pack 8 true) Color.pack_ofPacked

/-- The value of word `i` of `toValueArray` (R150, R151). -/
theorem Palette.toNat_toValues {P : Palette} (hP : P.Ok) {bits : Nat} (alpha : Bool) (hbits : 1 ≤ bits ∧ bits ≤ 8)
    {i : Nat} {c : Color} (hc : P.ents[i]? = some c) :
    ∃ v, (P.toValues bits alpha)[i]? = some v ∧
      v.toNat = packedValue bits alpha (rescaled c.r.toNat P.bpc bits) (rescaled c.g.toNat P.bpc bits)
        (rescaled c.b.toNat P.bpc bits) (rescaled c.a.toNat P.bpc bits) := by
  have hmem := List.mem_of_getElem? hc
  obtain ⟨-, -, -, hscaled⟩ := hP.resample hbits
  have hok : (c.rescale P.bpc bits).Ok bits := hscaled _ (List.mem_map.2 ⟨c, hmem, rfl⟩)
  obtain ⟨-, hbpc, -, hents⟩ := hP
  obtain ⟨hr, hg, hb, ha⟩ := hents c hmem
  refine ⟨(c.rescale P.bpc bits).pack bits alpha, by simp [Palette.toValues, hc], ?_⟩
  rw [Color.toNat_pack alpha hbits.2 hok, Color.rescale]
  simp only [toNat_rs hbpc hbits.2, hr, hg, hb, ha]

/-! ### PAL.TOVAL (R151) -/

/-- PAL.TOVAL of an occupied slot: the window is checked, then the capacity, then the packed words are stored. -/
theorem exec_palToval {p : SlotNo} {s : State} {P : Palette} (h : s.slotAt p = some P) (ra rb : Reg)
    (bits1 : BitVec 3) (alpha : Bool) :
    exec (.palToval p ra rb bits1 alpha) s = commit s (do
      s.checkWindow (s.reg ra) (s.reg rb).toNat
      require (4 * P.length ≤ (s.reg rb).toNat) ⟨.dstOverrun, 4 * P.length⟩
      .ok { s with
        mem := s.mem.writeBytes (s.reg ra).toNat ((P.toValues (bits1.toNat + 1) alpha).flatMap bytes32) }) := by
  obtain ⟨k, -, hk, hP⟩ := State.slotAt_eq_some h
  change execPalToval p ra rb bits1 alpha s = _
  rw [execPalToval, hk, ok_bind, hP, ok_bind]

/-- Settles O22: the two checks in order, then the stored words read back as the packed entries. -/
theorem palTovalOutcome : Obligations.PalTovalOutcome := by
  intro p ra rb bits1 alpha s P hP hok dst cap bits
  refine ite_of_checkWindow (exec_palToval hP ra rb bits1 alpha) fun hexec => ?_
  refine ite_of_require (by decide) not_le.symm hexec fun _ hexec => ?_
  refine completes_of_exec_eq hexec ⟨fun i c hc => ?_, onlyBytes_complete_writeBytes s dst ?_⟩ rfl
  · obtain ⟨v, hv, hvalue⟩ := Palette.toNat_toValues hok alpha (bits := bits) ⟨by omega, by omega⟩ hc
    exact (s.mem.pixelValue_writeBytes dst hv).trans hvalue
  · rw [length_flatMap_bytes32, Palette.length_toValues, Palette.length]

/-! ### PAL.FROMVAL (R152) -/

/-- A 32-bit word read from MEM unpacks to the colour of its four bytes (R65, R152). -/
theorem ofPacked_read32 (m : Memory) (a : Nat) : Color.ofPacked (m.read32 a) = colorAt m a :=
  (colorAt m a).ofPacked_pack

theorem map_ofPacked_read32s (m : Memory) (a n : Nat) :
    (m.read32s a n).map Color.ofPacked = (List.range n).map fun i => colorAt m (a + 4 * i) := by
  simp [Memory.read32s, ofPacked_read32]

/-- PAL.FROMVAL on an existing slot: the count is checked, then the window, then the slot is replaced. -/
theorem exec_palFromval {p : SlotNo} (hp : p.toNat < 4) (ra rb : Reg) (s : State) :
    exec (.palFromval p ra rb) s = commit s (do
      require ((s.reg rb).toNat ≤ 256) ⟨.badLength, (s.reg rb).toNat⟩
      s.checkWindow (s.reg ra) (4 * (s.reg rb).toNat)
      .ok (s.setSlot ⟨p.toNat, hp⟩ (Palette.ofValues (s.mem.read32s (s.reg ra).toNat (s.reg rb).toNat)))) := by
  change execPalFromval p ra rb s = _
  rw [execPalFromval, checkSlot_of_lt hp, ok_bind]

/-- Settles O23: the two checks in order, then the slot holds the unpacked words. -/
theorem palFromvalOutcome : Obligations.PalFromvalOutcome := by
  intro p ra rb s hp src n
  refine ite_of_require (by decide) not_le.symm (exec_palFromval hp ra rb s) fun _ hexec => ?_
  refine ite_of_checkWindow hexec fun hexec => ?_
  rw [Palette.ofValues, map_ofPacked_read32s] at hexec
  exact completes_of_exec_eq hexec ⟨s.slotAt_complete_setSlot hp _, onlySlot_complete_setSlot s hp _⟩ rfl

/-! ### Distinct values in first-seen order (R153) -/

section
variable {α β : Type} [DecidableEq α] [DecidableEq β]

/-- One more value is listed at the end if it is new. -/
theorem eraseDups_concat (l : List α) (v : α) :
    (l ++ [v]).eraseDups = if v ∈ l then l.eraseDups else l.eraseDups ++ [v] := by
  rw [List.eraseDups_append, List.cons_removeAll, List.nil_removeAll]
  by_cases hv : v ∈ l
  · simp [hv]
  · simp [hv, List.eraseDups_cons]

/-- A longer list has no fewer distinct values. -/
theorem length_eraseDups_take_le (l : List α) (n : Nat) : (l.take n).eraseDups.length ≤ l.eraseDups.length := by
  conv_rhs => rw [← List.take_append_drop n l, List.eraseDups_append, List.length_append]
  omega

/-- An injective function keeps which values are new. -/
theorem eraseDups_map {f : α → β} (hf : Function.Injective f) (l : List α) :
    (l.map f).eraseDups = l.eraseDups.map f := by
  induction l using List.reverseRecOn with
  | nil => simp
  | append_singleton l v ih =>
    rw [List.map_append, List.map_singleton, eraseDups_concat, eraseDups_concat, ih]
    simp only [List.mem_map_of_injective hf]
    split <;> simp

end

/-- The pixel numbered `j` holds the 257th distinct value of the list (R153). -/
def Holds257th {α : Type} [DecidableEq α] (l : List α) (j : Nat) : Prop :=
  (l.take j).eraseDups.length = 256 ∧ (l.take (j + 1)).eraseDups.length = 257

/-- The rest of a scan, after the pixels `before`: the distinct values of all pixels, or the number of the pixel that
holds the 257th (R153). -/
theorem distinctPixels_after (before vs : List Word) (hbefore : before.eraseDups.length ≤ 256) :
    (distinctPixels vs before.length before.eraseDups = .ok (before ++ vs).eraseDups ∧
      (before ++ vs).eraseDups.length ≤ 256) ∨
    ∃ j, distinctPixels vs before.length before.eraseDups = .error ⟨.tooManyColors, j⟩ ∧
      Holds257th (before ++ vs) j := by
  induction vs generalizing before with
  | nil => exact .inl (by simpa [distinctPixels] using hbefore)
  | cons v vs ih =>
    have hstep := eraseDups_concat before v
    have hrest := ih (before ++ [v])
    rw [List.append_assoc, List.singleton_append, List.length_append, List.length_singleton] at hrest
    simp only [distinctPixels, List.mem_eraseDups]
    by_cases hv : v ∈ before
    · rw [if_pos hv] at hstep ⊢
      rw [hstep] at hrest
      exact hrest hbefore
    · rw [if_neg hv] at hstep ⊢
      by_cases hfull : before.eraseDups.length = 256
      · refine .inr ⟨before.length, by rw [if_pos hfull], ?_, ?_⟩
        · rw [List.take_left, hfull]
        · rw [List.take_length_add_append, List.take_one, List.head?_cons, Option.toList_some, hstep,
            List.length_append, hfull, List.length_singleton]
      · rw [if_neg hfull]
        rw [hstep] at hrest
        exact hrest (by rw [List.length_append, List.length_singleton]; omega)

/-- A scan of all pixels succeeds with the distinct values when there are at most 256 of them (R153). -/
theorem distinctPixels_eq_ok_eraseDups {vs : List Word} (h : vs.eraseDups.length ≤ 256) :
    distinctPixels vs 0 [] = .ok vs.eraseDups := by
  rcases distinctPixels_after [] vs (by simp) with ⟨hok, -⟩ | ⟨j, -, -, hj⟩
  · exact hok
  · have hle := length_eraseDups_take_le vs (j + 1)
    rw [List.nil_append] at hj
    omega

/-- A scan of pixels with more than 256 distinct values reports the pixel that holds the 257th (R153). -/
theorem distinctPixels_eq_error {vs : List Word} (h : 256 < vs.eraseDups.length) :
    ∃ j, distinctPixels vs 0 [] = .error ⟨.tooManyColors, j⟩ ∧ Holds257th vs j := by
  rcases distinctPixels_after [] vs (by simp) with ⟨-, hle⟩ | herror
  · rw [List.nil_append] at hle
    omega
  · exact herror

/-! ### PAL.FROMIMG (R153) -/

/-- PAL.FROMIMG on an existing slot: the window is checked, then the length, then the pixels are scanned. -/
theorem exec_palFromimg {p : SlotNo} (hp : p.toNat < 4) (ra rb : Reg) (s : State) :
    exec (.palFromimg p ra rb) s = commit s (do
      s.checkWindow (s.reg ra) (s.reg rb).toNat
      require ((s.reg rb).toNat % 4 = 0) ⟨.srcShort, (s.reg rb).toNat⟩
      let seen ← distinctPixels (s.mem.read32s (s.reg ra).toNat ((s.reg rb).toNat / 4)) 0 []
      .ok (s.setSlot ⟨p.toNat, hp⟩ (Palette.ofValues seen))) := by
  change execPalFromimg p ra rb s = _
  rw [execPalFromimg, checkSlot_of_lt hp, ok_bind]

/-- Settles O24: the two checks in order, then the scan, read as a list of colours instead of packed words. -/
theorem palFromimgOutcome : Obligations.PalFromimgOutcome := by
  intro p ra rb s hp src len pixels
  have hpixels : pixels = (s.mem.read32s src (len / 4)).map Color.ofPacked :=
    (map_ofPacked_read32s s.mem src (len / 4)).symm
  have hdistinct : pixels.eraseDups = (s.mem.read32s src (len / 4)).eraseDups.map Color.ofPacked := by
    rw [hpixels, eraseDups_map Color.ofPacked_injective]
  have htake (j : Nat) :
      (pixels.take j).eraseDups.length = ((s.mem.read32s src (len / 4)).take j).eraseDups.length := by
    rw [hpixels, ← List.map_take, eraseDups_map Color.ofPacked_injective, List.length_map]
  refine ite_of_checkWindow (exec_palFromimg hp ra rb s) fun hexec => ?_
  refine ite_of_require (by decide) Iff.rfl hexec fun _ hexec => ?_
  split
  case isTrue hcount =>
    rw [hdistinct, List.length_map] at hcount
    rw [distinctPixels_eq_ok_eraseDups hcount, ok_bind, Palette.ofValues, ← hdistinct] at hexec
    exact completes_of_exec_eq hexec ⟨s.slotAt_complete_setSlot hp _, onlySlot_complete_setSlot s hp _⟩ rfl
  case isFalse hcount =>
    rw [hdistinct, List.length_map, not_le] at hcount
    obtain ⟨j, herror, hbefore, hafter⟩ := distinctPixels_eq_error hcount
    rw [herror, error_bind] at hexec
    exact ⟨j, (htake j).trans hbefore, (htake (j + 1)).trans hafter, raises_of_exec_eq hexec (by decide)⟩

end Sys2Proof.Machine

/-! ## The Atari codec and MEM: ATR.MKPAL, ATR.WRPAL -/

namespace Sys2Proof.Machine

/-! ### Nibbles in numbers (R180, R181, R183) -/

theorem toNat_rot : ∀ n : BitVec 4, (rot n).toNat = rotated n.toNat := by decide

theorem toNat_inv : ∀ n : BitVec 4, (inv n).toNat = unrotated n.toNat := by decide

theorem nibble_bit_three : ∀ n : BitVec 4, n.getLsbD 3 = true ↔ 8 ≤ n.toNat := by decide

section
variable {w : Nat} (v : BitVec w)

theorem toNat_redNibble : (redNibble v).toNat = redOf v.toNat := by
  rw [redNibble, BitVec.extractLsb'_toNat, Nat.shiftRight_eq_div_pow]
  rfl

theorem toNat_greenNibble : (greenNibble v).toNat = greenOf v.toNat := by
  rw [greenNibble, BitVec.extractLsb'_toNat, Nat.shiftRight_eq_div_pow]
  rfl

theorem toNat_blueNibble : (blueNibble v).toNat = blueOf v.toNat := by
  rw [blueNibble, BitVec.extractLsb'_toNat, Nat.shiftRight_eq_div_pow, Nat.pow_zero, Nat.div_one]
  rfl

/-- Bit 3 of a colour nibble, as a bit of the word (R183). -/
theorem hasSteBit_iff : hasSteBit v.toNat ↔ v.getLsbD 11 = true ∨ v.getLsbD 7 = true ∨ v.getLsbD 3 = true := by
  rw [hasSteBit, ← toNat_redNibble, ← toNat_greenNibble, ← toNat_blueNibble, ← nibble_bit_three, ← nibble_bit_three,
    ← nibble_bit_three]
  simp [redNibble, greenNibble, blueNibble]

end

/-- The mask of R183 has the bits 3 of the three colour nibbles. -/
theorem getLsbD_steMask : ∀ k < 16, (0x0888#16).getLsbD k = true → k = 11 ∨ k = 7 ∨ k = 3 := by decide

/-- The detection test of one word (R183). -/
theorem and_steMask_ne_zero (w : BitVec 16) : w &&& 0x0888#16 ≠ 0#16 ↔ hasSteBit w.toNat := by
  rw [hasSteBit_iff]
  constructor
  · intro hmask
    by_contra hclear
    rw [not_or, not_or] at hclear
    obtain ⟨hred, hgreen, hblue⟩ := hclear
    refine hmask (BitVec.eq_of_getLsbD_eq fun k hk => ?_)
    rw [BitVec.getLsbD_and, BitVec.getLsbD_zero, Bool.and_eq_false_iff, or_iff_not_imp_right, Bool.not_eq_false]
    intro hbit
    rcases getLsbD_steMask k hk hbit with rfl | rfl | rfl
    · simpa using hred
    · simpa using hgreen
    · simpa using hblue
  · rintro hset hmask
    have hbit (k : Nat) (hk : (0x0888#16).getLsbD k = true) : w.getLsbD k = false := by
      have hand := congrArg (·.getLsbD k) hmask
      simpa [BitVec.getLsbD_and, hk] using hand
    rcases hset with hred | hgreen | hblue
    · cases hred.symm.trans (hbit 11 (by decide))
    · cases hgreen.symm.trans (hbit 7 (by decide))
    · cases hblue.symm.trans (hbit 3 (by decide))

/-- The detection over a buffer read from MEM (R183). -/
theorem steDetected_read16s (m : Memory) (a n : Nat) :
    steDetected (m.read16s a n) = true ↔ ∃ i < n, hasSteBit (wordValue m (a + 2 * i)) := by
  simp only [steDetected, Memory.read16s, List.any_eq_true, List.mem_map, List.mem_range, decide_eq_true_eq,
    and_steMask_ne_zero]
  constructor
  · rintro ⟨w, ⟨i, hi, rfl⟩, hw⟩
    exact ⟨i, hi, m.toNat_read16 (a + 2 * i) ▸ hw⟩
  · rintro ⟨i, hi, hw⟩
    exact ⟨_, ⟨i, hi, rfl⟩, (m.toNat_read16 (a + 2 * i)).symm ▸ hw⟩

/-! ### Colours read (R184) -/

theorem stColor_channels (w : BitVec 16) :
    (stColor w).r.toNat = redOf w.toNat ∧ (stColor w).g.toNat = greenOf w.toNat ∧
      (stColor w).b.toNat = blueOf w.toNat ∧ (stColor w).a.toNat = 7 := by
  have widen (n : BitVec 4) : (n.setWidth 8).toNat = n.toNat := BitVec.toNat_setWidth_of_le (by omega)
  rw [← toNat_redNibble, ← toNat_greenNibble, ← toNat_blueNibble]
  exact ⟨widen _, widen _, widen _, rfl⟩

theorem steColor_channels (w : BitVec 16) :
    (steColor w).r.toNat = rotated (redOf w.toNat) ∧ (steColor w).g.toNat = rotated (greenOf w.toNat) ∧
      (steColor w).b.toNat = rotated (blueOf w.toNat) ∧ (steColor w).a.toNat = 15 := by
  have widen (n : BitVec 4) : ((rot n).setWidth 8).toNat = rotated n.toNat := by
    rw [BitVec.toNat_setWidth_of_le (by omega), toNat_rot]
  rw [← toNat_redNibble, ← toNat_greenNibble, ← toNat_blueNibble]
  exact ⟨widen _, widen _, widen _, rfl⟩

theorem atariPalette_of_ste {ws : List (BitVec 16)} (h : steDetected ws = true) :
    atariPalette ws = ⟨4, ws.map steColor⟩ :=
  if_pos h

theorem atariPalette_of_st {ws : List (BitVec 16)} (h : steDetected ws ≠ true) :
    atariPalette ws = ⟨3, ws.map stColor⟩ :=
  if_neg h

theorem length_atariPalette (ws : List (BitVec 16)) : (atariPalette ws).ents.length = ws.length := by
  unfold atariPalette
  split <;> simp

@[simp] theorem Memory.length_read16s (m : Memory) (a n : Nat) : (m.read16s a n).length = n := by
  simp [Memory.read16s]

/-- The entries made of a buffer of colour words read from MEM. -/
theorem eq_of_getElem?_map_read16s {f : BitVec 16 → Color} {m : Memory} {a n i : Nat} {c : Color}
    (h : ((m.read16s a n).map f)[i]? = some c) : c = f (m.read16 (a + 2 * i)) := by
  obtain ⟨hi, rfl⟩ := List.getElem?_eq_some_iff.1 h
  simp [Memory.read16s]

/-! ### ATR.MKPAL (R184) -/

/-- ATR.MKPAL on an existing slot: count, window and source length are checked, then the slot is replaced. -/
theorem exec_atrMkpal {p : SlotNo} (hp : p.toNat < 4) (ra rb rc : Reg) (s : State) :
    exec (.atrMkpal p ra rb rc) s = commit s (do
      require ((s.reg rc).toNat ≤ 256) ⟨.badLength, (s.reg rc).toNat⟩
      s.checkWindow (s.reg ra) (s.reg rb).toNat
      require (2 * (s.reg rc).toNat ≤ (s.reg rb).toNat) ⟨.srcShort, 2 * (s.reg rc).toNat⟩
      .ok (s.setSlot ⟨p.toNat, hp⟩ (atariPalette (s.mem.read16s (s.reg ra).toNat (s.reg rc).toNat)))) := by
  change execAtrMkpal p ra rb rc s = _
  rw [execAtrMkpal, checkSlot_of_lt hp, ok_bind]

/-- Settles O27: the three checks in order, then the palette by the detection over the whole buffer. -/
theorem atrMkpalOutcome : Obligations.AtrMkpalOutcome := by
  intro p ra rb rc s hp base len n w
  refine ite_of_require (by decide) not_le.symm (exec_atrMkpal hp ra rb rc s) fun _ hexec => ?_
  refine ite_of_checkWindow hexec fun hexec => ?_
  refine ite_of_require (by decide) not_le.symm hexec fun _ hexec => ?_
  refine completes_of_exec_eq hexec ⟨_, s.slotAt_complete_setSlot hp _, ?_, onlySlot_complete_setSlot s hp _,
    fun hste => ?_, fun hst => ?_⟩ rfl
  · rw [length_atariPalette, Memory.length_read16s]
  · rw [atariPalette_of_ste ((steDetected_read16s s.mem base n).2 hste)]
    refine ⟨rfl, fun i c hc => ?_⟩
    have hchannels := steColor_channels (s.mem.read16 (base + 2 * i))
    rw [Memory.toNat_read16] at hchannels
    exact eq_of_getElem?_map_read16s hc ▸ hchannels
  · have hclear : steDetected (s.mem.read16s base n) ≠ true := fun hdetected => by
      obtain ⟨i, hi, hbit⟩ := (steDetected_read16s s.mem base n).1 hdetected
      exact hst i hi hbit
    rw [atariPalette_of_st hclear]
    refine ⟨rfl, fun i c hc => ?_⟩
    have hchannels := stColor_channels (s.mem.read16 (base + 2 * i))
    rw [Memory.toNat_read16] at hchannels
    exact eq_of_getElem?_map_read16s hc ▸ hchannels

/-! ### Colour words made (R185) -/

/-- Three nibbles joined at bit offsets 8, 4, 0, in numbers. -/
theorem toNat_join_nibbles {x y z : BitVec 16} (hx : x.toNat < 16) (hy : y.toNat < 16) (hz : z.toNat < 16) :
    (x <<< 8 ||| y <<< 4 ||| z).toNat = x.toNat * 256 + y.toNat * 16 + z.toNat := by
  have hshift {v : BitVec 16} {k : Nat} (hk : v.toNat <<< k < 2 ^ 16) : (v <<< k).toNat = v.toNat <<< k := by
    rw [BitVec.toNat_shiftLeft, Nat.mod_eq_of_lt hk]
  have hjoin (u v k : Nat) (hv : v < 16) : u <<< (4 + k) ||| v <<< k = (u * 16 + v) <<< k :=
    shiftLeft_or_shiftLeft_of_lt (n := 4) k hv
  rw [BitVec.toNat_or, BitVec.toNat_or, hshift (by rw [Nat.shiftLeft_eq]; omega),
    hshift (by rw [Nat.shiftLeft_eq]; omega), hjoin _ _ 4 hy, ← Nat.shiftLeft_zero (n := z.toNat), hjoin _ _ 0 hz,
    Nat.shiftLeft_zero, Nat.shiftLeft_zero]
  omega

/-- The word of a 3-bit colour (R185). -/
theorem toNat_stWord {c : Color} (hc : c.Ok 3) :
    (stWord c).toNat = c.r.toNat * 256 + c.g.toNat * 16 + c.b.toNat := by
  obtain ⟨hr, hg, hb, -⟩ := hc
  have widen (x : Byte) : (x.setWidth 16).toNat = x.toNat := BitVec.toNat_setWidth_of_le (by omega)
  rw [stWord, toNat_join_nibbles (by rw [widen]; omega) (by rw [widen]; omega) (by rw [widen]; omega), widen, widen,
    widen]

/-- The word of a 4-bit colour (R185). -/
theorem toNat_steWord {c : Color} (hc : c.Ok 4) :
    (steWord c).toNat = unrotated c.r.toNat * 256 + unrotated c.g.toNat * 16 + unrotated c.b.toNat := by
  obtain ⟨hr, hg, hb, -⟩ := hc
  have widen (n : BitVec 4) : (n.setWidth 16).toNat = n.toNat := BitVec.toNat_setWidth_of_le (by omega)
  have channel {x : Byte} (hx : x.toNat ≤ 2 ^ 4 - 1) : (inv (x.setWidth 4)).toNat = unrotated x.toNat := by
    rw [toNat_inv, BitVec.toNat_setWidth, Nat.mod_eq_of_lt (by omega)]
  rw [steWord, toNat_join_nibbles (by rw [widen]; omega) (by rw [widen]; omega) (by rw [widen]; omega), widen, widen,
    widen, channel hr, channel hg, channel hb]

@[simp] theorem Palette.length_atariWords (P : Palette) : P.atariWords.length = P.length := by
  simp [Palette.atariWords, Palette.length]

/-- The value of colour word `i` of a palette of depth 3 or 4 (R185). -/
theorem Palette.toNat_atariWords {P : Palette} (hP : P.Ok) (hbpc : P.bpc = 3 ∨ P.bpc = 4) {i : Nat} {c : Color}
    (hc : P.ents[i]? = some c) :
    ∃ v, P.atariWords[i]? = some v ∧ v.toNat =
      if P.bpc = 3 then c.r.toNat * 256 + c.g.toNat * 16 + c.b.toNat
      else unrotated c.r.toNat * 256 + unrotated c.g.toNat * 16 + unrotated c.b.toNat := by
  obtain ⟨-, -, -, hents⟩ := hP
  have hok := hents c (List.mem_of_getElem? hc)
  refine ⟨_, by rw [Palette.atariWords, List.getElem?_map, hc, Option.map_some], ?_⟩
  rcases hbpc with hbpc | hbpc <;> rw [hbpc] at hok ⊢
  · exact toNat_stWord hok
  · exact toNat_steWord hok

/-! ### ATR.WRPAL (R185) -/

/-- ATR.WRPAL of an occupied slot: depth, window and capacity are checked, then the colour words are stored. -/
theorem exec_atrWrpal {p : SlotNo} {s : State} {P : Palette} (h : s.slotAt p = some P) (ra rb : Reg) :
    exec (.atrWrpal p ra rb) s = commit s (do
      require (P.bpc = 3 ∨ P.bpc = 4) ⟨.badBpcAtari, P.bpc⟩
      s.checkWindow (s.reg ra) (s.reg rb).toNat
      require (2 * P.length ≤ (s.reg rb).toNat) ⟨.dstOverrun, 2 * P.length⟩
      .ok { s with mem := s.mem.writeBytes (s.reg ra).toNat (P.atariWords.flatMap bytes16) }) := by
  obtain ⟨k, -, hk, hP⟩ := State.slotAt_eq_some h
  change execAtrWrpal p ra rb s = _
  rw [execAtrWrpal, hk, ok_bind, hP, ok_bind]

/-- Settles O28: the three checks in order, then the stored words read back as the packed entries. -/
theorem atrWrpalOutcome : Obligations.AtrWrpalOutcome := by
  intro p ra rb s P hP hok base len
  refine ite_of_require (by decide) not_or.symm (exec_atrWrpal hP ra rb) fun hdepth hexec => ?_
  refine ite_of_checkWindow hexec fun hexec => ?_
  refine ite_of_require (by decide) not_le.symm hexec fun _ hexec => ?_
  refine completes_of_exec_eq hexec ⟨fun i c hc => ?_, onlyBytes_complete_writeBytes s base ?_⟩ rfl
  · obtain ⟨v, hv, hvalue⟩ := Palette.toNat_atariWords hok hdepth hc
    exact (s.mem.wordValue_writeBytes base hv).trans hvalue
  · rw [length_flatMap_bytes16, Palette.length_atariWords, Palette.length]

end Sys2Proof.Machine

/-! ## Single bytes and byte streams: BPL.WRITE, PKB.DEC, PKB.ENC, PIX.READ, PIX.WRITE -/

namespace Sys2Proof.Machine

/-! ### BPL.WRITE (R209) -/

/-- The pixel's bit of a plane byte, bit `7 − bitIndex` (R67). -/
theorem getLsbD_pixelMask : ∀ (j : BitVec 3) (b : Nat), b < 8 →
    ((0x80#8 >>> j.toNat).getLsbD b = true ↔ b = 7 - j.toNat) := by decide

/-- Everything the stores of `BPL.WRITE` do to the bits of MEM: the pixel's bit is set in the bytes of the planes whose
bit of the index is 1 (R209). -/
theorem Bitplane.getLsbD_read_orPixel (e : Bitplane) (c : Word) (m : Memory) (a : Nat) {b : Nat} (hb : b < 8)
    (n : Nat) :
    ((e.orPixel c n m).read a).getLsbD b = true ↔ (m.read a).getLsbD b = true ∨
      (b = 7 - e.cur.bitIndex.toNat ∧ ∃ k < n, a = e.address k ∧ c.getLsbD k = true) := by
  induction n with
  | zero => simp
  | succ n ih =>
    have hplanes : (∃ k < n + 1, a = e.address k ∧ c.getLsbD k = true) ↔
        (∃ k < n, a = e.address k ∧ c.getLsbD k = true) ∨ (a = e.address n ∧ c.getLsbD n = true) := by
      rw [Nat.exists_lt_succ_right]
    rw [Bitplane.orPixel_succ, hplanes]
    split
    case isTrue hbit =>
      rw [Memory.read_write]
      split
      case isTrue ha =>
        rw [BitVec.getLsbD_or, Bool.or_eq_true, getLsbD_pixelMask _ _ hb, ← ha, ih, or_assoc,
          or_iff_right_of_imp And.left]
        simp only [hbit, or_true, and_true]
      case isFalse ha =>
        simp only [ih, ha, false_and, or_false]
    case isFalse hbit =>
      simp only [ih, hbit, Bool.false_eq_true, and_false, or_false]

theorem exec_bplWrite (ra : Reg) (s : State) :
    exec (.bplWrite ra) s = commit s (do
      s.bpl.checkConfigured
      s.bpl.checkPlanes
      let cur ← s.bpl.stepCursor
      .ok { s with
        mem := s.bpl.orPixel (s.reg ra) s.bpl.planes s.mem
        bpl := { s.bpl with cacheValid := false, cur := cur } }) := rfl

/-- Settles O36: the checks in order, then the bits stored plane by plane. -/
theorem bplWriteOutcome : Obligations.BplWriteOutcome := by
  intro ra s e i c
  have hexec := exec_bplWrite ra s
  refine ⟨fun hcfg => ?_, fun hcfg k hk hout hin => ?_, fun hcfg hin => ?_⟩
  · rw [Bitplane.checkConfigured, require_of_not (by rw [hcfg]; decide), error_bind] at hexec
    exact raises_of_exec_eq hexec (by decide)
  · rw [(Bitplane.checkConfigured_eq_ok (u := ())).2 hcfg, ok_bind, Bitplane.checkPlanes_eq_error hk hout hin,
      error_bind] at hexec
    exact raises_of_exec_eq hexec (by decide)
  · rw [(Bitplane.checkConfigured_eq_ok (u := ())).2 hcfg, ok_bind, (Bitplane.checkPlanes_eq_ok (u := ())).2 hin,
      ok_bind] at hexec
    refine ⟨fun hlast => ?_, fun hlast => ?_⟩
    · rw [Bitplane.stepCursor_eq_error.2 ⟨hlast, rfl⟩, error_bind] at hexec
      exact raises_of_exec_eq hexec (by decide)
    · obtain ⟨cur, hstep⟩ := Bitplane.exists_stepCursor hlast
      rw [hstep, ok_bind] at hexec
      exact completes_of_exec_eq hexec
        ⟨fun a b hb => e.getLsbD_read_orPixel c s.mem a hb e.planes,
          fun a ha => e.read_orPixel_of_ne c e.planes s.mem a ha, rfl, hstep, rfl, rfl, rfl⟩ rfl

/-! ### PKB.DEC (R242) -/

theorem exec_pkbDec (ra rb rc rd : Reg) (s : State) :
    exec (.pkbDec ra rb rc rd) s = commit s (do
      s.checkWindow (s.reg ra) (s.reg rb).toNat
      s.checkWindow (s.reg rc) (s.reg rd).toNat
      checkDisjoint (s.reg ra).toNat (s.reg rb).toNat (s.reg rc).toNat (s.reg rd).toNat
      let out ← unpack (s.mem.readBytes (s.reg ra).toNat (s.reg rb).toNat) (s.reg rd).toNat
      .ok { s with mem := s.mem.writeBytes (s.reg rc).toNat out }) := rfl

/-- Settles O39: the three checks in order, then what the decode answers. -/
theorem pkbDecOutcome : Obligations.PkbDecOutcome := by
  intro ra rb rc rd s src sl dst N i S
  refine ite_of_streamChecks (exec_pkbDec ra rb rc rd s) fun hexec => ⟨fun x hx => ?_, fun out hout => ?_⟩
  · rw [show unpack (s.mem.readBytes (s.reg ra).toNat (s.reg rb).toNat) (s.reg rd).toNat = .error x from hx,
      error_bind] at hexec
    rcases unpackFrom_eq_error hx with hcause | hcause
    · exact .inl ⟨hcause, raises_of_exec_eq hexec (by rw [hcause]; decide)⟩
    · exact .inr ⟨hcause, raises_of_exec_eq hexec (by rw [hcause]; decide)⟩
  · rw [show unpack (s.mem.readBytes (s.reg ra).toNat (s.reg rb).toNat) (s.reg rd).toNat = .ok out from hout,
      ok_bind] at hexec
    have hlen := unpack_length hout
    exact ⟨hlen, completes_of_exec_eq hexec
      ⟨fun j b hb => s.mem.read_writeBytes_of_getElem? dst hb, onlyBytes_complete_writeBytes s dst hlen⟩ rfl⟩

/-! ### PKB.ENC (R246) -/

theorem exec_pkbEnc (ra rb rc rd re : Reg) (s : State) :
    exec (.pkbEnc ra rb rc rd re) s = commit s (do
      let E := pack (s.mem.readBytes (s.reg ra).toNat (s.reg rb).toNat)
      s.checkWindow (s.reg ra) (s.reg rb).toNat
      s.checkWindow (s.reg rc) (s.reg rd).toNat
      checkDisjoint (s.reg ra).toNat (s.reg rb).toNat (s.reg rc).toNat (s.reg rd).toNat
      require (E.length ≤ (s.reg rd).toNat) ⟨.dstOverrun, E.length⟩
      .ok ({ s with mem := s.mem.writeBytes (s.reg rc).toNat E }.setReg re (BitVec.ofNat 32 E.length))) := rfl

/-- A register other than the destination keeps its value. -/
theorem State.reg_setReg_of_ne (s : State) {i r : Reg} (v : Word) (h : r ≠ i) : (s.setReg i v).reg r = s.reg r :=
  s.reg_setRegs_of_not_mem [(i, v)] (by simpa using h)

/-- The destination holds the value written, but for `x0` (R22). -/
theorem State.reg_setReg_same (s : State) (i : Reg) (v : Word) :
    (s.setReg i v).reg i = if i = 0#4 then 0#32 else v := by
  rw [State.reg_setReg, if_pos rfl]

/-- Settles O40: the four checks in order, then the stored stream and the register write. -/
theorem pkbEncOutcome : Obligations.PkbEncOutcome := by
  intro ra rb rc rd re s src sl dst cap i E
  refine ite_of_streamChecks (exec_pkbEnc ra rb rc rd re s) fun hexec => ?_
  refine ite_of_require (by decide) not_le.symm hexec fun _ hexec => ?_
  refine completes_of_exec_eq hexec ⟨State.reg_setReg_same _ re _, fun r hr => State.reg_setReg_of_ne _ _ hr,
    fun j b hb => ?_, fun a ha => ?_, ?_⟩ (State.setReg_seq _ _ _)
  · rw [State.complete_mem, State.setReg_mem]
    exact s.mem.read_writeBytes_of_getElem? dst hb
  · rw [State.complete_mem, State.setReg_mem]
    exact s.mem.read_writeBytes_outside dst a E ha
  · rw [State.setReg_eq_with_regs]
    rfl

/-! ### PIX.READ (R262) -/

theorem exec_pixRead (rd : Reg) (s : State) :
    exec (.pixRead rd) s = commit s (do
      s.pix.checkBound
      s.pix.checkPixel
      match lookup s.pix.lut (s.mem.read32 s.pix.address) with
      | none => .error ⟨.noMatch, (s.mem.read32 s.pix.address).toNat⟩
      | some i => .ok ({ s with pix := { s.pix with pos := s.pix.pos + 1#32 } }.setReg rd (BitVec.ofNat 32 i))) := rfl

theorem Adapter.checkBound_of_unbound {x : Adapter} (h : x.bound = false) :
    x.checkBound = .error ⟨.pixUnbound, 0⟩ :=
  require_of_not (by rw [h]; decide)

theorem Adapter.checkPixel_of_lt {x : Adapter} (h : x.len.toNat < 4 * x.pos.toNat + 4) :
    x.checkPixel = .error ⟨.pixAddr, x.pos.toNat⟩ :=
  require_of_not (not_le.2 h)

/-- A pixel inside the window is not the last position there is (R36). -/
theorem Adapter.toNat_pos_add_one {x : Adapter} (h : 4 * x.pos.toNat + 4 ≤ x.len.toNat) :
    (x.pos + 1#32).toNat = x.pos.toNat + 1 := by
  have hlen := x.len.isLt
  rw [BitVec.toNat_add]
  exact Nat.mod_eq_of_lt (by simp only [BitVec.toNat_ofNat]; omega)

/-- A lookup in numbers: no entry has the value (R262). -/
theorem lookup_eq_none_of_toNat {lut : List Word} {v : Word} (h : ∀ w ∈ lut, w.toNat ≠ v.toNat) :
    lookup lut v = none :=
  lookup_eq_none.2 fun hv => h v hv rfl

/-- A lookup in numbers: the first entry that has the value (R262). -/
theorem lookup_eq_some_of_toNat {lut : List Word} {v w : Word} {n : Nat} (hn : lut[n]? = some w)
    (hw : w.toNat = v.toNat) (hfirst : ∀ m w', m < n → lut[m]? = some w' → w'.toNat ≠ v.toNat) :
    lookup lut v = some n :=
  lookup_eq_some.2 ⟨BitVec.eq_of_toNat_eq hw ▸ hn, fun m hm hv => hfirst m v hm hv rfl⟩

/-- Settles O47: the two checks in order, then the lookup of the pixel's value. -/
theorem pixReadOutcome : Obligations.PixReadOutcome := by
  intro rd s x i v
  have hexec := exec_pixRead rd s
  have hvalue : (s.mem.read32 s.pix.address).toNat = v := s.mem.toNat_read32 _
  refine ⟨fun hbound => ?_, fun hbound hout => ?_, fun hbound hin => ?_⟩
  · rw [Adapter.checkBound_of_unbound hbound, error_bind] at hexec
    exact raises_of_exec_eq hexec (by decide)
  · rw [(Adapter.checkBound_eq_ok (u := ())).2 hbound, ok_bind, Adapter.checkPixel_of_lt hout, error_bind] at hexec
    exact raises_of_exec_eq hexec (by decide)
  · rw [(Adapter.checkBound_eq_ok (u := ())).2 hbound, ok_bind, (Adapter.checkPixel_eq_ok (u := ())).2 hin,
      ok_bind] at hexec
    rw [← hvalue]
    refine ⟨fun hnone => ?_, fun n w hn hw hfirst => ?_⟩
    · rw [lookup_eq_none_of_toNat hnone] at hexec
      exact raises_of_exec_eq hexec (by decide)
    · rw [lookup_eq_some_of_toNat hn hw hfirst] at hexec
      refine completes_of_exec_eq hexec ⟨State.reg_setReg_same _ rd _, fun r hr => State.reg_setReg_of_ne _ _ hr,
        ?_, ?_, fun a => ?_, ?_⟩ (State.setReg_seq _ _ _)
      · rw [State.complete_pix, State.setReg_pix]
      · rw [State.complete_pix, State.setReg_pix]
        exact Adapter.toNat_pos_add_one hin
      · rw [State.complete_mem, State.setReg_mem]
      · rw [State.setReg_eq_with_regs]
        rfl

/-! ### PIX.WRITE (R263) -/

theorem exec_pixWrite (ra : Reg) (s : State) :
    exec (.pixWrite ra) s = commit s (do
      s.pix.checkBound
      match s.pix.lut[(s.reg ra).toNat]? with
      | none => .error ⟨.badIndex, (s.reg ra).toNat⟩
      | some v => do
        s.pix.checkPixel
        .ok { s with
          mem := s.mem.writeBytes s.pix.address (bytes32 v)
          pix := { s.pix with pos := s.pix.pos + 1#32 } }) := rfl

/-- The pixel value of four bytes just stored is the word they came from (R65). -/
theorem Memory.pixelValue_writeBytes_bytes32 (m : Memory) (a : Nat) (v : Word) :
    pixelValue (m.writeBytes a (bytes32 v)) a = v.toNat :=
  m.pixelValue_writeBytes a (vs := [v]) (i := 0) rfl

/-- Settles O48: the index is looked up before the position is checked, then the entry is stored. -/
theorem pixWriteOutcome : Obligations.PixWriteOutcome := by
  intro ra s x i n at0
  have hexec := exec_pixWrite ra s
  refine ⟨fun hbound => ?_, fun hbound hindex => ?_, fun hbound hindex hout => ?_, fun hbound hin v hv => ?_⟩
  · rw [Adapter.checkBound_of_unbound hbound, error_bind] at hexec
    exact raises_of_exec_eq hexec (by decide)
  · rw [(Adapter.checkBound_eq_ok (u := ())).2 hbound, ok_bind, List.getElem?_eq_none hindex] at hexec
    exact raises_of_exec_eq hexec (by decide)
  · rw [(Adapter.checkBound_eq_ok (u := ())).2 hbound, ok_bind, List.getElem?_eq_getElem hindex] at hexec
    dsimp only at hexec
    rw [Adapter.checkPixel_of_lt hout, error_bind] at hexec
    exact raises_of_exec_eq hexec (by decide)
  · rw [(Adapter.checkBound_eq_ok (u := ())).2 hbound, ok_bind, hv] at hexec
    dsimp only at hexec
    rw [(Adapter.checkPixel_eq_ok (u := ())).2 hin, ok_bind] at hexec
    exact completes_of_exec_eq hexec ⟨s.mem.pixelValue_writeBytes_bytes32 at0 v,
      fun a ha => s.mem.read_writeBytes_outside at0 a (bytes32 v) ha, rfl, Adapter.toNat_pos_add_one hin, rfl⟩ rfl

end Sys2Proof.Machine

/-! ## The encoding: decode and encode are inverse, and illegal words -/

namespace Sys2Proof

/-! ### The row of an opcode (R96, R99) -/

/-- No two rows have the same opcode (R96). -/
theorem nodup_opcodes : (opRows.map OpRow.op).Nodup := by decide

theorem eq_of_op_eq {row row' : OpRow} (hrow : row ∈ opRows) (hrow' : row' ∈ opRows) (hop : row.op = row'.op) :
    row = row' :=
  List.inj_on_of_nodup_map nodup_opcodes hrow hrow' hop

/-- Looking up an opcode finds its row. -/
theorem find?_opRows {w : Word} {row : OpRow} (hrow : row ∈ opRows) (hop : row.op = opField w) :
    opRows.find? (fun r => r.op == opField w) = some row := by
  cases hfound : opRows.find? (fun r => r.op == opField w) with
  | none => exact absurd (beq_iff_eq.2 hop) (List.find?_eq_none.1 hfound row hrow)
  | some r =>
    have hr : r.op = opField w := beq_iff_eq.1 (List.find?_some hfound :)
    rw [eq_of_op_eq (List.mem_of_find?_eq_some hfound) hrow (hr.trans hop.symm)]

/-! ### Immediates narrower than their place (R95) -/

/-- The low bits of the nibble that holds the arguments of PAL.TOVAL are `bits - 1`. -/
theorem bits_of_nibble (alpha : Bool) (bits1 : BitVec 3) :
    ((if alpha then 8#4 else 0#4) ||| bits1.setWidth 4).extractLsb' 0 3 = bits1 := by
  decide +revert

/-- The top bit of the nibble that holds the arguments of PAL.TOVAL is `alpha`. -/
theorem alpha_of_nibble (alpha : Bool) (bits1 : BitVec 3) :
    ((if alpha then 8#4 else 0#4) ||| bits1.setWidth 4).getLsbD 3 = alpha := by
  decide +revert

/-- A nibble is its top bit and its three low bits. -/
theorem nibble_of_bits_alpha (q : BitVec 4) :
    (if q.getLsbD 3 then 8#4 else 0#4) ||| (q.extractLsb' 0 3).setWidth 4 = q := by
  decide +revert

/-- The nibble that PAL.TOVAL reads `bits` and `alpha` from is written back. -/
theorem qField_of_bits_alpha (w : Word) :
    (if alphaField w then 8#4 else 0#4) ||| (bitsField w).setWidth 4 = qField w := by
  rw [alphaField_eq, bitsField_eq, nibble_of_bits_alpha]

/-- With the other bits 0, a mask keeps the whole immediate. -/
theorem and_eq_self_of_and_eq_zero {x low high : BitVec 20} (hmasks : low ||| high = BitVec.allOnes 20)
    (h : x &&& high = 0#20) : x &&& low = x :=
  calc x &&& low = (x &&& low) ||| (x &&& high) := by rw [h, BitVec.or_zero]
    _ = x := by rw [← BitVec.and_or_distrib_left, hmasks, BitVec.and_allOnes]

/-- With bits 19:12 of a word 0, its immediate is its `imm12` field. -/
theorem imm12Field_of_masked {w : Word} (h : imm20Field w &&& 0xFF000#20 = 0#20) :
    (imm12Field w).setWidth 20 = imm20Field w := by
  have hlow : (imm12Field w).setWidth 20 = imm20Field w &&& 0x00FFF#20 := by
    ext i hi; interval_cases i <;> simp [imm12Field, imm20Field]
  exact hlow.trans (and_eq_self_of_and_eq_zero (by decide) h)

/-- With bits 19:8 of a word 0, its immediate is its control-register field. -/
theorem crField_of_masked {w : Word} (h : imm20Field w &&& 0xFFF00#20 = 0#20) :
    (crField w).setWidth 20 = imm20Field w := by
  have hlow : (crField w).setWidth 20 = imm20Field w &&& 0x000FF#20 := by
    ext i hi; interval_cases i <;> simp [crField, imm20Field]
  exact hlow.trans (and_eq_self_of_and_eq_zero (by decide) h)

/-! ### Decoding an encoding -/

/-- The opcode of an encoding selects the row that builds the instruction back, format by format. -/
theorem row_encode (i : Instr) :
    ∃ row, opRows.find? (fun r => r.op == opField (encode i)) = some row ∧ row.build (encode i) = i := by
  cases i with
  | li | lih | crr =>
    refine ⟨_, by rw [encode, opField_formatI]; rfl, ?_⟩
    simp [encode]
  | palToval =>
    refine ⟨_, by rw [encode, opField_formatR]; rfl, ?_⟩
    simp only [encode, raField_formatR, rbField_formatR, pField_formatR, bitsField_eq, alphaField_eq, qField_formatR,
      bits_of_nibble, alpha_of_nibble]
  | _ =>
    refine ⟨_, by rw [encode, opField_formatR]; rfl, ?_⟩
    simp [encode]

/-- Every encoding has the opcode and the fixed bits of a row (R94). -/
theorem Laws.EncodeFixedBits.statement (i : Instr) : EncodeFixedBits.Statement i := by
  cases i with
  | nop => exact EncodeFixedBits.nop
  | li rd imm20 => exact EncodeFixedBits.li rd imm20
  | lih rd imm12 => exact EncodeFixedBits.lih rd imm12
  | crr rd cr => exact EncodeFixedBits.crr rd cr
  | reset => exact EncodeFixedBits.reset
  | palNew p ra rb => exact EncodeFixedBits.palNew p ra rb
  | palSet p ra rb rc rd re => exact EncodeFixedBits.palSet p ra rb rc rd re
  | palSetrgb p ra rb rc rd => exact EncodeFixedBits.palSetrgb p ra rb rc rd
  | palGet p ra rb rc rd re => exact EncodeFixedBits.palGet p ra rb rc rd re
  | palLen rd p => exact EncodeFixedBits.palLen rd p
  | palBpc rd p => exact EncodeFixedBits.palBpc rd p
  | palPlanes rd p => exact EncodeFixedBits.palPlanes rd p
  | palChkplanes p ra => exact EncodeFixedBits.palChkplanes p ra
  | palResample pd ps ra => exact EncodeFixedBits.palResample pd ps ra
  | palToval p ra rb bits1 alpha => exact EncodeFixedBits.palToval p ra rb bits1 alpha
  | palFromval p ra rb => exact EncodeFixedBits.palFromval p ra rb
  | palFromimg p ra rb => exact EncodeFixedBits.palFromimg p ra rb
  | atrParse4 ra rb rc rd => exact EncodeFixedBits.atrParse4 ra rb rc rd
  | atrParseste ra rb rc rd => exact EncodeFixedBits.atrParseste ra rb rc rd
  | atrMkpal p ra rb rc => exact EncodeFixedBits.atrMkpal p ra rb rc
  | atrWrpal p ra rb => exact EncodeFixedBits.atrWrpal p ra rb
  | bplRaw ra => exact EncodeFixedBits.bplRaw ra
  | bplContig ra rb rc rd re => exact EncodeFixedBits.bplContig ra rb rc rd re
  | bplLine ra rb rc rd => exact EncodeFixedBits.bplLine ra rb rc rd
  | bplWord ra rb rc rd => exact EncodeFixedBits.bplWord ra rb rc rd
  | bplRead rd => exact EncodeFixedBits.bplRead rd
  | bplWrite ra => exact EncodeFixedBits.bplWrite ra
  | bplAdv ra => exact EncodeFixedBits.bplAdv ra
  | pkbDec ra rb rc rd => exact EncodeFixedBits.pkbDec ra rb rc rd
  | pkbEnc ra rb rc rd re => exact EncodeFixedBits.pkbEnc ra rb rc rd re
  | pixBind p ra rb => exact EncodeFixedBits.pixBind p ra rb
  | pixRead rd => exact EncodeFixedBits.pixRead rd
  | pixWrite ra => exact EncodeFixedBits.pixWrite ra
  | pixAdv ra => exact EncodeFixedBits.pixAdv ra
  | pixSetpal p => exact EncodeFixedBits.pixSetpal p

/-- Settles O1: the row that the opcode selects has the encoding's fixed bits and builds the instruction. -/
theorem decodeOfEncode : Obligations.DecodeOfEncode := by
  intro i hwf
  obtain ⟨row, hfind, hbuild⟩ := row_encode i
  obtain ⟨row', hrow', hop, hmask⟩ := Laws.EncodeFixedBits.statement i
  obtain rfl : row' = row := Option.some.inj ((find?_opRows hrow' hop.symm).symm.trans hfind)
  have hdecode := decode_of_row hfind hmask (by rwa [hbuild])
  rwa [hbuild] at hdecode

/-! ### Encoding a decoded instruction -/

/-- A field that the row reads: the encoder writes it back, whatever the mask says. -/
theorem field_read {n : Nat} {x y c : BitVec n} : x &&& y = c → x = x := fun _ => rfl

/-- A field that the row fixes: its mask is all ones, and the encoder writes the fixed bits. -/
theorem field_fixed {x c : BitVec 4} (h : x &&& 0xF#4 = c) : c = x :=
  h.symm.trans BitVec.and_allOnes

/-- A masked word of format R is put together again from its opcode and, of each field, what the fixed bits say. -/
theorem formatR_of_masked {w m f : Word} {op : BitVec 8} {ra rb rc rd q p : BitVec 4} (hop : op = opField w)
    (h : w &&& m = f) (hra : raField w &&& raField m = raField f → ra = raField w)
    (hrb : rbField w &&& rbField m = rbField f → rb = rbField w)
    (hrc : rcField w &&& rcField m = rcField f → rc = rcField w)
    (hrd : rdField w &&& rdField m = rdField f → rd = rdField w)
    (hq : qField w &&& qField m = qField f → q = qField w)
    (hp : pField w &&& pField m = pField f → p = pField w) : formatR op ra rb rc rd q p = w := by
  subst h
  rw [hop, hra (raField_and ..).symm, hrb (rbField_and ..).symm, hrc (rcField_and ..).symm, hrd (rdField_and ..).symm,
    hq (qField_and ..).symm, hp (pField_and ..).symm, formatR_fields]

/-- A masked word of format I is put together again likewise. -/
theorem formatI_of_masked {w m f : Word} {op : BitVec 8} {rd : BitVec 4} {imm20 : BitVec 20} (hop : op = opField w)
    (h : w &&& m = f) (hrd : raField w &&& raField m = raField f → rd = raField w)
    (himm : imm20Field w &&& imm20Field m = imm20Field f → imm20 = imm20Field w) : formatI op rd imm20 = w := by
  subst h
  rw [hop, hrd (raField_and ..).symm, himm (imm20Field_and ..).symm, formatI_fields]

/-- The encoder writes a word that meets the row back from what the row builds. -/
def OpRow.EncodesBack (row : OpRow) : Prop :=
  ∀ w, row.op = opField w → w &&& row.mask = row.fixed → encode (row.build w) = w

/-! Row by row, which of the fields `ra`, `rb`, `rc`, `rd`, `q` and `p` the instruction reads. -/

theorem encodesBack_systemPal : ∀ row ∈ rowsSystemPal, row.EncodesBack := by
  simp only [rowsSystemPal, List.forall_mem_cons]
  exact ⟨
    fun _ o m => formatR_of_masked o m field_fixed field_fixed field_fixed field_fixed field_fixed field_fixed,
    fun _ o m => formatI_of_masked o m field_read field_read,
    fun _ o m => formatI_of_masked o m field_read imm12Field_of_masked,
    fun _ o m => formatI_of_masked o m field_read crField_of_masked,
    fun _ o m => formatR_of_masked o m field_fixed field_fixed field_fixed field_fixed field_fixed field_fixed,
    fun _ o m => formatR_of_masked o m field_read field_read field_fixed field_fixed field_fixed field_read,
    fun _ o m => formatR_of_masked o m field_read field_read field_read field_read field_read field_read,
    fun _ o m => formatR_of_masked o m field_read field_read field_read field_read field_fixed field_read,
    fun _ o m => formatR_of_masked o m field_read field_read field_read field_read field_read field_read,
    fun _ o m => formatR_of_masked o m field_fixed field_fixed field_fixed field_read field_fixed field_read,
    fun _ o m => formatR_of_masked o m field_fixed field_fixed field_fixed field_read field_fixed field_read,
    fun _ o m => formatR_of_masked o m field_fixed field_fixed field_fixed field_read field_fixed field_read,
    fun _ o m => formatR_of_masked o m field_read field_fixed field_fixed field_fixed field_fixed field_read,
    fun _ o m => formatR_of_masked o m field_read field_fixed field_fixed field_fixed field_read field_read,
    fun w o m => formatR_of_masked o m field_read field_read field_fixed field_fixed
      (fun _ => qField_of_bits_alpha w) field_read,
    fun _ o m => formatR_of_masked o m field_read field_read field_fixed field_fixed field_fixed field_read,
    fun _ o m => formatR_of_masked o m field_read field_read field_fixed field_fixed field_fixed field_read,
    List.forall_mem_nil _⟩

theorem encodesBack_units : ∀ row ∈ rowsUnits, row.EncodesBack := by
  simp only [rowsUnits, List.forall_mem_cons]
  exact ⟨
    fun _ o m => formatR_of_masked o m field_read field_read field_read field_read field_fixed field_fixed,
    fun _ o m => formatR_of_masked o m field_read field_read field_read field_read field_fixed field_fixed,
    fun _ o m => formatR_of_masked o m field_read field_read field_read field_fixed field_fixed field_read,
    fun _ o m => formatR_of_masked o m field_read field_read field_fixed field_fixed field_fixed field_read,
    fun _ o m => formatR_of_masked o m field_read field_fixed field_fixed field_fixed field_fixed field_fixed,
    fun _ o m => formatR_of_masked o m field_read field_read field_read field_read field_read field_fixed,
    fun _ o m => formatR_of_masked o m field_read field_read field_read field_read field_fixed field_fixed,
    fun _ o m => formatR_of_masked o m field_read field_read field_read field_read field_fixed field_fixed,
    fun _ o m => formatR_of_masked o m field_fixed field_fixed field_fixed field_read field_fixed field_fixed,
    fun _ o m => formatR_of_masked o m field_read field_fixed field_fixed field_fixed field_fixed field_fixed,
    fun _ o m => formatR_of_masked o m field_read field_fixed field_fixed field_fixed field_fixed field_fixed,
    fun _ o m => formatR_of_masked o m field_read field_read field_read field_read field_fixed field_fixed,
    fun _ o m => formatR_of_masked o m field_read field_read field_read field_read field_read field_fixed,
    fun _ o m => formatR_of_masked o m field_read field_read field_fixed field_fixed field_fixed field_read,
    fun _ o m => formatR_of_masked o m field_fixed field_fixed field_fixed field_read field_fixed field_fixed,
    fun _ o m => formatR_of_masked o m field_read field_fixed field_fixed field_fixed field_fixed field_fixed,
    fun _ o m => formatR_of_masked o m field_read field_fixed field_fixed field_fixed field_fixed field_fixed,
    fun _ o m => formatR_of_masked o m field_fixed field_fixed field_fixed field_fixed field_fixed field_read,
    List.forall_mem_nil _⟩

theorem encodesBack {row : OpRow} (hrow : row ∈ opRows) : row.EncodesBack :=
  (List.mem_append.1 hrow).elim (encodesBack_systemPal row) (encodesBack_units row)

/-- Settles O2: the word meets a row, and every row writes such a word back. -/
theorem encodeOfDecoded : Obligations.EncodeOfDecoded := by
  intro w i h
  obtain ⟨row, hrow, hop, hmask, rfl, hwf⟩ := decode_eq_ok h
  exact ⟨encodesBack hrow w hop hmask, hwf⟩

/-! ### Illegal words (R97) -/

/-- A word that matches no row does not decode. -/
theorem decode_ne_ok_of_no_row {w : Word} (h : ∀ row ∈ opRows, w &&& row.mask ≠ row.fixed) (i : Instr) :
    decode w ≠ .ok i := by
  intro hi
  obtain ⟨row, hrow, -, hmask, -⟩ := decode_eq_ok hi
  exact h row hrow hmask

/-- The word of a BPL.RAW whose registers run past `x15` does not decode. -/
theorem decode_ne_ok_of_bplRaw {w : Word} (hop : opField w = 0x30#8) (hra : 8 < (raField w).toNat) (i : Instr) :
    decode w ≠ .ok i := by
  intro hi
  obtain ⟨row, hrow, hrowop, -, rfl, hwf⟩ := decode_eq_ok hi
  obtain rfl : row = opRows[21] := eq_of_op_eq hrow (List.getElem_mem _) (hrowop.trans hop)
  exact absurd (of_decide_eq_true hwf) (not_le.2 hra)

/-- The fixed opcode byte of a word is its opcode. -/
theorem opField_of_and {w f : Word} (h : w &&& 0xFF000000#32 = f) : opField w = opField f := by
  rw [← h, opField_and]
  exact BitVec.and_allOnes.symm

theorem Machine.runCommand_of_illegal {w : Word} {s : Machine.State} (hhalt : s.halt = false)
    (hw : ∀ i, decode w ≠ .ok i) : Machine.runCommand w s = .next (s.raise ⟨.illegalEncoding, w.toNat⟩) := by
  cases hdecode : decode w with
  | ok i => exact absurd hdecode (hw i)
  | error e => simp [Machine.runCommand, hhalt, hdecode]

/-- Settles O3: neither kind of illegal word decodes, and the word fits ERRVAL. -/
theorem illegalWordRaises : Obligations.IllegalWordRaises := by
  intro w s hhalt hillegal
  have hw : ∀ i, decode w ≠ .ok i := by
    rcases hillegal with hnone | ⟨hop, hra⟩
    · exact decode_ne_ok_of_no_row hnone
    · exact decode_ne_ok_of_bplRaw (opField_of_and hop) hra
  rw [Machine.runCommand_of_illegal hhalt hw, Machine.State.raise, BitVec.ofNat_toNat, BitVec.setWidth_eq,
    show Machine.Cause.illegalEncoding.errcode = 0x0105#32 by decide]

/-- Settles O5: the eight words, each decoded by evaluation. -/
theorem sampleWordsDecode : Obligations.SampleWordsDecode := by
  unfold Obligations.SampleWordsDecode
  decide

end Sys2Proof

/-! ## The halted core -/

namespace Sys2Proof.Machine

/-- While halted only the word of RESET looks at its instruction (R120, R292): any other word leaves every field. -/
theorem runCommand_of_halted {w : Word} {s : State} (hhalt : s.halt = true) (hw : w ≠ 0x04000000#32) :
    runCommand w s = .next s := by
  unfold runCommand
  rw [if_pos hhalt, if_neg hw]

/-- Settles O6: taking the command off the list leaves HALT set, and the halted core discards the word. -/
theorem haltedDiscardsCommands : Obligations.HaltedDiscardsCommands := by
  intro w rest s hhalt hw h
  rw [step_command h]
  exact runCommand_of_halted hhalt hw

end Sys2Proof.Machine

/-! ## The palette unit: slot checks, entries, counts, resampling and the value-array round trip -/

namespace Sys2Proof.Machine

/-! ### The slot checks at the head of a command (R140) -/

section
variable {i : Instr} {s : State} {p : SlotNo}

/-- A command that checks a slot number first raises BAD_SLOT for a slot that does not exist. -/
theorem raises_badSlot {rest : Fin 4 → Except Err State} (hexec : exec i s = commit s (checkSlot p >>= rest))
    (hp : 4 ≤ p.toNat) : Raises i s 0x0205#32 p.toNat := by
  rw [checkSlot_eq_error.2 ⟨hp, rfl⟩, error_bind] at hexec
  exact raises_of_exec_eq hexec (by decide)

/-- A command that reads a slot first raises SLOT_EMPTY when the slot is empty. -/
theorem raises_slotEmpty {rest : Fin 4 → Palette → Except Err State}
    (hexec : exec i s = commit s (do
      let k ← checkSlot p
      let P ← s.readSlot k
      rest k P))
    (hp : p.toNat < 4) (hempty : s.slotAt p = none) : Raises i s 0x0305#32 p.toNat := by
  rw [State.slotAt_of_lt s hp] at hempty
  rw [checkSlot_of_lt hp, ok_bind, State.readSlot_eq_error.2 ⟨hempty, rfl⟩, error_bind] at hexec
  exact raises_of_exec_eq hexec (by decide)

theorem State.lt_of_slotAt_eq_some {P : Palette} (h : s.slotAt p = some P) : p.toNat < 4 := by
  obtain ⟨k, hpk, -, -⟩ := State.slotAt_eq_some h
  omega

/-- A command that reads a slot first goes on with the palette that an occupied slot holds. -/
theorem exec_of_slotAt {P : Palette} {rest : Fin 4 → Palette → Except Err State} (h : s.slotAt p = some P)
    (hexec : exec i s = commit s (do
      let k ← checkSlot p
      let P ← s.readSlot k
      rest k P)) :
    exec i s = commit s (rest ⟨p.toNat, State.lt_of_slotAt_eq_some h⟩ P) := by
  have hp := State.lt_of_slotAt_eq_some h
  rw [State.slotAt_of_lt s hp] at h
  rw [hexec, checkSlot_of_lt hp, ok_bind, State.readSlot_eq_ok.2 h, ok_bind]

end

/-- PAL.RESAMPLE into an existing slot: the source slot is read, then the depth is checked (R149). -/
theorem exec_palResample {pd : SlotNo} (hpd : pd.toNat < 4) (ps : SlotNo) (ra : Reg) (s : State) :
    exec (.palResample pd ps ra) s = commit s (do
      let ks ← checkSlot ps
      let P ← s.readSlot ks
      require (1 ≤ (s.reg ra).toNat ∧ (s.reg ra).toNat ≤ 8) ⟨.badBpc, (s.reg ra).toNat⟩
      .ok (s.setSlot ⟨pd.toNat, hpd⟩ (P.resample (s.reg ra).toNat))) := by
  change execPalResample pd ps ra s = _
  rw [execPalResample, checkSlot_of_lt hpd, ok_bind]

/-- PIX.SETPAL of a bound adapter: the slot is read (R265). -/
theorem exec_pixSetpal_of_bound {s : State} (hbound : s.pix.bound = true) (p : SlotNo) :
    exec (.pixSetpal p) s = commit s (do
      let k ← checkSlot p
      let P ← s.readSlot k
      .ok { s with pix := { s.pix with pal := BitVec.ofNat 2 k.val, lut := P.buildLut } }) := by
  change execPixSetpal p s = _
  rw [execPixSetpal, (Adapter.checkBound_eq_ok (u := ())).2 hbound, ok_bind]

theorem raises_pixUnbound {s : State} (hbound : s.pix.bound = false) (p : SlotNo) :
    Raises (.pixSetpal p) s 0x0505#32 0 := by
  refine raises_of_exec_eq (c := .pixUnbound) ?_ (by decide)
  change execPixSetpal p s = _
  rw [execPixSetpal, Adapter.checkBound_of_unbound hbound, error_bind]

/-- Settles O12: each pseudocode begins with the slot checks, but for the destination's of PAL.RESAMPLE and for the
adapter's of PIX.SETPAL, which come before them. -/
theorem slotChecksRaise : Obligations.SlotChecksRaise := by
  intro s p ra rb rc rd re bits1 alpha
  refine ⟨fun hp => ⟨?_, fun ps => raises_badSlot rfl hp, fun pd hpd => ?_, fun hbound => ?_⟩,
    fun hp hempty => ⟨?_, fun pd hpd => ?_, fun hbound => ?_⟩, fun hbound => raises_pixUnbound hbound p⟩
  · intro i hi
    fin_cases hi <;> exact raises_badSlot rfl hp
  · exact raises_badSlot (exec_palResample hpd p ra s) hp
  · exact raises_badSlot (exec_pixSetpal_of_bound hbound p) hp
  · intro i hi
    fin_cases hi <;> exact raises_slotEmpty rfl hp hempty
  · exact raises_slotEmpty (exec_palResample hpd p ra s) hp hempty
  · exact raises_slotEmpty (exec_pixSetpal_of_bound hbound p) hp hempty

/-! ### PAL.LEN, PAL.BPC, PAL.PLANES, PAL.CHKPLANES (R145 to R148) -/

section
variable {s : State} {p : SlotNo} {P : Palette}

theorem exec_palLen (h : s.slotAt p = some P) (rd : Reg) :
    exec (.palLen rd p) s = commit s (.ok (s.setReg rd (BitVec.ofNat 32 P.length))) :=
  (exec_of_slotAt (i := .palLen rd p) h rfl :)

theorem exec_palBpc (h : s.slotAt p = some P) (rd : Reg) :
    exec (.palBpc rd p) s = commit s (.ok (s.setReg rd (BitVec.ofNat 32 P.bpc))) :=
  (exec_of_slotAt (i := .palBpc rd p) h rfl :)

/-- PAL.PLANES of an occupied slot: the length is checked by its bits. -/
theorem exec_palPlanes (h : s.slotAt p = some P) (rd : Reg) :
    exec (.palPlanes rd p) s = commit s (do
      require (¬ (P.length = 0 ∨ P.length &&& (P.length - 1) ≠ 0)) ⟨.notPow2, P.length⟩
      .ok (s.setReg rd (BitVec.ofNat 32 (Nat.log2 P.length)))) :=
  (exec_of_slotAt (i := .palPlanes rd p) h rfl :)

theorem exec_palChkplanes (h : s.slotAt p = some P) (ra : Reg) :
    exec (.palChkplanes p ra) s = commit s (do
      require (¬ TooManyColors P.length (s.reg ra).toNat) ⟨.tooManyColors, P.length⟩
      .ok s) :=
  (exec_of_slotAt (i := .palChkplanes p ra) h rfl :)

end

/-- The bit test of R147 tells the powers of two. -/
theorem bitTest_iff_two_pow (L : Nat) : ¬ (L = 0 ∨ L &&& (L - 1) ≠ 0) ↔ ∃ n, L = 2 ^ n := by
  rw [not_or, not_ne_iff]
  exact Nat.ne_zero_and_sub_one_eq_zero_iff_isPowerOfTwo

/-- Settles O16: both write one register. -/
theorem palLenBpcOutcome : Obligations.PalLenBpcOutcome := by
  intro p rd s P hP
  exact ⟨completes_of_exec_eq_setReg (exec_palLen hP rd), completes_of_exec_eq_setReg (exec_palBpc hP rd)⟩

/-- Settles O17: the bit test passes for the powers of two, of which the base-2 logarithm is the exponent. -/
theorem palPlanesOutcome : Obligations.PalPlanesOutcome := by
  intro p rd s P hP
  have hexec := exec_palPlanes hP rd
  refine ⟨fun n (hn : P.length = 2 ^ n) => ?_, fun (hnone : ∀ n, P.length ≠ 2 ^ n) => ?_⟩
  · rw [require_of ((bitTest_iff_two_pow _).2 ⟨n, hn⟩), ok_bind, hn, Nat.log2_two_pow] at hexec
    exact completes_of_exec_eq_setReg hexec
  · rw [require_of_not fun htest => ((bitTest_iff_two_pow _).1 htest).elim hnone, error_bind] at hexec
    exact raises_of_exec_eq hexec (by decide)

/-- Settles O18: the guarded comparison of the model is the comparison with the power. -/
theorem palChkplanesOutcome : Obligations.PalChkplanesOutcome := by
  intro p ra s P hP
  have hexec := exec_palChkplanes hP ra
  have hmodel := tooManyColors_iff P.length (s.reg ra).toNat
  refine ⟨fun hmany => ?_, fun hfew => ?_⟩
  · rw [require_of_not (not_not.2 (hmodel.2 hmany)), error_bind] at hexec
    exact raises_of_exec_eq hexec (by decide)
  · rw [require_of (mt hmodel.1 (not_lt.2 hfew)), ok_bind] at hexec
    exact (completes_of_exec_eq_setRegs (writes := []) hexec).imp fun _ ⟨_, honly⟩ => honly

/-! ### PAL.SET and PAL.SETRGB (R142, R143) -/

theorem clamp_eq_max_min {lo hi : Int} (h : lo ≤ hi) (v : Int) : clamp v lo hi = max lo (min v hi) := by
  unfold clamp
  split
  · omega
  · split <;> omega

/-- A channel operand in numbers: the signed value clamped into the depth's range (R142). -/
theorem toNat_channelOperand {bpc : Nat} (hbpc : bpc ≤ 8) (v : Word) :
    ((channelOperand bpc v).toNat : Int) = max 0 (min v.toInt (2 ^ bpc - 1)) := by
  have hpow : 2 ^ bpc ≤ 2 ^ 8 := Nat.pow_le_pow_right (by omega) hbpc
  have htop : ((maxChannel bpc : Nat) : Int) = 2 ^ bpc - 1 := by
    rw [maxChannel, Nat.cast_sub Nat.one_le_two_pow]
    push_cast
    rfl
  rw [channelOperand, clamp_eq_max_min (Int.natCast_nonneg _), BitVec.toNat_ofNat, ← htop]
  unfold maxChannel
  omega

section
variable {s : State} {p : SlotNo} {P : Palette}

/-- PAL.SET of an occupied slot: the index is checked, then the entry is replaced. -/
theorem exec_palSet (hp : p.toNat < 4) (h : s.slotAt p = some P) (ra rb rc rd re : Reg) :
    exec (.palSet p ra rb rc rd re) s = commit s (do
      require ((s.reg ra).toNat < P.length) ⟨.badIndex, (s.reg ra).toNat⟩
      .ok (s.setSlot ⟨p.toNat, hp⟩ ⟨P.bpc, P.ents.set (s.reg ra).toNat
        ⟨channelOperand P.bpc (s.reg rb), channelOperand P.bpc (s.reg rc), channelOperand P.bpc (s.reg rd),
          channelOperand P.bpc (s.reg re)⟩⟩)) :=
  (exec_of_slotAt (i := .palSet p ra rb rc rd re) h rfl :)

/-- PAL.SETRGB of an occupied slot: as PAL.SET, with alpha at the depth's maximum. -/
theorem exec_palSetrgb (hp : p.toNat < 4) (h : s.slotAt p = some P) (ra rb rc rd : Reg) :
    exec (.palSetrgb p ra rb rc rd) s = commit s (do
      require ((s.reg ra).toNat < P.length) ⟨.badIndex, (s.reg ra).toNat⟩
      .ok (s.setSlot ⟨p.toNat, hp⟩ ⟨P.bpc, P.ents.set (s.reg ra).toNat
        ⟨channelOperand P.bpc (s.reg rb), channelOperand P.bpc (s.reg rc), channelOperand P.bpc (s.reg rd),
          BitVec.ofNat 8 (maxChannel P.bpc)⟩⟩)) :=
  (exec_of_slotAt (i := .palSetrgb p ra rb rc rd) h rfl :)

end

/-- Settles O14: both check the index, then replace one entry of the slot by the clamped operands. -/
theorem palSetOutcome : Obligations.PalSetOutcome := by
  intro p ra rb rc rd re s P hP hbpc i top
  have hp := State.lt_of_slotAt_eq_some hP
  have hset := exec_palSet hp hP ra rb rc rd re
  have hsetrgb := exec_palSetrgb hp hP ra rb rc rd
  split
  case isTrue hi =>
    have hi : P.length ≤ (s.reg ra).toNat := hi
    rw [require_of_not (not_lt.2 hi), error_bind] at hset hsetrgb
    exact ⟨raises_of_exec_eq hset (by decide), raises_of_exec_eq hsetrgb (by decide)⟩
  case isFalse hi =>
    have hi : (s.reg ra).toNat < P.length := not_le.1 hi
    rw [require_of hi, ok_bind] at hset hsetrgb
    refine ⟨⟨channelOperand P.bpc (s.reg rb), channelOperand P.bpc (s.reg rc), channelOperand P.bpc (s.reg rd),
      channelOperand P.bpc (s.reg re)⟩, toNat_channelOperand hbpc _, toNat_channelOperand hbpc _,
      toNat_channelOperand hbpc _, toNat_channelOperand hbpc _, ?_, ?_⟩
    · exact completes_of_exec_eq hset ⟨s.slotAt_complete_setSlot hp _, onlySlot_complete_setSlot s hp _⟩ rfl
    · exact completes_of_exec_eq hsetrgb ⟨s.slotAt_complete_setSlot hp _, onlySlot_complete_setSlot s hp _⟩ rfl

/-! ### The scaling function (R150) -/

theorem maxChannel_pos {b : Nat} (hb : 1 ≤ b) : 0 < maxChannel b :=
  Nat.sub_pos_of_lt (Nat.one_lt_two_pow (by omega))

theorem maxChannel_lt {ob nb : Nat} (hob : 1 ≤ ob) (h : ob < nb) : maxChannel ob < maxChannel nb := by
  have hpos := maxChannel_pos hob
  have hpow : 2 ^ ob < 2 ^ nb := Nat.pow_lt_pow_right (by omega) h
  unfold maxChannel at hpos ⊢
  omega

/-- Twice the scaled value is within one half step of the exact quotient, the lower end excluded: half up (R150). -/
theorem rs_rounds {ob : Nat} (hob : 1 ≤ ob) (c nb : Nat) :
    2 * (rs c ob nb * maxChannel ob) ≤ 2 * (c * maxChannel nb) + maxChannel ob ∧
      2 * (c * maxChannel nb) < 2 * (rs c ob nb * maxChannel ob) + maxChannel ob := by
  have hpos := maxChannel_pos hob
  have hsplit := Nat.div_add_mod (2 * c * maxChannel nb + maxChannel ob) (2 * maxChannel ob)
  have hmod := Nat.mod_lt (2 * c * maxChannel nb + maxChannel ob) (show 0 < 2 * maxChannel ob by omega)
  have hnum : 2 * c * maxChannel nb = 2 * (c * maxChannel nb) := Nat.mul_assoc ..
  have hquot : 2 * maxChannel ob * rs c ob nb = 2 * (rs c ob nb * maxChannel ob) := by ring
  change 2 * maxChannel ob * rs c ob nb + _ = _ at hsplit
  omega

/-- The rounding decides the scaled value (R150). -/
theorem rs_eq_of_rounds {c ob nb q : Nat} (hle : 2 * (q * maxChannel ob) ≤ 2 * (c * maxChannel nb) + maxChannel ob)
    (hlt : 2 * (c * maxChannel nb) < 2 * (q * maxChannel ob) + maxChannel ob) : rs c ob nb = q := by
  have hnum : 2 * c * maxChannel nb = 2 * (c * maxChannel nb) := Nat.mul_assoc ..
  refine Nat.div_eq_of_lt_le ?_ ?_
  · rw [show q * (2 * maxChannel ob) = 2 * (q * maxChannel ob) by ring]
    omega
  · rw [show (q + 1) * (2 * maxChannel ob) = 2 * (q * maxChannel ob) + 2 * maxChannel ob by ring]
    omega

/-- Scaling to the same depth keeps a channel. -/
theorem rs_self {b : Nat} (hb : 1 ≤ b) (c : Nat) : rs c b b = c :=
  rs_eq_of_rounds (Nat.le_add_right _ _) (Nat.lt_add_of_pos_right (maxChannel_pos hb))

/-- Scaling up and back down keeps a channel: the half step of the smaller depth is less than that of the larger (R155). -/
theorem rs_rs {ob nb : Nat} (hob : 1 ≤ ob) (h : ob ≤ nb) (c : Nat) : rs (rs c ob nb) nb ob = c := by
  rcases h.eq_or_lt with rfl | hlt
  · rw [rs_self hob, rs_self hob]
  · have hmax := maxChannel_lt hob hlt
    obtain ⟨hle, hgt⟩ := rs_rounds hob c nb
    exact rs_eq_of_rounds (by omega) (by omega)

/-- Settles O20: the rounding, and the range that the invariant's proof needs too. -/
theorem rescaleRoundsHalfUp : Obligations.RescaleRoundsHalfUp := by
  intro c ob nb hob hnb hc x y
  obtain ⟨hle, hlt⟩ := rs_rounds hob c nb
  exact ⟨rfl, hle, hlt, rs_le nb hob hc⟩

/-! ### Resampling a palette (R149, R155) -/

/-- A colour of a depth, scaled: each channel by the formula of R150. -/
theorem Color.toNat_rescale {c : Color} {ob nb : Nat} (hob : 1 ≤ ob) (hnb : nb ≤ 8) (hc : c.Ok ob) :
    (c.rescale ob nb).r.toNat = rescaled c.r.toNat ob nb ∧ (c.rescale ob nb).g.toNat = rescaled c.g.toNat ob nb ∧
      (c.rescale ob nb).b.toNat = rescaled c.b.toNat ob nb ∧ (c.rescale ob nb).a.toNat = rescaled c.a.toNat ob nb := by
  obtain ⟨hr, hg, hb, ha⟩ := hc
  exact ⟨toNat_rs hob hnb hr, toNat_rs hob hnb hg, toNat_rs hob hnb hb, toNat_rs hob hnb ha⟩

/-- Scaling a colour up and back down keeps it (R155). -/
theorem Color.rescale_rescale {c : Color} {ob nb : Nat} (hob : 1 ≤ ob) (h : ob ≤ nb) (hnb : nb ≤ 8) (hc : c.Ok ob) :
    (c.rescale ob nb).rescale nb ob = c := by
  obtain ⟨hr, hg, hb, ha⟩ := Color.toNat_rescale hob hnb hc
  have hback {x y : Byte} (hy : y.toNat = rescaled x.toNat ob nb) : BitVec.ofNat 8 (rs y.toNat nb ob) = x := by
    rw [hy, show rescaled x.toNat ob nb = rs x.toNat ob nb from rfl, rs_rs hob h, BitVec.ofNat_toNat,
      BitVec.setWidth_eq]
  rw [Color.rescale]
  dsimp only
  rw [hback hr, hback hg, hback hb, hback ha]

theorem Color.rescale_self {b : Nat} (hb : 1 ≤ b) (c : Color) : c.rescale b b = c := by
  simp only [Color.rescale, rs_self hb, BitVec.ofNat_toNat, BitVec.setWidth_eq]

/-- Resampling a palette up and back down keeps it (R155). -/
theorem Palette.resample_resample {P : Palette} (hP : P.Ok) {nb : Nat} (h : P.bpc ≤ nb) (hnb : nb ≤ 8) :
    (P.resample nb).resample P.bpc = P := by
  obtain ⟨-, hbpc, -, hents⟩ := hP
  have hback : (P.ents.map (·.rescale P.bpc nb)).map (·.rescale nb P.bpc) = P.ents := by
    rw [List.map_map]
    exact (List.map_congr_left fun c hc => Color.rescale_rescale hbpc h hnb (hents c hc)).trans (List.map_id _)
  rw [Palette.resample, Palette.resample_ents, Palette.resample_bpc, hback]

theorem Palette.resample_self {P : Palette} (hP : P.Ok) : P.resample P.bpc = P := by
  obtain ⟨-, hbpc, -, -⟩ := hP
  simp only [Palette.resample, Color.rescale_self hbpc, List.map_id']

/-- Settles O21: channels, then palettes; the middle value of 2 bits is lost at 1 bit. -/
theorem resampleUpAndDown : Obligations.ResampleUpAndDown :=
  ⟨fun _ _ c hob h _ _ => rs_rs hob h c, fun _ _ hP h hnb => Palette.resample_resample hP h hnb,
    2, 1, 1, by decide⟩

/-- Settles O19: after the depth check the destination holds the source resampled. -/
theorem palResampleOutcome : Obligations.PalResampleOutcome := by
  intro pd ps ra s P hpd hP hok nb
  refine ite_of_require (by decide) (by omega) (exec_of_slotAt hP (exec_palResample hpd ps ra s)) fun hnb hexec => ?_
  refine completes_of_exec_eq hexec ⟨P.resample nb, s.slotAt_complete_setSlot hpd _, rfl, P.length_resample nb,
    hok.resample hnb, fun i c d hc hd => ?_, onlySlot_complete_setSlot s hpd _⟩ rfl
  obtain ⟨-, hbpc, -, hents⟩ := hok
  have hd : d = c.rescale P.bpc nb := by simpa [hc, eq_comm] using hd
  exact hd ▸ Color.toNat_rescale hbpc hnb.2 (hents c (List.mem_of_getElem? hc))

/-! ### PAL.TOVAL, then PAL.FROMVAL (R154) -/

/-- Words stored are the words read back (R66). -/
theorem Memory.read32s_writeBytes (m : Memory) (a : Nat) (vs : List Word) :
    (m.writeBytes a (vs.flatMap bytes32)).read32s a vs.length = vs := by
  refine List.ext_getElem (by simp [Memory.read32s]) fun i hi hvs => BitVec.eq_of_toNat_eq ?_
  simp only [Memory.read32s, List.getElem_map, List.getElem_range, Memory.toNat_read32]
  exact m.pixelValue_writeBytes a (List.getElem?_eq_getElem hvs)

/-- The value array of an 8-bit palette with alpha makes the same palette again (R152). -/
theorem Palette.ofValues_toValues {P : Palette} (hP : P.Ok) (hbpc : P.bpc = 8) :
    Palette.ofValues (P.toValues 8 true) = P := by
  have hsame : P.resample 8 = P := hbpc ▸ Palette.resample_self hP
  simp only [Palette.ofValues, Palette.toValues, hsame, List.map_map, Function.comp_def, Color.ofPacked_pack,
    List.map_id']
  rw [← hbpc]

/-- What PAL.TOVAL leaves when the palette fits: the packed words in MEM, registers and MEM_SIZE as before. -/
theorem exec_palToval_stores {s t : State} {p : SlotNo} {P : Palette} {ra rb : Reg} {bits1 : BitVec 3} {alpha : Bool}
    (hP : s.slotAt p = some P) (hwin : (s.reg ra).toNat + (s.reg rb).toNat ≤ s.memSize)
    (hcap : 4 * P.length ≤ (s.reg rb).toNat) (h : exec (.palToval p ra rb bits1 alpha) s = .next t) :
    (∀ r, t.reg r = s.reg r) ∧ t.memSize = s.memSize ∧
      t.mem = s.mem.writeBytes (s.reg ra).toNat ((P.toValues (bits1.toNat + 1) alpha).flatMap bytes32) := by
  rw [exec_palToval hP, (State.checkWindow_eq_ok (u := ())).2 hwin, ok_bind, require_of hcap, ok_bind] at h
  cases h
  exact ⟨fun _ => rfl, rfl, rfl⟩

/-- Settles O25: PAL.TOVAL stores the packed words, which PAL.FROMVAL reads back and unpacks. -/
theorem valueArrayRoundTrip : Obligations.ValueArrayRoundTrip := by
  intro p p2 ra rb xn s t P hP hok hbpc hp2 hcount hcap hwin hstored
  have hlen : P.length ≤ 256 := hok.1
  have hcount : (s.reg xn).toNat = P.length := hcount
  have hcap : 4 * P.length ≤ (s.reg rb).toNat := hcap
  obtain ⟨hreg, hsize, hmem⟩ := exec_palToval_stores hP hwin hcap hstored
  have hback : t.mem.read32s (s.reg ra).toNat P.length = P.toValues 8 true := by
    rw [hmem, ← P.length_toValues 8 true]
    exact s.mem.read32s_writeBytes _ _
  have hexec := exec_palFromval hp2 ra xn t
  rw [hreg, hreg, hcount, require_of hlen, ok_bind, (State.checkWindow_eq_ok (u := ())).2 (by omega), ok_bind, hback,
    Palette.ofValues_toValues hok hbpc] at hexec
  exact completes_of_exec_eq hexec ⟨t.slotAt_complete_setSlot hp2 P, onlySlot_complete_setSlot t hp2 P⟩ rfl

end Sys2Proof.Machine

/-! ## The Atari codec: parsing a colour word, and a palette written and read back -/

namespace Sys2Proof.Machine

/-! ### ATR.PARSE4 and ATR.PARSESTE (R181, R182) -/

/-- Settles O26: the nibbles in numbers are the model's, and each instruction is three register writes. -/
theorem atrParseComplete : Obligations.AtrParseComplete := by
  intro ra rb rc rd s w
  simp only [w, ← toNat_redNibble, ← toNat_greenNibble, ← toNat_blueNibble, ← toNat_rot, BitVec.ofNat_toNat]
  exact ⟨completes_of_exec_eq_setRegs rfl, completes_of_exec_eq_setRegs rfl⟩

/-! ### Nibbles packed and taken apart, rotated and rotated back (R180) -/

/-- The nibbles of a colour word are those it was packed from. -/
theorem nibblesOf_pack {x y z : Nat} (hx : x < 16) (hy : y < 16) (hz : z < 16) :
    redOf (x * 256 + y * 16 + z) = x ∧ greenOf (x * 256 + y * 16 + z) = y ∧ blueOf (x * 256 + y * 16 + z) = z := by
  unfold redOf greenOf blueOf
  omega

theorem unrotated_lt {c : Nat} (hc : c < 16) : unrotated c < 16 := by
  unfold unrotated
  omega

/-- `rot` undoes `inv` (R180). -/
theorem rotated_unrotated {c : Nat} (hc : c < 16) : rotated (unrotated c) = c := by
  unfold rotated unrotated
  omega

/-- The low bit of a channel is bit 3 of its nibble (R180). -/
theorem eight_le_unrotated_iff {c : Nat} (hc : c < 16) : 8 ≤ unrotated c ↔ c % 2 = 1 := by
  unfold unrotated
  omega

/-- An even channel is stored halved (R180). -/
theorem unrotated_of_even {c : Nat} (hc : ¬ c % 2 = 1) : unrotated c = c / 2 := by
  unfold unrotated
  omega

/-! ### A colour packed and read back (R184 to R186) -/

/-- Some of the channels r, g and b is odd; alpha is not stored. -/
def Color.HasOdd (c : Color) : Prop := c.r.toNat % 2 = 1 ∨ c.g.toNat % 2 = 1 ∨ c.b.toNat % 2 = 1

/-- A 3-bit colour made from the nibbles in numbers (R184). -/
theorem stColor_eq_ofNat (w : BitVec 16) :
    stColor w =
      ⟨BitVec.ofNat 8 (redOf w.toNat), BitVec.ofNat 8 (greenOf w.toNat), BitVec.ofNat 8 (blueOf w.toNat), 7#8⟩ := by
  simp only [← toNat_redNibble, ← toNat_greenNibble, ← toNat_blueNibble, BitVec.ofNat_toNat]
  rfl

/-- A 4-bit colour made from the rotated nibbles in numbers (R184). -/
theorem steColor_eq_ofNat (w : BitVec 16) :
    steColor w = ⟨BitVec.ofNat 8 (rotated (redOf w.toNat)), BitVec.ofNat 8 (rotated (greenOf w.toNat)),
      BitVec.ofNat 8 (rotated (blueOf w.toNat)), 15#8⟩ := by
  simp only [← toNat_redNibble, ← toNat_greenNibble, ← toNat_blueNibble, ← toNat_rot, BitVec.ofNat_toNat]
  rfl

section
variable {c : Color}

/-- The nibbles of a 3-bit colour's word are its channels (R185). -/
theorem nibblesOf_stWord (hc : c.Ok 3) :
    redOf (stWord c).toNat = c.r.toNat ∧ greenOf (stWord c).toNat = c.g.toNat ∧
      blueOf (stWord c).toNat = c.b.toNat := by
  rw [toNat_stWord hc]
  obtain ⟨hr, hg, hb, -⟩ := hc
  exact nibblesOf_pack (by omega) (by omega) (by omega)

/-- The nibbles of a 4-bit colour's word are its channels rotated back (R185). -/
theorem nibblesOf_steWord (hc : c.Ok 4) :
    redOf (steWord c).toNat = unrotated c.r.toNat ∧ greenOf (steWord c).toNat = unrotated c.g.toNat ∧
      blueOf (steWord c).toNat = unrotated c.b.toNat := by
  rw [toNat_steWord hc]
  obtain ⟨hr, hg, hb, -⟩ := hc
  exact nibblesOf_pack (unrotated_lt (by omega)) (unrotated_lt (by omega)) (unrotated_lt (by omega))

theorem not_hasSteBit_stWord (hc : c.Ok 3) : ¬ hasSteBit (stWord c).toNat := by
  obtain ⟨hred, hgreen, hblue⟩ := nibblesOf_stWord hc
  obtain ⟨hr, hg, hb, -⟩ := hc
  rw [hasSteBit, hred, hgreen, hblue]
  omega

theorem hasSteBit_steWord_iff (hc : c.Ok 4) : hasSteBit (steWord c).toNat ↔ c.HasOdd := by
  obtain ⟨hred, hgreen, hblue⟩ := nibblesOf_steWord hc
  obtain ⟨hr, hg, hb, -⟩ := hc
  rw [hasSteBit, hred, hgreen, hblue, eight_le_unrotated_iff (by omega), eight_le_unrotated_iff (by omega),
    eight_le_unrotated_iff (by omega), Color.HasOdd]

/-- A 3-bit colour read back as a 3-bit colour (R186). -/
theorem stColor_stWord (hc : c.Ok 3) : stColor (stWord c) = { c with a := 7#8 } := by
  obtain ⟨hred, hgreen, hblue⟩ := nibblesOf_stWord hc
  simp only [stColor_eq_ofNat, hred, hgreen, hblue, BitVec.ofNat_toNat, BitVec.setWidth_eq]

/-- A 4-bit colour read back as a 4-bit colour (R186). -/
theorem steColor_steWord (hc : c.Ok 4) : steColor (steWord c) = { c with a := 15#8 } := by
  obtain ⟨hred, hgreen, hblue⟩ := nibblesOf_steWord hc
  obtain ⟨hr, hg, hb, -⟩ := hc
  rw [steColor_eq_ofNat, hred, hgreen, hblue, rotated_unrotated (by omega), rotated_unrotated (by omega),
    rotated_unrotated (by omega)]
  simp only [BitVec.ofNat_toNat, BitVec.setWidth_eq]

/-- A 4-bit colour with even channels read back as a 3-bit colour is halved (R186). -/
theorem stColor_steWord_of_even (hc : c.Ok 4) (heven : ¬ c.HasOdd) :
    stColor (steWord c) =
      ⟨BitVec.ofNat 8 (c.r.toNat / 2), BitVec.ofNat 8 (c.g.toNat / 2), BitVec.ofNat 8 (c.b.toNat / 2), 7#8⟩ := by
  obtain ⟨hred, hgreen, hblue⟩ := nibblesOf_steWord hc
  rw [Color.HasOdd, not_or, not_or] at heven
  obtain ⟨hr, hg, hb⟩ := heven
  rw [stColor_eq_ofNat, hred, hgreen, hblue, unrotated_of_even hr, unrotated_of_even hg, unrotated_of_even hb]

end

/-! ### A palette packed and read back (R186) -/

theorem Palette.atariWords_of_three {P : Palette} (hbpc : P.bpc = 3) : P.atariWords = P.ents.map stWord := by
  rw [Palette.atariWords, if_pos hbpc]

theorem Palette.atariWords_of_four {P : Palette} (hbpc : P.bpc = 4) : P.atariWords = P.ents.map steWord := by
  rw [Palette.atariWords, if_neg (by omega)]

section
variable {ents : List Color}

/-- The detection over the words made of a list of colours (R183). -/
theorem steDetected_map_iff (word : Color → BitVec 16) :
    steDetected (ents.map word) = true ↔ ∃ c ∈ ents, hasSteBit (word c).toNat := by
  simp only [steDetected, List.any_map, List.any_eq_true, Function.comp_apply, decide_eq_true_eq,
    and_steMask_ne_zero]

theorem steDetected_map_stWord (hents : ∀ c ∈ ents, c.Ok 3) : steDetected (ents.map stWord) ≠ true := by
  rw [ne_eq, steDetected_map_iff]
  rintro ⟨c, hc, hbit⟩
  exact not_hasSteBit_stWord (hents c hc) hbit

theorem steDetected_map_steWord_iff (hents : ∀ c ∈ ents, c.Ok 4) :
    steDetected (ents.map steWord) = true ↔ ∃ c ∈ ents, c.HasOdd := by
  rw [steDetected_map_iff]
  exact exists_congr fun c => and_congr_right fun hc => hasSteBit_steWord_iff (hents c hc)

theorem atariPalette_map_stWord (hents : ∀ c ∈ ents, c.Ok 3) :
    atariPalette (ents.map stWord) = ⟨3, ents.map fun c => { c with a := 7#8 }⟩ := by
  rw [atariPalette_of_st (steDetected_map_stWord hents), List.map_map]
  exact congrArg (Palette.mk 3) (List.map_congr_left fun c hc => stColor_stWord (hents c hc))

theorem atariPalette_map_steWord_of_odd (hents : ∀ c ∈ ents, c.Ok 4) (hodd : ∃ c ∈ ents, c.HasOdd) :
    atariPalette (ents.map steWord) = ⟨4, ents.map fun c => { c with a := 15#8 }⟩ := by
  rw [atariPalette_of_ste ((steDetected_map_steWord_iff hents).2 hodd), List.map_map]
  exact congrArg (Palette.mk 4) (List.map_congr_left fun c hc => steColor_steWord (hents c hc))

theorem atariPalette_map_steWord_of_even (hents : ∀ c ∈ ents, c.Ok 4) (heven : ¬ ∃ c ∈ ents, c.HasOdd) :
    atariPalette (ents.map steWord) = ⟨3, ents.map fun c =>
      ⟨BitVec.ofNat 8 (c.r.toNat / 2), BitVec.ofNat 8 (c.g.toNat / 2), BitVec.ofNat 8 (c.b.toNat / 2), 7#8⟩⟩ := by
  rw [atariPalette_of_st (mt (steDetected_map_steWord_iff hents).1 heven), List.map_map]
  exact congrArg (Palette.mk 3) (List.map_congr_left fun c hc =>
    stColor_steWord_of_even (hents c hc) fun hodd => heven ⟨c, hc, hodd⟩)

end

/-! ### ATR.WRPAL, then ATR.MKPAL (R186) -/

/-- Words stored are the words read back (R64). -/
theorem Memory.read16s_writeBytes (m : Memory) (a : Nat) (vs : List (BitVec 16)) :
    (m.writeBytes a (vs.flatMap bytes16)).read16s a vs.length = vs := by
  refine List.ext_getElem (Memory.length_read16s ..) fun i hi hvs => BitVec.eq_of_toNat_eq ?_
  simp only [Memory.read16s, List.getElem_map, List.getElem_range, Memory.toNat_read16]
  exact m.wordValue_writeBytes a (List.getElem?_eq_getElem hvs)

/-- What ATR.WRPAL leaves when the palette fits: the colour words in MEM, registers and MEM_SIZE as before. -/
theorem exec_atrWrpal_stores {s t : State} {p : SlotNo} {P : Palette} {ra rb : Reg} (hP : s.slotAt p = some P)
    (hbpc : P.bpc = 3 ∨ P.bpc = 4) (hwin : (s.reg ra).toNat + (s.reg rb).toNat ≤ s.memSize)
    (hcap : 2 * P.length ≤ (s.reg rb).toNat) (h : exec (.atrWrpal p ra rb) s = .next t) :
    (∀ r, t.reg r = s.reg r) ∧ t.memSize = s.memSize ∧
      t.mem = s.mem.writeBytes (s.reg ra).toNat (P.atariWords.flatMap bytes16) := by
  rw [exec_atrWrpal hP, require_of hbpc, ok_bind, (State.checkWindow_eq_ok (u := ())).2 hwin, ok_bind,
    require_of hcap, ok_bind] at h
  cases h
  exact ⟨fun _ => rfl, rfl, rfl⟩

/-- ATR.MKPAL of words that lie in its window makes the palette of those words (R184). -/
theorem completes_atrMkpal {t : State} {p : SlotNo} {ra rb rc : Reg} {ws : List (BitVec 16)} (hp : p.toNat < 4)
    (hcount : (t.reg rc).toNat = ws.length) (hlen : ws.length ≤ 256)
    (hwin : (t.reg ra).toNat + (t.reg rb).toNat ≤ t.memSize) (hcap : 2 * ws.length ≤ (t.reg rb).toNat)
    (hwords : t.mem.read16s (t.reg ra).toNat ws.length = ws) :
    Completes (.atrMkpal p ra rb rc) t fun u => u.slotAt p = some (atariPalette ws) := by
  have hexec := exec_atrMkpal hp ra rb rc t
  rw [hcount, require_of hlen, ok_bind, (State.checkWindow_eq_ok (u := ())).2 hwin, ok_bind, require_of hcap, ok_bind,
    hwords] at hexec
  exact completes_of_exec_eq hexec (t.slotAt_complete_setSlot hp _) rfl

/-- Settles O29: ATR.MKPAL makes the palette of the stored words, which the depth and the odd channels decide. -/
theorem atariRoundTrip : Obligations.AtariRoundTrip := by
  intro p p2 ra rb rc s t P hP hok hbpc hp2 hcount hcap hwin hstored odd
  obtain ⟨hreg, hsize, hmem⟩ := exec_atrWrpal_stores hP hbpc hwin hcap hstored
  obtain ⟨hlen, -, -, hents⟩ := hok
  have hread : Completes (.atrMkpal p2 ra rb rc) t fun u => u.slotAt p2 = some (atariPalette P.atariWords) := by
    refine completes_atrMkpal hp2 ?_ ?_ ?_ ?_ ?_
    · rw [hreg, hcount, Palette.length_atariWords, Palette.length]
    · rwa [Palette.length_atariWords, Palette.length]
    · rwa [hreg, hreg, hsize]
    · rwa [hreg, Palette.length_atariWords, Palette.length]
    · rw [hreg, hmem, Memory.read16s_writeBytes]
  refine ⟨fun hthree => ?_, fun hfour hodd => ?_, fun hfour heven => ?_⟩
  · rw [hthree] at hents
    rwa [P.atariWords_of_three hthree, atariPalette_map_stWord hents] at hread
  · rw [hfour] at hents
    rwa [P.atariWords_of_four hfour, atariPalette_map_steWord_of_odd hents hodd] at hread
  · rw [hfour] at hents
    rwa [P.atariWords_of_four hfour, atariPalette_map_steWord_of_even hents heven] at hread

end Sys2Proof.Machine

/-! ## The cursor's closed form, BPL.ADV, and the configuration of the engine -/

namespace Sys2Proof.Machine

section
variable {e : Bitplane} {c : Cursor} {n : Nat}

/-! ### The count of pixels passed, and its digits (R202) -/

theorem Bitplane.pixelCount_mod_eight (e : Bitplane) : e.pixelCount % 8 = e.cur.bitIndex.toNat := by
  unfold Bitplane.pixelCount
  omega

theorem Bitplane.pixelCount_div_eight (e : Bitplane) :
    e.pixelCount / 8 = (e.cur.lineIndex.toNat * e.conf.blocksPerLine.toNat + e.cur.blockIndex.toNat) *
      e.conf.bytesPerBlock.toNat + e.cur.byteInBlock.toNat := by
  unfold Bitplane.pixelCount
  omega

/-- A number written with a digit below the base, divided by the base. -/
theorem mul_add_div_of_lt {q b r : Nat} (h : r < b) : (q * b + r) / b = q := by
  rw [mul_comm, Nat.mul_add_div (by omega), Nat.div_eq_of_lt h, add_zero]

/-- The blocks passed. -/
theorem Bitplane.CursorOk.pixelCount_div_block (h : e.CursorOk) :
    e.pixelCount / (8 * e.conf.bytesPerBlock.toNat) =
      e.cur.lineIndex.toNat * e.conf.blocksPerLine.toNat + e.cur.blockIndex.toNat := by
  rw [← Nat.div_div_eq_div_mul, e.pixelCount_div_eight, mul_add_div_of_lt h.1]

/-- The lines passed. -/
theorem Bitplane.CursorOk.pixelCount_div_line (h : e.CursorOk) :
    e.pixelCount / (8 * e.conf.bytesPerBlock.toNat * e.conf.blocksPerLine.toNat) = e.cur.lineIndex.toNat := by
  rw [← Nat.div_div_eq_div_mul, h.pixelCount_div_block, mul_add_div_of_lt h.2]

/-- A cursor step passes one pixel (R202). -/
theorem Bitplane.CursorOk.pixelCount_stepCursor (h : e.CursorOk) (hstep : e.stepCursor = .ok c) :
    (e.atCursor c).pixelCount = e.pixelCount + 1 := by
  have hrule := cursorStepRule e h
  obtain ⟨hbyte, hblock⟩ := h
  dsimp only at hrule
  rw [hstep] at hrule
  simp only [Except.ok.injEq, reduceCtorEq] at hrule
  unfold Bitplane.pixelCount Bitplane.atCursor
  split at hrule
  case isTrue =>
    obtain ⟨d, rfl, hd, hnext⟩ := hrule
    rw [hd]
    simp only [hnext, add_assoc]
  case isFalse hbit =>
    have hseven : e.cur.bitIndex.toNat = 7 := by omega
    split at hrule
    case isTrue =>
      obtain ⟨d, rfl, hd, hnext⟩ := hrule
      rw [hd]
      simp only [hnext, hseven, BitVec.toNat_ofNat]
      ring
    case isFalse hlastByte =>
      have hbytes : e.conf.bytesPerBlock.toNat = e.cur.byteInBlock.toNat + 1 := by omega
      split at hrule
      case isTrue =>
        obtain ⟨d, rfl, hd, hnext⟩ := hrule
        rw [hd]
        simp only [hnext, hseven, hbytes, BitVec.toNat_ofNat]
        ring
      case isFalse hlastBlock =>
        have hblocks : e.conf.blocksPerLine.toNat = e.cur.blockIndex.toNat + 1 := by omega
        split at hrule
        case isTrue =>
          obtain ⟨d, rfl, hd, hnext⟩ := hrule
          rw [hd]
          simp only [hnext, hseven, hbytes, hblocks, BitVec.toNat_ofNat]
          ring
        case isFalse => exact hrule.elim

/-- At the last pixel of the last line the next pixel would start line 2^32 (R202). -/
theorem Bitplane.AtLastPixel.pixelCount_succ (h : e.AtLastPixel) :
    e.pixelCount + 1 = 2 ^ 32 * (8 * e.conf.bytesPerBlock.toNat * e.conf.blocksPerLine.toNat) := by
  obtain ⟨hbit, hbyte, hblock, hline⟩ := h
  simp only [Bitplane.pixelCount, hbit, hline, ← hbyte, ← hblock, BitVec.toNat_ofNat]
  ring

/-! ### The closed form is repeated steps (R202) -/

/-- The closed form fails with BPL_LINE_OVF only, when the line passes 2^32 − 1. -/
theorem Bitplane.advanceCursor_eq_error {x : Err} :
    e.advanceCursor n = .error x ↔
      2 ^ 32 ≤ (e.pixelCount + n) / (8 * e.conf.bytesPerBlock.toNat * e.conf.blocksPerLine.toNat) ∧
        x = ⟨.bplLineOvf, 0⟩ := by
  unfold Bitplane.advanceCursor
  dsimp only
  split
  case isTrue h => simpa [eq_comm] using fun _ => by omega
  case isFalse h => simpa using fun hover => by omega

/-- The count reached and the configuration decide the closed form. -/
theorem Bitplane.advanceCursor_congr {e' : Bitplane} {n' : Nat} (hconf : e'.conf = e.conf)
    (hcount : e'.pixelCount + n' = e.pixelCount + n) : e'.advanceCursor n' = e.advanceCursor n := by
  simp only [Bitplane.advanceCursor, hconf, hcount]

/-- Advancing by 0 leaves the cursor where it is. -/
theorem Bitplane.CursorOk.advanceCursor_zero (h : e.CursorOk) : e.advanceCursor 0 = .ok e.cur := by
  have hline := e.cur.lineIndex.isLt
  unfold Bitplane.advanceCursor
  dsimp only
  rw [add_zero, h.pixelCount_div_line, h.pixelCount_div_block, e.pixelCount_div_eight, e.pixelCount_mod_eight,
    if_neg (by omega), Nat.mul_add_mod_of_lt h.1, Nat.mul_add_mod_of_lt h.2]
  simp only [BitVec.ofNat_toNat, BitVec.setWidth_eq]

/-- Advancing by one more is advancing from the next cursor. -/
theorem Bitplane.CursorOk.advanceCursor_succ (h : e.CursorOk) (hstep : e.stepCursor = .ok c) :
    e.advanceCursor (n + 1) = (e.atCursor c).advanceCursor n :=
  Bitplane.advanceCursor_congr rfl (by rw [h.pixelCount_stepCursor hstep, add_assoc, add_comm 1])

/-- From the last pixel of the last line no advance succeeds. -/
theorem Bitplane.AtLastPixel.advanceCursor_succ (h : e.AtLastPixel) :
    e.advanceCursor (n + 1) = .error ⟨.bplLineOvf, 0⟩ := by
  have hblock : 0 < 8 * e.conf.bytesPerBlock.toNat * e.conf.blocksPerLine.toNat := by
    obtain ⟨-, hbyte, hblock, -⟩ := h
    rw [← hbyte, ← hblock]
    positivity
  refine Bitplane.advanceCursor_eq_error.2 ⟨(Nat.le_div_iff_mul_le hblock).2 ?_, rfl⟩
  have hcount := h.pixelCount_succ
  omega

/-- Settles O33: by induction on the number of steps, each of which passes one pixel or fails at the last. -/
theorem advanceIsRepeatedStep : Obligations.AdvanceIsRepeatedStep := by
  intro n
  induction n with
  | zero => exact fun e h => h.advanceCursor_zero
  | succ n ih =>
    intro e h
    unfold Bitplane.steps
    cases hstep : e.stepCursor with
    | ok c => rw [h.advanceCursor_succ hstep, ok_bind, ih _ (h.stepCursor hstep)]
    | error x =>
      obtain ⟨hlast, rfl⟩ := Bitplane.stepCursor_eq_error.1 hstep
      rw [hlast.advanceCursor_succ, error_bind]

end

/-! ### BPL.ADV (R210) -/

theorem exec_bplAdv (ra : Reg) (s : State) :
    exec (.bplAdv ra) s = commit s (do
      s.bpl.checkConfigured
      if (s.reg ra).toNat = 0 then .ok s
      else do
        let cur ← s.bpl.advanceCursor (s.reg ra).toNat
        .ok { s with bpl := { s.bpl with cacheValid := false, cur := cur } }) := rfl

/-- Settles O37: the configuration check, then a zero count or the closed form, which is the steps. -/
theorem bplAdvOutcome : Obligations.BplAdvOutcome := by
  intro ra s e n i
  have hexec := exec_bplAdv ra s
  refine ⟨fun hcfg => ?_, fun hcfg hzero => ?_, fun hcfg hcur hpos => ?_⟩
  · rw [Bitplane.checkConfigured, require_of_not (by rw [hcfg]; decide), error_bind] at hexec
    exact raises_of_exec_eq hexec (by decide)
  · rw [(Bitplane.checkConfigured_eq_ok (u := ())).2 hcfg, ok_bind, if_pos hzero] at hexec
    exact completes_of_exec_eq hexec ⟨rfl, fun _ _ => rfl, fun _ => rfl, rfl, rfl, rfl⟩ rfl
  · rw [(Bitplane.checkConfigured_eq_ok (u := ())).2 hcfg, ok_bind, if_neg hpos.ne'] at hexec
    rw [← advanceIsRepeatedStep n e hcur]
    refine ⟨fun x hx => ?_, fun c hc => ?_⟩
    · obtain ⟨-, rfl⟩ := Bitplane.advanceCursor_eq_error.1 hx
      rw [hx, error_bind] at hexec
      exact raises_of_exec_eq hexec (by decide)
    · rw [hc, ok_bind] at hexec
      exact completes_of_exec_eq hexec ⟨rfl, rfl, fun _ _ => rfl, fun _ => rfl, rfl, rfl, rfl⟩ rfl

end Sys2Proof.Machine

/-! ## BPL.WRITE, then BPL.READ -/

namespace Sys2Proof.Machine

/-- The bits of a word below `n`, summed at their places, are the word modulo `2^n`. -/
theorem sum_bits_eq_mod (x : Word) (n : Nat) :
    ((List.range n).map fun k => if x.getLsbD k then 2 ^ k else 0).sum = x.toNat % 2 ^ n := by
  induction n with
  | zero => simp [Nat.mod_one]
  | succ n ih =>
    have hbit : (if x.getLsbD n then 2 ^ n else 0) = 2 ^ n * (x.toNat / 2 ^ n % 2) := by
      rw [← Nat.toNat_testBit, BitVec.testBit_toNat]
      cases x.getLsbD n <;> simp
    rw [List.range_succ, List.map_append, List.sum_append, ih, Nat.mod_pow_succ, List.map_singleton,
      List.sum_singleton, hbit]

/-- A pixel whose plane bits are the bits of a word is that word's low `planes` bits (R67, R208). -/
theorem pixelAt_eq_mod {e : Bitplane} {m : Memory} {x : Word}
    (h : ∀ k < e.planes, (m.read (e.address k)).getLsbD (7 - e.cur.bitIndex.toNat) = x.getLsbD k) :
    pixelAt e m = x.toNat % 2 ^ e.planes := by
  rw [← sum_bits_eq_mod, pixelAt]
  refine congrArg List.sum (List.map_congr_left fun k hk => ?_)
  rw [h k (List.mem_range.1 hk)]

/-- Settles O38: the write leaves each plane's bit as the index has it, and the read, whose cache is invalid, decodes
these bits. -/
theorem writeThenReadPixel : Obligations.WriteThenReadPixel := by
  intro ra rd s t hcfg hplanes hlast hin hdistinct hzero hrd ht
  obtain ⟨-, -, hwrite⟩ := bplWriteOutcome ra s
  obtain ⟨t', ht', -, hbits, -, hvalid, -, hcfg', hconf', -⟩ := (hwrite hcfg hin).2 hlast
  obtain rfl : t = t' := by simpa using ht.symm.trans ht'
  have hengine : t.bpl.atCursor s.bpl.cur = { s.bpl with cacheValid := false, cache := t.bpl.cache } := by
    rw [Bitplane.atCursor, hcfg', hconf', hvalid]
  have hstored (k : Nat) (hk : k < s.bpl.planes) :
      (t.mem.read (s.bpl.address k)).getLsbD (7 - s.bpl.cur.bitIndex.toNat) = (s.reg ra).getLsbD k := by
    have honly (j : Nat) (hj : j < s.bpl.planes) (hjk : s.bpl.address k = s.bpl.address j) : k = j := by
      rcases lt_trichotomy k j with hlt | heq | hgt
      · exact absurd hjk (hdistinct k j hlt hj)
      · exact heq
      · exact absurd hjk.symm (hdistinct j k hgt hk)
    rw [Bool.eq_iff_iff, hbits _ _ (by omega), hzero k hk]
    constructor
    · rintro (h | ⟨-, j, hj, hjk, hbit⟩)
      · cases h
      · rwa [honly j hj hjk]
    · exact fun hbit => .inr ⟨rfl, k, hk, rfl, hbit⟩
  rw [hengine]
  obtain ⟨-, -, hread⟩ := bplReadOutcome rd
    { t with bpl := { s.bpl with cacheValid := false, cache := t.bpl.cache } }
  refine ((hread hcfg fun _ => hin).2 hlast hplanes).imp fun u ⟨hvalue, _⟩ => ?_
  rw [hvalue, if_neg hrd, if_pos (.inr rfl)]
  exact pixelAt_eq_mod hstored

end Sys2Proof.Machine

/-! ## The configuration of the engine, and where the presets' pixels lie -/

namespace Sys2Proof.Machine

/-! ### Configuration (R203, R204) -/

/-- The geometries that R204 refuses. -/
abbrev BadGeometry (bpb bstride bpln lstride planes pstride : Nat) : Prop :=
  planes < 1 ∨ 8 < planes ∨ bpb = 0 ∨ bpln = 0 ∨ 2 ^ 32 ≤ bpb ∨ 2 ^ 32 ≤ bstride ∨ 2 ^ 32 ≤ bpln ∨
    2 ^ 32 ≤ lstride ∨ 2 ^ 32 ≤ pstride

section
variable {i : Instr} {s t : State} {base len : Word} {bpb bstride bpln lstride planes pstride width unit : Nat}

/-- A configuration fails on its geometry, and then on its window (R204). -/
theorem State.configure_eq_error {x : Err}
    (h : s.configure base len bpb bstride bpln lstride planes pstride = .error x) :
    (BadGeometry bpb bstride bpln lstride planes pstride ∧ x = ⟨.badGeometry, 0⟩) ∨
    (¬ BadGeometry bpb bstride bpln lstride planes pstride ∧ s.memSize < base.toNat + len.toNat ∧
      x = ⟨.window, base.toNat⟩) := by
  unfold State.configure at h
  rcases bind_eq_error.1 h with h | ⟨_, hplanes, h⟩
  · obtain ⟨hbad, rfl⟩ := require_eq_error.1 h
    exact .inl ⟨by omega, rfl⟩
  rcases bind_eq_error.1 h with h | ⟨_, hnonzero, h⟩
  · obtain ⟨hbad, rfl⟩ := require_eq_error.1 h
    exact .inl ⟨by omega, rfl⟩
  rcases bind_eq_error.1 h with h | ⟨_, hwords, h⟩
  · obtain ⟨hbad, rfl⟩ := require_eq_error.1 h
    exact .inl ⟨by omega, rfl⟩
  rcases bind_eq_error.1 h with h | ⟨_, -, h⟩
  · obtain ⟨hbad, rfl⟩ := require_eq_error.1 h
    rw [require_eq_ok] at hplanes hnonzero hwords
    exact .inr ⟨by omega, by omega, rfl⟩
  · cases h

/-- An instruction whose pseudocode is `configure` configures as R204 says. -/
theorem configuresAs_of_exec_eq
    (hexec : exec i s = commit s (s.configure base len bpb bstride bpln lstride planes pstride)) :
    ConfiguresAs i s base len bpb bstride bpln lstride planes pstride := by
  have toNat_word {x : Nat} (hx : x < 2 ^ 32) : (BitVec.ofNat 32 x).toNat = x := Nat.mod_eq_of_lt hx
  unfold ConfiguresAs
  cases hconf : s.configure base len bpb bstride bpln lstride planes pstride with
  | error x =>
    rw [hconf] at hexec
    rcases State.configure_eq_error hconf with ⟨hbad, rfl⟩ | ⟨hgood, hwin, rfl⟩
    · rw [if_pos hbad]
      exact raises_of_exec_eq hexec (by decide)
    · rw [if_neg hgood, if_pos hwin]
      exact raises_of_exec_eq hexec (by decide)
  | ok u =>
    rw [hconf] at hexec
    obtain ⟨hplanes, hnonzero, ⟨hbpb, hbstride, hbpln, hlstride, hpstride⟩, hwin, rfl⟩ := State.configure_eq_ok hconf
    rw [if_neg (by omega), if_neg (by omega)]
    exact completes_of_exec_eq hexec ⟨rfl, rfl, rfl, toNat_word hbpb, toNat_word hbstride, toNat_word hbpln,
      toNat_word hlstride, toNat_word (by omega), toNat_word hpstride, rfl, rfl, fun _ => rfl, rfl⟩ rfl

/-- Settles O30: BPL.RAW is `configure` of the eight registers. -/
theorem bplRawConfigures : Obligations.BplRawConfigures := by
  intro ra s _ x
  have hreg (j : Nat) : s.reg (ra + BitVec.ofNat 4 j) = x j := by
    simp only [x, BitVec.ofNat_add, BitVec.ofNat_toNat, BitVec.setWidth_eq]
  refine configuresAs_of_exec_eq ?_
  simp only [← hreg]
  rfl

/-! ### The three presets (R205 to R207) -/

/-- The operands that a preset refuses. -/
abbrev BadPreset (planes width unit : Nat) : Prop := planes < 1 ∨ 8 < planes ∨ width = 0 ∨ width % unit ≠ 0

theorem checkPreset_of_bad (h : BadPreset planes width unit) :
    checkPreset planes width unit = .error ⟨.badGeometry, 0⟩ := by
  unfold checkPreset
  by_cases hplanes : 1 ≤ planes ∧ planes ≤ 8
  · rw [require_of hplanes, ok_bind, require_of_not (by omega)]
  · rw [require_of_not hplanes, error_bind]

theorem raises_of_badPreset {r : Except Err State} (hexec : exec i s = commit s (do checkPreset planes width unit; r))
    (h : BadPreset planes width unit) : Raises i s 0x0703#32 0 := by
  rw [checkPreset_of_bad h, error_bind] at hexec
  exact raises_of_exec_eq hexec (by decide)

theorem configuresAs_of_not_badPreset
    (hexec : exec i s = commit s (do
      checkPreset planes width unit
      s.configure base len bpb bstride bpln lstride planes pstride))
    (h : ¬ BadPreset planes width unit) : ConfiguresAs i s base len bpb bstride bpln lstride planes pstride := by
  rw [(checkPreset_eq_ok (u := ())).2 (by omega), ok_bind] at hexec
  exact configuresAs_of_exec_eq hexec

/-- Settles O31: each preset is its operand check and then `configure` of its row of the table. -/
theorem presetsConfigure : Obligations.PresetsConfigure := by
  intro ra rb rc rd re s base len planes width S B
  have hcontig : exec (.bplContig ra rb rc rd re) s = commit s (do
      checkPreset planes width 8
      s.configure base len S 0 1 0 planes S) := rfl
  have hline : exec (.bplLine ra rb rc rd) s = commit s (do
      checkPreset planes width 16
      s.configure base len B 0 1 (B * planes) planes B) := rfl
  have hword : exec (.bplWord ra rb rc rd) s = commit s (do
      checkPreset planes width 16
      s.configure base len 2 (planes * 2) 2 (planes * 4) planes 2) := rfl
  constructor
  · split
    case isTrue hbad => exact raises_of_badPreset hcontig hbad
    case isFalse hgood => exact configuresAs_of_not_badPreset hcontig hgood
  · split
    case isTrue hbad => exact ⟨raises_of_badPreset hline hbad, raises_of_badPreset hword hbad⟩
    case isFalse hgood => exact ⟨configuresAs_of_not_badPreset hline hgood, configuresAs_of_not_badPreset hword hgood⟩

/-! ### Where a pixel lies after a configuration (R200, R202) -/

/-- The engine right after a configuration: non-empty blocks and lines, the strides, the cursor at zero (R204). -/
structure Bitplane.FreshlyConfigured (e : Bitplane) (bpb bstride bpln lstride pstride : Nat) : Prop where
  bpb_pos : 0 < bpb
  bpln_pos : 0 < bpln
  bytesPerBlock : e.conf.bytesPerBlock.toNat = bpb
  blockStride : e.conf.blockStride.toNat = bstride
  blocksPerLine : e.conf.blocksPerLine.toNat = bpln
  lineStride : e.conf.lineStride.toNat = lstride
  planeStride : e.conf.planeStride.toNat = pstride
  cursor : e.cur = ⟨0#32, 0#32, 0#32, 0#3⟩

/-- A raised error is not a state that runs on. -/
theorem Raises.halt {code : Word} {val : Nat} (h : Raises i s code val) (hexec : exec i s = .next t) :
    t.halt = true := by
  obtain rfl := Host.Outcome.next.inj (h.symm.trans hexec)
  rfl

theorem ConfiguresAs.freshlyConfigured (h : ConfiguresAs i s base len bpb bstride bpln lstride planes pstride)
    (hexec : exec i s = .next t) (hhalt : t.halt = false) :
    t.bpl.FreshlyConfigured bpb bstride bpln lstride pstride := by
  have hruns {code : Word} {val : Nat} (hraises : Raises i s code val) : False := by
    simp [hraises.halt hexec] at hhalt
  unfold ConfiguresAs at h
  split at h
  case isTrue => exact (hruns h).elim
  case isFalse hgood =>
    split at h
    case isTrue => exact (hruns h).elim
    case isFalse =>
      obtain ⟨t', ht', -, -, -, -, hbpb, hbstride, hbpln, hlstride, -, hpstride, hcur, -⟩ := h
      obtain rfl := Host.Outcome.next.inj (ht'.symm.trans hexec)
      exact ⟨by omega, by omega, hbpb, hbstride, hbpln, hlstride, hpstride, hcur⟩

/-- The offset and the bit that a freshly configured engine reaches after `n` pixels. -/
theorem Bitplane.FreshlyConfigured.offset_advanceCursor {e : Bitplane} {c : Cursor} {n : Nat}
    (he : e.FreshlyConfigured bpb bstride bpln lstride pstride) (hadv : e.advanceCursor n = .ok c) (k : Nat) :
    (e.atCursor c).offset k =
        n / 8 % bpb + n / (8 * bpb) % bpln * bstride + n / (8 * bpb * bpln) * lstride + k * pstride ∧
      c.bitIndex.toNat = n % 8 := by
  obtain ⟨hbpb, hbpln, rfl, rfl, rfl, rfl, rfl, hcur⟩ := he
  have hcount : e.pixelCount + n = n := by simp [Bitplane.pixelCount, hcur]
  have toNat_mod_word (x : Nat) {b : Word} (hb : 0 < b.toNat) : (BitVec.ofNat 32 (x % b.toNat)).toNat = x % b.toNat :=
    Nat.mod_eq_of_lt ((Nat.mod_lt _ hb).trans b.isLt)
  unfold Bitplane.advanceCursor at hadv
  dsimp only at hadv
  rw [hcount] at hadv
  split at hadv
  · cases hadv
  case isFalse hline =>
    cases hadv
    refine ⟨?_, Nat.mod_eq_of_lt (Nat.mod_lt _ (by decide))⟩
    simp only [Bitplane.offset, Bitplane.atCursor, toNat_mod_word _ hbpb, toNat_mod_word _ hbpln, BitVec.toNat_ofNat]
    rw [Nat.mod_eq_of_lt
      (show n / (8 * e.conf.bytesPerBlock.toNat * e.conf.blocksPerLine.toNat) < 2 ^ 32 by omega)]

end

/-! ### The general offset, for the row of each preset -/

/-- One block, one line: the walk of a plane is linear (R205). -/
theorem offset_contig {n S : Nat} (h : n < 8 * S) (k : Nat) :
    n / 8 % S + n / (8 * S) % 1 * 0 + n / (8 * S * 1) * 0 + k * S = k * S + n / 8 := by
  rw [Nat.mod_eq_of_lt (show n / 8 < S by omega)]
  ring

/-- One block to a line: the lines are those of the image (R206). -/
theorem offset_line {width : Nat} (h : width % 8 = 0) (n planes k : Nat) :
    n / 8 % (width / 8) + n / (8 * (width / 8)) % 1 * 0 + n / (8 * (width / 8) * 1) * (width / 8 * planes) +
        k * (width / 8) =
      n / width * (width / 8 * planes) + k * (width / 8) + n % width / 8 := by
  have hwidth : 8 * (width / 8) = width := by omega
  rw [mul_one, ← Nat.mod_mul_right_div_self, hwidth]
  ring

/-- Two blocks of 16 pixels to a line, the line twice the stride of a block: the walk is linear (R207). -/
theorem offset_word (n planes k : Nat) :
    n / 8 % 2 + n / (8 * 2) % 2 * (planes * 2) + n / (8 * 2 * 2) * (planes * 4) + k * 2 =
      n / 16 * (2 * planes) + 2 * k + n / 8 % 2 := by
  have hgroups : n / 16 = n / 32 * 2 + n / 16 % 2 := by omega
  calc n / 8 % 2 + n / 16 % 2 * (planes * 2) + n / 32 * (planes * 4) + k * 2
      = (n / 32 * 2 + n / 16 % 2) * (2 * planes) + 2 * k + n / 8 % 2 := by ring
    _ = n / 16 * (2 * planes) + 2 * k + n / 8 % 2 := by rw [← hgroups]

/-- Settles O32: the preset has configured the engine, and its row goes into the general offset and bit. -/
theorem presetAddressing : Obligations.PresetAddressing := by
  intro ra rb rc rd re s t n c k hhalt hadv planes width S off
  have hruns {i : Instr} (hexec : exec i s = .next t) : ¬ Raises i s 0x0703#32 0 :=
    fun hraises => by simp [hraises.halt hexec] at hhalt
  obtain ⟨hcontig, hrest⟩ := presetsConfigure ra rb rc rd re s
  refine ⟨fun hexec hn => ?_, fun hexec => ?_, fun hexec => ?_⟩
  · split at hcontig
    case isTrue => exact (hruns hexec hcontig).elim
    case isFalse =>
      obtain ⟨hoff, hbit⟩ := (hcontig.freshlyConfigured hexec hhalt).offset_advanceCursor hadv k
      exact ⟨hoff.trans (offset_contig hn k), hbit⟩
  · split at hrest
    case isTrue => exact (hruns hexec hrest.1).elim
    case isFalse hgood =>
      have hwidth : width % 8 = 0 := by omega
      obtain ⟨hoff, hbit⟩ := (hrest.1.freshlyConfigured hexec hhalt).offset_advanceCursor hadv k
      exact ⟨hoff.trans (offset_line hwidth n planes k),
        hbit.trans (Nat.mod_mod_of_dvd n (Nat.dvd_of_mod_eq_zero hwidth)).symm⟩
  · split at hrest
    case isTrue => exact (hruns hexec hrest.2).elim
    case isFalse =>
      obtain ⟨hoff, hbit⟩ := (hrest.2.freshlyConfigured hexec hhalt).offset_advanceCursor hadv k
      exact ⟨hoff.trans (offset_word n planes k), hbit⟩

end Sys2Proof.Machine

/-! ## The packbits codec: decoding and encoding token by token, and the round trip -/

namespace Sys2Proof.Machine

/-! ### The rest of a decode (R241) -/

section
variable {C v : Byte} {S rest : List Byte} {N : Nat}

theorem afterBytes_nil_bind (k : Nat) (pre : List Byte) (r : Except Err (List Byte)) :
    (afterBytes k [] r >>= fun out => .ok (pre ++ out)) = afterBytes k [] (r >>= fun out => .ok (pre ++ out)) := by
  cases r <;> rfl

/-- A token's bytes put before the rest of a decode whose error counts already include them. -/
theorem afterBytes_bind (k : Nat) (pre : List Byte) (r : Except Err (List Byte)) :
    (afterBytes k [] r >>= fun out => .ok (pre ++ out)) = afterBytes k pre r := by
  cases r <;> rfl

/-- Only the missing bytes decide how a decode goes on; the bytes made so far are counted in its error. -/
theorem unpackFrom_add (fuel : Nat) (src : List Byte) (N m k : Nat) :
    unpackFrom fuel src (k + N) (k + m) = afterBytes k [] (unpackFrom fuel src N m) := by
  induction fuel generalizing src m with
  | zero => rfl
  | succ fuel ih =>
    rw [unpackFrom.eq_def, unpackFrom.eq_def (fuel + 1)]
    simp only [Nat.add_assoc, Nat.add_le_add_iff_left, Nat.add_lt_add_iff_left, ih, afterBytes_nil_bind]
    split
    · rfl
    · cases src with
      | nil => rfl
      | cons C rest =>
        dsimp only
        split
        · rfl
        · split
          · cases rest with
            | nil => rfl
            | cons v rest => dsimp only; split <;> rfl
          · split
            · rfl
            · split <;> rfl

/-- The decode after `m` bytes, with fuel enough, is a decode of its own. -/
theorem unpackFrom_eq_unpack {fuel m : Nat} (hfuel : S.length < fuel) (hm : m ≤ N) :
    unpackFrom fuel S N m = afterBytes m [] (unpack S (N - m)) := by
  rw [unpack, unpackFrom_fuel (Nat.lt_succ_self _) hfuel, ← unpackFrom_add, Nat.add_sub_cancel' hm, Nat.add_zero]

/-! ### Decoding one token (R240, R241) -/

theorem toInt_of_runControl (h : 0x81 ≤ C.toNat) : C.toInt = C.toNat - 256 := by
  rw [BitVec.toInt_eq_toNat_cond, if_neg (by omega)]
  rfl

theorem toInt_of_literalControl (h : C.toNat ≤ 0x7F) : C.toInt = C.toNat := by
  rw [BitVec.toInt_eq_toNat_cond, if_pos (by omega)]

theorem unpack_zero (S : List Byte) : unpack S 0 = .ok [] := rfl

theorem unpack_nil (hN : 0 < N) : unpack [] N = .error ⟨.srcUnderflow, 0⟩ := by
  rw [unpack, unpackFrom.eq_def]
  exact if_neg (not_le.2 hN)

/-- The control byte 0x80 makes nothing (R240). -/
theorem unpack_noop (hN : 0 < N) : unpack (0x80#8 :: S) N = unpack S N := by
  rw [unpack, unpackFrom.eq_def]
  dsimp only
  rw [if_neg (not_le.2 hN), if_pos (by decide)]
  exact unpackFrom_fuel (by simp) (by simp)

theorem unpack_runControl_nil (hN : 0 < N) (hC : 0x81 ≤ C.toNat) : unpack [C] N = .error ⟨.srcUnderflow, 0⟩ := by
  have hc := toInt_of_runControl hC
  rw [unpack, unpackFrom.eq_def]
  dsimp only
  rw [if_neg (not_le.2 hN), if_neg (by omega), if_pos (by omega)]

/-- A run token: it must fit, and its byte comes `257 − C` times (R240). -/
theorem unpack_runControl (hN : 0 < N) (hC : 0x81 ≤ C.toNat) :
    unpack (C :: v :: rest) N =
      if N < 257 - C.toNat then .error ⟨.dstOverrun, 0⟩
      else afterBytes (257 - C.toNat) (List.replicate (257 - C.toNat) v) (unpack rest (N - (257 - C.toNat))) := by
  have hc := toInt_of_runControl hC
  have hcount : (1 - C.toInt).toNat = 257 - C.toNat := by omega
  rw [unpack, unpackFrom.eq_def]
  dsimp only
  rw [if_neg (not_le.2 hN), if_neg (by omega), if_pos (by omega), hcount, Nat.zero_add]
  split
  case isTrue => rfl
  case isFalse hfits =>
    rw [unpackFrom_eq_unpack (by simp) (not_lt.1 hfits), afterBytes_bind]

/-- A literal token: its `C + 1` bytes must be there, then they must fit (R240). -/
theorem unpack_literalControl (hN : 0 < N) (hC : C.toNat ≤ 0x7F) :
    unpack (C :: S) N =
      if S.length < C.toNat + 1 then .error ⟨.srcUnderflow, 0⟩
      else if N < C.toNat + 1 then .error ⟨.dstOverrun, 0⟩
      else afterBytes (C.toNat + 1) (S.take (C.toNat + 1)) (unpack (S.drop (C.toNat + 1)) (N - (C.toNat + 1))) := by
  have hc := toInt_of_literalControl hC
  have hcount : (1 + C.toInt).toNat = C.toNat + 1 := by omega
  rw [unpack, unpackFrom.eq_def]
  dsimp only
  rw [if_neg (not_le.2 hN), if_neg (by omega), if_neg (by omega), hcount, Nat.zero_add]
  split
  case isTrue => rfl
  case isFalse =>
    split
    case isTrue => rfl
    case isFalse hfits =>
      rw [unpackFrom_eq_unpack (by simp only [List.length_drop, List.length_cons]; omega) (not_lt.1 hfits),
        afterBytes_bind]

end

/-- Settles O41: the equation of each kind of token, its checks decided. -/
theorem unpackTokens : Obligations.UnpackTokens := by
  refine ⟨unpack_zero, fun N hN => unpack_nil hN, fun S N hN => unpack_noop hN, ?_, ?_⟩
  · intro C S N hN hC n
    refine ⟨?_, ?_, ?_⟩
    · rintro rfl
      exact unpack_runControl_nil hN hC
    · rintro v rest rfl hover
      rw [unpack_runControl hN hC, if_pos hover]
    · rintro v rest rfl hfits
      rw [unpack_runControl hN hC, if_neg (not_lt.2 hfits)]
  · intro C S N hN hC n
    rw [unpack_literalControl hN hC]
    refine ⟨fun hshort => if_pos hshort, fun hthere hover => ?_, fun hthere hfits => ?_⟩
    · rw [if_neg (not_lt.2 hthere), if_pos hover]
    · rw [if_neg (not_lt.2 hthere), if_neg (not_lt.2 hfits)]

/-! ### Encoding one token (R244) -/

section
variable {b c : Byte} {cap n : Nat} {lit rest : List Byte}

theorem pack_nil : pack [] = [] := rfl

theorem pack_cons_self (b : Byte) (rest : List Byte) :
    pack (b :: b :: rest) = BitVec.ofInt 8 (1 - (runLength b 126 rest + 2 : Nat)) :: b ::
      pack (rest.drop (runLength b 126 rest)) := by
  rw [pack, List.length_cons, packFrom, if_pos rfl]
  dsimp only
  congr 2
  refine packFrom_fuel (S := rest.drop (runLength b 126 rest)) ?_ le_rfl
  simp only [List.length_drop, List.length_cons]
  omega

theorem pack_cons_of_ne (h : b ≠ c) (rest : List Byte) :
    pack (b :: c :: rest) = BitVec.ofNat 8 (spanLength 127 (c :: rest)) ::
      (b :: (c :: rest).take (spanLength 127 (c :: rest)) ++ pack ((c :: rest).drop (spanLength 127 (c :: rest)))) := by
  rw [pack, List.length_cons, packFrom, if_neg h]
  dsimp only
  congr 2
  refine packFrom_fuel (S := (c :: rest).drop (spanLength 127 (c :: rest))) ?_ le_rfl
  simp only [List.length_drop]
  omega

/-- A run goes on over equal bytes up to its cap. -/
theorem runLength_replicate_append (hn : n ≤ cap) (hend : n = cap ∨ rest.head? ≠ some b) :
    runLength b cap (List.replicate n b ++ rest) = n := by
  induction n generalizing cap with
  | zero =>
    match cap, rest with
    | 0, _ => rfl
    | _ + 1, [] => rfl
    | cap + 1, c :: rest =>
      have hne : c ≠ b := by simpa using hend
      exact if_neg hne
  | succ n ih =>
    obtain ⟨cap, rfl⟩ : ∃ k, cap = k + 1 := Nat.exists_eq_add_of_le' (by omega)
    rw [List.replicate_succ, List.cons_append, runLength, if_pos rfl, ih (by omega) (by simpa using hend)]

/-- Where a literal span of at most `cap` bytes ends: at the cap, with the input, or before a pair of equal bytes. -/
def LiteralEnds (cap : Nat) (lit rest : List Byte) : Prop :=
  lit.length = cap ∨ rest = [] ∨ ∃ b tail, rest = b :: b :: tail

theorem noEqualNeighbours_iff_isChain (l : List Byte) : NoEqualNeighbours l ↔ l.IsChain (· ≠ ·) := by
  rw [List.isChain_iff_getElem]
  refine forall_congr' fun i => ⟨fun h hi => ?_, fun h hi => ?_⟩
  · simpa [List.getElem?_eq_getElem hi, List.getElem?_eq_getElem (Nat.lt_of_succ_lt hi)] using h (by omega)
  · have hi : i + 1 < l.length := by omega
    simpa [List.getElem?_eq_getElem hi, List.getElem?_eq_getElem (Nat.lt_of_succ_lt hi)] using h hi

theorem noEqualNeighbours_take_one (l : List Byte) : NoEqualNeighbours (l.take 1) := by
  intro i hi
  rw [List.length_take] at hi
  omega

theorem literalEnds_cons : LiteralEnds (cap + 1) (b :: lit) rest ↔ LiteralEnds cap lit rest := by
  simp [LiteralEnds]

/-- The byte that follows a literal's first byte, inside the span or after it. -/
theorem noEqualNeighbours_cons :
    NoEqualNeighbours (b :: (lit ++ rest.take 1)) ↔
      (lit ++ rest).head? ≠ some b ∧ NoEqualNeighbours (lit ++ rest.take 1) := by
  rw [noEqualNeighbours_iff_isChain, noEqualNeighbours_iff_isChain]
  cases lit <;> cases rest <;> simp [eq_comm]

/-- An input that begins with a literal span does not begin with a pair of equal bytes. -/
theorem literal_append_ne_pair (hlit : lit ≠ []) (hdistinct : NoEqualNeighbours (lit ++ rest.take 1)) (b : Byte)
    (tail : List Byte) : lit ++ rest ≠ b :: b :: tail := by
  cases lit with
  | nil => contradiction
  | cons c lit =>
    obtain ⟨hne, -⟩ := noEqualNeighbours_cons.1 hdistinct
    intro hpair
    obtain ⟨rfl, hrest⟩ := List.cons_eq_cons.1 hpair
    exact hne (congrArg List.head? hrest)

/-- A literal span goes on over unequal bytes up to its end. -/
theorem spanLength_append (hcap : lit.length ≤ cap) (hdistinct : NoEqualNeighbours (lit ++ rest.take 1))
    (hend : LiteralEnds cap lit rest) : spanLength cap (lit ++ rest) = lit.length := by
  induction lit generalizing cap with
  | nil =>
    rcases hend with rfl | rfl | ⟨b, tail, rfl⟩
    · rfl
    · cases cap <;> rfl
    · cases cap with
      | zero => rfl
      | succ cap => exact if_pos rfl
  | cons b lit ih =>
    obtain ⟨cap, rfl⟩ : ∃ k, cap = k + 1 := Nat.exists_eq_add_of_le' (Nat.one_le_of_lt hcap)
    obtain ⟨hne, hdistinct⟩ := noEqualNeighbours_cons.1 hdistinct
    have hspan := ih (by simpa using hcap) hdistinct (literalEnds_cons.1 hend)
    rw [List.cons_append]
    generalize hrest : lit ++ rest = l at hne hspan
    cases l with
    | nil =>
      obtain ⟨rfl, -⟩ := List.append_eq_nil_iff.1 hrest
      rfl
    | cons d l =>
      rw [spanLength, if_neg (by simpa [eq_comm] using hne), hspan, List.length_cons]

/-- The control byte of a run of `n` bytes. -/
theorem runControl_eq (h2 : 2 ≤ n) (h128 : n ≤ 128) : BitVec.ofInt 8 (1 - (n : Int)) = BitVec.ofNat 8 (257 - n) := by
  refine BitVec.eq_of_toNat_eq ?_
  rw [BitVec.toNat_ofInt, BitVec.toNat_ofNat]
  omega

/-- A run token: the run is maximal, or it has 128 bytes. -/
theorem pack_run (h2 : 2 ≤ n) (h128 : n ≤ 128) (hend : n = 128 ∨ rest.head? ≠ some b) :
    pack (List.replicate n b ++ rest) = BitVec.ofNat 8 (257 - n) :: b :: pack rest := by
  obtain ⟨k, rfl⟩ : ∃ k, n = k + 2 := Nat.exists_eq_add_of_le' h2
  have hrun : runLength b 126 (List.replicate k b ++ rest) = k :=
    runLength_replicate_append (by omega) (by simpa using hend)
  rw [List.replicate_succ, List.replicate_succ, List.cons_append, List.cons_append, pack_cons_self, hrun,
    runControl_eq h2 h128, List.drop_left' List.length_replicate]

/-- A literal token: the span takes in no pair of equal bytes, and it is maximal. -/
theorem pack_literal (h1 : lit ≠ []) (h128 : lit.length ≤ 128) (hdistinct : NoEqualNeighbours (lit ++ rest.take 1))
    (hend : LiteralEnds 128 lit rest) :
    pack (lit ++ rest) = BitVec.ofNat 8 (lit.length - 1) :: (lit ++ pack rest) := by
  cases lit with
  | nil => contradiction
  | cons b lit =>
    obtain ⟨hne, hdistinct⟩ := noEqualNeighbours_cons.1 hdistinct
    have hspan := spanLength_append (Nat.le_of_succ_le_succ h128) hdistinct (literalEnds_cons.1 hend)
    rw [List.cons_append, List.length_cons, Nat.add_sub_cancel]
    generalize hl : lit ++ rest = l at hne hspan
    cases l with
    | nil =>
      obtain ⟨rfl, rfl⟩ := List.append_eq_nil_iff.1 hl
      rfl
    | cons d l =>
      rw [pack_cons_of_ne (by simpa [eq_comm] using hne), hspan, ← hl, List.take_left, List.drop_left,
        List.cons_append]

end

/-- Settles O42: the empty input, then a run and a literal span as the encoder cuts them off. -/
theorem packTokens : Obligations.PackTokens :=
  ⟨pack_nil, fun _ => rfl, fun _ _ _ h2 h128 hend => pack_run h2 h128 hend, fun _ _ h1 h128 hne hend =>
    pack_literal (List.length_pos_iff.1 h1) h128 hne hend⟩

/-! ### Every input is a sequence of tokens -/

theorem exists_run (b : Byte) (cap : Nat) (l : List Byte) :
    ∃ n rest, l = List.replicate n b ++ rest ∧ n ≤ cap ∧ (n = cap ∨ rest.head? ≠ some b) := by
  induction cap generalizing l with
  | zero => exact ⟨0, l, rfl, le_rfl, .inl rfl⟩
  | succ cap ih =>
    cases l with
    | nil => exact ⟨0, [], rfl, by simp, .inr nofun⟩
    | cons c l =>
      by_cases hc : c = b
      · obtain ⟨n, rest, rfl, hn, hend⟩ := ih l
        exact ⟨n + 1, rest, by rw [hc, List.replicate_succ, List.cons_append], by omega, by simpa using hend⟩
      · exact ⟨0, c :: l, rfl, by simp, .inr (by simpa using hc)⟩

theorem exists_literal (cap : Nat) (l : List Byte) :
    ∃ lit rest, l = lit ++ rest ∧ lit.length ≤ cap ∧ NoEqualNeighbours (lit ++ rest.take 1) ∧
      LiteralEnds cap lit rest := by
  induction cap generalizing l with
  | zero => exact ⟨[], l, rfl, le_rfl, noEqualNeighbours_take_one l, .inl rfl⟩
  | succ cap ih =>
    cases l with
    | nil => exact ⟨[], [], rfl, by simp, noEqualNeighbours_take_one [], .inr (.inl rfl)⟩
    | cons b l =>
      by_cases hb : l.head? = some b
      · obtain ⟨tail, rfl⟩ := List.head?_eq_some_iff.1 hb
        exact ⟨[], b :: b :: tail, rfl, by simp, noEqualNeighbours_take_one _, .inr (.inr ⟨b, tail, rfl⟩)⟩
      · obtain ⟨lit, rest, rfl, hcap, hdistinct, hend⟩ := ih l
        exact ⟨b :: lit, rest, rfl, by simpa using hcap, noEqualNeighbours_cons.2 ⟨hb, hdistinct⟩,
          literalEnds_cons.2 hend⟩

/-- An induction along the tokens of an encoding. -/
theorem pack_induction {P : List Byte → Prop} (nil : P [])
    (run : ∀ (b : Byte) (n : Nat) (rest : List Byte), 2 ≤ n → n ≤ 128 →
      pack (List.replicate n b ++ rest) = BitVec.ofNat 8 (257 - n) :: b :: pack rest → P rest →
      P (List.replicate n b ++ rest))
    (literal : ∀ lit rest : List Byte, lit ≠ [] → lit.length ≤ 128 → NoEqualNeighbours (lit ++ rest.take 1) →
      LiteralEnds 128 lit rest → pack (lit ++ rest) = BitVec.ofNat 8 (lit.length - 1) :: (lit ++ pack rest) → P rest →
      P (lit ++ rest))
    (S : List Byte) : P S := by
  induction hS : S.length using Nat.strong_induction_on generalizing S with
  | _ length ih =>
    obtain ⟨lit, rest, rfl, h128, hdistinct, hend⟩ := exists_literal 128 S
    rw [List.length_append] at hS
    by_cases hlit : lit = []
    · subst hlit
      rcases hend with hcap | rfl | ⟨b, tail, rfl⟩
      · contradiction
      · exact nil
      · obtain ⟨n, rest, rfl, hn, hend⟩ := exists_run b 126 tail
        simp only [List.length_cons, List.length_append] at hS
        exact run b (n + 2) rest (by omega) (by omega) (pack_run (by omega) (by omega) (by simpa using hend))
          (ih _ (by omega) rest rfl)
    · have hpos := List.length_pos_iff.2 hlit
      exact literal lit rest hlit h128 hdistinct hend (pack_literal hlit h128 hdistinct hend) (ih _ (by omega) rest rfl)

/-- Settles O43: each token decodes to the bytes it was made of. -/
theorem unpackOfPack : Obligations.UnpackOfPack := by
  intro S
  induction S using pack_induction with
  | nil => rfl
  | run b n rest h2 h128 hpack ih =>
    have hC : (BitVec.ofNat 8 (257 - n)).toNat = 257 - n := by rw [BitVec.toNat_ofNat]; omega
    have hn : 257 - (257 - n) = n := by omega
    rw [hpack, List.length_append, List.length_replicate, unpack_runControl (by omega) (by omega), hC, hn,
      if_neg (by omega), Nat.add_sub_cancel_left, ih]
    rfl
  | literal lit rest hlit h128 _ _ hpack ih =>
    have hpos := List.length_pos_iff.2 hlit
    have hC : (BitVec.ofNat 8 (lit.length - 1)).toNat = lit.length - 1 := by rw [BitVec.toNat_ofNat]; omega
    have hn : lit.length - 1 + 1 = lit.length := by omega
    rw [hpack, List.length_append, unpack_literalControl (by omega) (by omega), hC, hn,
      if_neg (by simp), if_neg (by omega), Nat.add_sub_cancel_left, List.take_left, List.drop_left, ih]
    rfl

/-! ### The size of an encoding (R245) -/

/-- No token takes more than twice its bytes: the worst is a literal of one byte. -/
theorem length_pack_le_double (S : List Byte) : (pack S).length ≤ 2 * S.length := by
  induction S using pack_induction with
  | nil => simp [pack_nil]
  | run b n rest h2 _ hpack ih =>
    simp only [hpack, List.length_cons, List.length_append, List.length_replicate]
    omega
  | literal lit rest hlit _ _ _ hpack ih =>
    have hpos := List.length_pos_iff.2 hlit
    simp only [hpack, List.length_cons, List.length_append]
    omega

/-- A literal span costs one byte more than it holds, which the run that has to follow it saves again but for one
third: so an input that begins with a pair of equal bytes has a smaller bound. -/
theorem three_mul_length_pack_le (S : List Byte) :
    3 * (pack S).length ≤ 4 * S.length + 3 ∧
      ∀ b tail, S = b :: b :: tail → 3 * (pack S).length ≤ 4 * S.length + 1 := by
  induction S using pack_induction with
  | nil => exact ⟨by simp [pack_nil], nofun⟩
  | run b n rest h2 _ hpack ih =>
    obtain ⟨ih, -⟩ := ih
    have hrun : 3 * (pack (List.replicate n b ++ rest)).length ≤ 4 * (List.replicate n b ++ rest).length + 1 := by
      simp only [hpack, List.length_cons, List.length_append, List.length_replicate]
      omega
    exact ⟨by omega, fun _ _ _ => hrun⟩
  | literal lit rest hlit h128 hdistinct hend hpack ih =>
    obtain ⟨ih, ihPair⟩ := ih
    have hpos := List.length_pos_iff.2 hlit
    simp only [hpack, List.length_cons, List.length_append]
    refine ⟨?_, fun b tail hpair => ?_⟩
    · rcases hend with hcap | rfl | ⟨b, tail, hrest⟩
      · omega
      · simp only [pack_nil, List.length_nil]
        omega
      · have hpair := ihPair b tail hrest
        omega
    · exact absurd hpair (literal_append_ne_pair hlit hdistinct b tail)

/-- Settles O44: the bound in thirds, divided, and the bound token by token. -/
theorem packSize : Obligations.PackSize := by
  intro S
  obtain ⟨hthirds, -⟩ := three_mul_length_pack_le S
  exact ⟨by omega, length_pack_le_double S⟩

/-! ### PKB.ENC, then PKB.DEC (R245, R246) -/

/-- Bytes stored are the bytes read back. -/
theorem Memory.readBytes_writeBytes (m : Memory) (a : Nat) (bs : List Byte) :
    (m.writeBytes a bs).readBytes a bs.length = bs :=
  List.ext_getElem (by simp) fun j _ hj => by simp [Memory.read_writeBytes_inside, hj]

/-- What PKB.ENC leaves when nothing was raised: the encoded stream, inside its window, and its length (R246). -/
theorem exec_pkbEnc_stores {s t : State} {ra rb rc rd re : Reg} {E : List Byte} (hre : re ≠ 0#4)
    (hE : E = pack (s.mem.readBytes (s.reg ra).toNat (s.reg rb).toNat))
    (hexec : exec (.pkbEnc ra rb rc rd re) s = .next t) (hhalt : t.halt = false) :
    (t.reg re).toNat = E.length ∧ (∀ r, r ≠ re → t.reg r = s.reg r) ∧ t.memSize = s.memSize ∧
      (s.reg rc).toNat + E.length ≤ s.memSize ∧ t.mem = s.mem.writeBytes (s.reg rc).toNat E := by
  rcases execPkbEnc_ends hexec with ⟨u, hu, rfl⟩ | ⟨e, rfl⟩
  · cases hu with
    | configuration hkind => cases hkind
    | pkbEnc _ hwin _ hencoded hfits =>
      obtain rfl := hencoded.trans hE.symm
      refine ⟨?_, fun r hr => State.reg_setReg_of_ne _ _ hr, by simp [State.memSize], by omega, by simp⟩
      rw [State.complete_reg, State.reg_setReg_same, if_neg hre, BitVec.toNat_ofNat]
      omega
  · cases hhalt

/-- PKB.DEC of a stream that decodes, in windows that share no byte, stores what it decodes to (R242). -/
theorem completes_pkbDec {t : State} {ra rb rc rd : Reg} {out : List Byte}
    (hsrc : (t.reg ra).toNat + (t.reg rb).toNat ≤ t.memSize) (hdst : (t.reg rc).toNat + (t.reg rd).toNat ≤ t.memSize)
    (hdisj : ¬ Overlapping (t.reg ra).toNat (t.reg rb).toNat (t.reg rc).toNat (t.reg rd).toNat)
    (hout : unpack (t.mem.readBytes (t.reg ra).toNat (t.reg rb).toNat) (t.reg rd).toNat = .ok out) :
    Completes (.pkbDec ra rb rc rd) t fun u => ∀ j b, out[j]? = some b → u.mem.read ((t.reg rc).toNat + j) = b := by
  have hdec := pkbDecOutcome ra rb rc rd t
  dsimp only at hdec
  rw [if_neg (not_lt.2 hsrc), if_neg (not_lt.2 hdst), if_neg hdisj] at hdec
  obtain ⟨-, hcompletes⟩ := hdec.2 out hout
  exact hcompletes.imp fun _ hpost => hpost.1

/-- Settles O45: PKB.DEC reads the stream that PKB.ENC stored, which decodes to the source bytes. -/
theorem encodeThenDecodeInMemory : Obligations.EncodeThenDecodeInMemory := by
  intro ra rb rc rd re rx s t hregs hre hexec hhalt src sl dst out hout hdisj
  obtain ⟨hb, hc, hx⟩ : rb ≠ re ∧ rc ≠ re ∧ rx ≠ re := by simpa [eq_comm] using hregs
  obtain ⟨hlen, hreg, hsize, hwin, hmem⟩ := exec_pkbEnc_stores hre rfl hexec hhalt
  have hdec := completes_pkbDec (t := t) (ra := rc) (rb := re) (rc := rx) (rd := rb)
    (out := s.mem.readBytes src sl)
  rw [hlen, hreg rc hc, hreg rx hx, hreg rb hb, hsize, hmem, Memory.readBytes_writeBytes] at hdec
  rw [hlen] at hdisj
  refine (hdec hwin hout (by omega) ?_).imp fun u hread j hj => hread j _ ?_
  · simpa using unpackOfPack (s.mem.readBytes src sl)
  · simp [Memory.readBytes, hj]

end Sys2Proof.Machine

/-! ## The pixel adapter: PIX.ADV, and PIX.WRITE, then PIX.READ -/

namespace Sys2Proof.Machine

/-! ### PIX.ADV (R264) -/

theorem exec_pixAdv (ra : Reg) (s : State) :
    exec (.pixAdv ra) s = commit s (do
      s.pix.checkBound
      require (s.pix.pos.toNat + (s.reg ra).toNat ≤ 2 ^ 32 - 1) ⟨.pixPosOvf, s.pix.pos.toNat⟩
      .ok { s with pix := { s.pix with pos := s.pix.pos + s.reg ra } }) := rfl

/-- The adapter's check raises PIX_UNBOUND with 0 (R262 to R265). -/
theorem ite_of_checkBound {i : Instr} {s : State} {rest : Except Err State} {R : Prop}
    (hexec : exec i s = commit s (s.pix.checkBound >>= fun _ => rest)) (hrest : exec i s = commit s rest → R) :
    if s.pix.bound = false then Raises i s 0x0505#32 0 else R :=
  ite_of_check (by decide) Adapter.checkBound_of_unbound
    (fun h => Adapter.checkBound_eq_ok.2 (eq_true_of_ne_false h)) hexec fun _ => hrest

/-- Settles O49: the two checks in order; below 2^32 the sum of position and register does not wrap. -/
theorem pixAdvOutcome : Obligations.PixAdvOutcome := by
  intro ra s x n
  refine ite_of_checkBound (exec_pixAdv ra s) fun hexec => ?_
  refine ite_of_require (by decide) not_le.symm hexec fun hpos hexec => ?_
  have hsum : (x.pos + s.reg ra).toNat = x.pos.toNat + n := BitVec.toNat_add_of_lt (by omega)
  exact completes_of_exec_eq hexec ⟨rfl, hsum, fun _ => rfl, rfl⟩ rfl

/-! ### PIX.WRITE, then PIX.READ (R266) -/

/-- A lookup finds a value at or below any index that holds it. -/
theorem exists_lookup_le {lut : List Word} {v : Word} {i : Nat} (h : lut[i]? = some v) :
    ∃ n ≤ i, lookup lut v = some n := by
  cases hn : lookup lut v with
  | none => exact absurd (List.mem_of_getElem? h) (lookup_eq_none.1 hn)
  | some n => exact ⟨n, not_lt.1 fun hlt => (lookup_eq_some.1 hn).2 i hlt h, rfl⟩

/-- PIX.READ of a pixel whose value the LUT holds returns the index that the lookup finds (R262). -/
theorem completes_pixRead {s : State} {v : Word} {n : Nat} (rd : Reg) (hbound : s.pix.bound = true)
    (hin : 4 * s.pix.pos.toNat + 4 ≤ s.pix.len.toNat)
    (hvalue : pixelValue s.mem (s.pix.base.toNat + 4 * s.pix.pos.toNat) = v.toNat) (hn : lookup s.pix.lut v = some n) :
    Completes (.pixRead rd) s fun u => u.reg rd = if rd = 0#4 then 0#32 else BitVec.ofNat 32 n := by
  obtain ⟨hentry, hfirst⟩ := lookup_eq_some.1 hn
  obtain ⟨-, -, hread⟩ := pixReadOutcome rd s
  refine ((hread hbound hin).2 n v hentry hvalue.symm fun m w hm hw heq => ?_).imp fun _ hpost => hpost.1
  exact hfirst m hm (BitVec.eq_of_toNat_eq (heq.trans hvalue) ▸ hw)

/-- Settles O50: the write leaves the entry's value in the pixel, and the read looks that value up. -/
theorem pixWriteThenRead : Obligations.PixWriteThenRead := by
  intro ra rd s t hbound hindex hin hrd ht
  have hentry := List.getElem?_eq_getElem hindex
  obtain ⟨-, -, -, hwrite⟩ := pixWriteOutcome ra s
  obtain ⟨t', ht', -, hvalue, -⟩ := hwrite hbound hin _ hentry
  obtain rfl : t = t' := by simpa using ht.symm.trans ht'
  obtain ⟨n, hle, hn⟩ := exists_lookup_le hentry
  obtain ⟨hheld, hfirst⟩ := lookup_eq_some.1 hn
  refine (completes_pixRead (s := { t with pix := s.pix }) rd hbound hin hvalue hn).imp fun u hreg => ?_
  have hread : (u.reg rd).toNat = n := by
    rw [hreg, if_neg hrd, BitVec.toNat_ofNat, Nat.mod_eq_of_lt (hle.trans_lt (s.reg ra).isLt)]
  rw [hread, hentry]
  refine ⟨hheld, hfirst, fun hnodup => BitVec.eq_of_toNat_eq ?_⟩
  rw [hread]
  exact ((List.getElem?_inj hindex hnodup).1 (hentry.trans hheld.symm)).symm

end Sys2Proof.Machine

/-! ## What error entry changes (R291) -/

namespace Sys2Proof.Machine

/-- A command of a running core that halts it is error entry from the state before it: RESET and a completed command
leave HALT at 0. -/
theorem exists_raise_of_halts {i : Instr} {s t : State} (hhalt : s.halt = false) (h : exec i s = .next t)
    (ht : t.halt = true) : ∃ e, t = s.raise e := by
  by_cases hi : i = .reset
  · subst hi
    cases h
    simp at ht
  · rcases exec_ends hi h with ⟨u, hu, rfl⟩ | hraise
    · obtain ⟨-, huhalt, -⟩ := hu.frame
      simp [huhalt, hhalt] at ht
    · exact hraise

/-- Settles O53: a command that halts the core is error entry, which writes HALT, ERRCODE and ERRVAL into the state
before it, ERRCODE from the cause raised. -/
theorem errorsLeaveNoTrace : Obligations.ErrorsLeaveNoTrace := by
  intro i s t hhalt h ht
  obtain ⟨e, rfl⟩ := exists_raise_of_halts hhalt h ht
  exact ⟨rfl, e.cause, rfl⟩

end Sys2Proof.Machine
